-- ==== Sys2Proof/Word.lean ====
section
/-! DEFINITION. The two word types of the block: bytes of memory and 32-bit register words (00_scope.md R6, R43). -/

namespace Sys2Proof

/-- A byte of PIXMEM or PAYMEM. -/
abbrev Byte := BitVec 8

/-- A register word, REG_BITS = 32 (R6). -/
abbrev Word := BitVec 32

end Sys2Proof
end

