-- ==== Sys2Proof/Syntax.lean ====
section
/-! DEFINITION. The instructions: one constructor per row of spec/opcode_table.json (30_encoding.md R65 to R72). -/

namespace Sys2Proof

/-- What a host sends the block.
The first three are the rows of format CMD: the 32-bit word a write to CMD delivers (R66).
The last two are the rows of format BUS: one register access (R70). -/
inductive Instr where
  /-- ENCODE, the CMD word 0x00000001 (R67). -/
  | encode
  /-- DECODE, the CMD word 0x00000002 (R68). -/
  | decode
  /-- ILLEGAL_CMD, every other CMD word (R69). -/
  | illegalCmd (word : Word)
  /-- REG_WR: write `data` to the window's byte offset `offset` (R71). -/
  | regWr (offset : BitVec 8) (data : Word)
  /-- REG_RD: read the word at the window's byte offset `offset` (R72). -/
  | regRd (offset : BitVec 8)
deriving DecidableEq, Repr

end Sys2Proof
end

