-- ==== Sys2Proof/WellFormed.lean ====
section
/-! DEFINITION. Which instructions are well formed. -/

namespace Sys2Proof

/-- The row ILLEGAL_CMD stands for the CMD words other than the two commands (R69).
Every other instruction's operands are of exactly the widths its encoding has. -/
def Instr.wf : Instr → Bool
  | .encode => true
  | .decode => true
  | .illegalCmd w => w != 0x00000001 && w != 0x00000002
  | .regWr _ _ => true
  | .regRd _ => true

end Sys2Proof
end

