-- ==== Sys2Proof/Decode.lean ====
section
/-! DEFINITION. The decoder, total on any bytes, and the encoder (30_encoding.md R65 to R72, R75). -/

namespace Sys2Proof

/-- The number whose bytes, least significant first, are the list (20_memory.md R44). -/
def leNat : List Byte → Nat
  | [] => 0
  | b :: rest => b.toNat + 256 * leNat rest

/-- The low `n` bytes of a number, least significant first (R44). -/
def leBytes : Nat → Nat → List Byte
  | 0, _ => []
  | n + 1, w => BitVec.ofNat 8 w :: leBytes n (w / 256)

/-- Why bytes are no instruction. -/
inductive DecodeError where
  /-- Neither 4 bytes (a CMD word) nor 6 bytes (a BUS record): R75 gives no other length. -/
  | badLength
  /-- A bit above bit 40 of a BUS record is set: a record has 41 bits (R70). -/
  | recordTooWide
  /-- W = 0 with DATA ≠ 0: not well formed, refused by name (R72). -/
  | readWithData
deriving DecidableEq, Repr

/-- What the decoder answers. -/
inductive Decoded where
  | ok (i : Instr)
  | reject (why : DecodeError)
deriving DecidableEq, Repr

/-- Format CMD: all 32 bits are compared (R66 to R69). -/
def decodeCommand (w : Word) : Instr :=
  if w = 0x00000001 then .encode
  else if w = 0x00000002 then .decode
  else .illegalCmd w

/-- Bit 40 of a BUS record: 1 for REG_WR (R70). -/
def recordIsWrite (r : BitVec 41) : Bool := r.getLsbD 40

/-- Bits 39:32 of a BUS record (R70). -/
def recordOffset (r : BitVec 41) : BitVec 8 := r.extractLsb' 32 8

/-- Bits 31:0 of a BUS record (R70). -/
def recordData (r : BitVec 41) : Word := r.extractLsb' 0 32

/-- Format BUS (R70 to R72). -/
def decodeRecord (r : BitVec 41) : Decoded :=
  if recordIsWrite r then .ok (.regWr (recordOffset r) (recordData r))
  else if recordData r = 0 then .ok (.regRd (recordOffset r))
  else .reject .readWithData

/-- The decoder: 4 bytes are a CMD word, 6 bytes a BUS record, each with bits 7:0 first (R44, R75). -/
def decode (bytes : List Byte) : Decoded :=
  if bytes.length = 4 then .ok (decodeCommand (BitVec.ofNat 32 (leNat bytes)))
  else if bytes.length = 6 then
    if leNat bytes < 2 ^ 41 then decodeRecord (BitVec.ofNat 41 (leNat bytes))
    else .reject .recordTooWide
  else .reject .badLength

/-- The BUS record W·2^40 + OFFSET·2^32 + DATA (R70). -/
def record (isWrite : Bool) (offset : BitVec 8) (data : Word) : BitVec 41 :=
  BitVec.ofBool isWrite ++ offset ++ data

/-- The bytes of a CMD word. -/
def commandBytes (w : Word) : List Byte := leBytes 4 w.toNat

/-- The bytes of a BUS record. -/
def recordBytes (r : BitVec 41) : List Byte := leBytes 6 r.toNat

/-- The encoder, from the same tables (R67 to R72). -/
def encode : Instr → List Byte
  | .encode => commandBytes 0x00000001
  | .decode => commandBytes 0x00000002
  | .illegalCmd w => commandBytes w
  | .regWr offset data => recordBytes (record true offset data)
  | .regRd offset => recordBytes (record false offset 0)

/-- The bytes of an instruction of `nbits` bits whose bits are `w`: a CMD word in 4 bytes, a BUS record in 6. -/
def tableWordBytes (nbits w : Nat) : List Byte :=
  if nbits ≤ 32 then leBytes 4 (w % 2 ^ nbits) else leBytes 6 (w % 2 ^ nbits)

/-- The instruction the decoder reads from an opcode-table word. -/
def decodeTableWord (nbits w : Nat) : Option Instr :=
  match decode (tableWordBytes nbits w) with
  | .ok i => some i
  | .reject _ => none

end Sys2Proof
end

