-- ==== Sys2Proof/Machine/Parts.lean ====
section
/-! DEFINITION. The data types State is made of (10_state.md), and what a host may do (40_host_interface.md R89). -/

namespace Sys2Proof.Machine

/-- The two byte memories (10_state.md R39). -/
inductive Space where
  | pix
  | pay
deriving DecidableEq, Repr

/-- A byte memory: the written bytes with their addresses, addresses strictly rising (log 1). -/
abbrev Memory := List Host.Cell

/-- eng.phase (R36). -/
inductive Phase where
  | idle
  | check
  | run
deriving DecidableEq, Repr

/-- eng.op (R36). -/
inductive Op where
  | encode
  | decode
deriving DecidableEq, Repr, Inhabited

/-- The engine-internal state of R36 other than the phase, each field at the width R36 gives it. -/
structure Latches where
  op    : Op
  n     : Word
  row   : BitVec 16
  col   : BitVec 16
  chan  : BitVec 2
  bit   : BitVec 3
  k     : Word
  pbyte : Byte
  acc   : Byte
deriving DecidableEq, Repr, Inhabited

/-- The stored register fields of the window (R20 to R31).
CMD, BUSY and CAP have no storage (R18, R19, R32). -/
structure Regs where
  width    : BitVec 16
  height   : BitVec 16
  channels : BitVec 8
  pixBase  : Word
  payBase  : Word
  length   : Word
  result   : Word
  done     : Bool
  trunc    : Bool
  ign      : Bool
  err      : BitVec 4
deriving DecidableEq, Repr

/-- The error codes of STATUS.ERR (60_exceptions.md R137). -/
inductive ErrCode where
  | none
  | invalidBuffer
  | capacityExceeded
  | illegalCommand
deriving DecidableEq, Repr

/-- The ten registers of the window (R17). -/
inductive Register where
  | cmd
  | status
  | width
  | height
  | channels
  | pixBase
  | payBase
  | length
  | result
  | cap
deriving DecidableEq, Repr

/-- The fault mark: the set of ModelFault reasons recorded (R40, R141).
A set over two reasons is two membership bits. -/
structure FaultMark where
  memRange : Bool
  hostRace : Bool
deriving DecidableEq, Repr

/-- The open parameters of R7, fixed for a platform.
A size 1 to 2^32 is held as its last address, so that exactly the sizes R7 allows can be written (log 4). -/
structure Platform where
  regBase    : Nat
  pixmemLast : Word
  paymemLast : Word
deriving DecidableEq, Repr, Inhabited

/-- The two agents of R4. -/
inductive Agent where
  | host
  | engine
deriving DecidableEq, Repr, Inhabited

/-- One thing the host does (R89). -/
inductive HostOp where
  /-- Send the block an instruction, as its bytes: a CMD word or a BUS record (R65, log 7, log 8). -/
  | send (bytes : List Byte)
  /-- `wait`: stays disabled until the engine is idle, then reads STATUS once (R77). -/
  | wait
  /-- Read one byte of a memory (R88). -/
  | readMem (sp : Space) (addr : Nat)
  /-- Write one byte of a memory (R88). -/
  | writeMem (sp : Space) (addr : Nat) (v : Byte)
  /-- Read as many byte lanes at a platform address as the access is wide (R17, R44, R45, R150). -/
  | readLanes (addr : Nat) (count : Nat)
  /-- Write the byte lanes, lowest address first, at a platform address (R17, R44, R45, R150). -/
  | writeLanes (addr : Nat) (lanes : List Byte)
  /-- RESET (R153). -/
  | reset
deriving DecidableEq, Repr

/-- What the host gets back (R85, R89). -/
inductive Reply where
  | word (w : Word)
  | byte (b : Byte)
  | lanes (bs : List Byte)
deriving DecidableEq, Repr

/-- The host's side: what it has still to do, oldest first, and what it got back, newest first (log 6, log 9). -/
structure HostSide where
  pending : List HostOp
  replies : List Reply
deriving DecidableEq, Repr

end Sys2Proof.Machine
end

