-- ==== Sys2Proof/Config.lean ====
section
/-! DEFINITION. What the spec leaves open: the platform's parameters and the free values.
None has a body, so no proof can see a value. -/

namespace Sys2Proof.Config

open Sys2Proof.Machine

/-- REG_BASE, PIXMEM_SIZE and PAYMEM_SIZE of the platform the block stands in (00_scope.md R7, log 4). -/
opaque platform : Platform

/-- OOR_RESPONSE: what attached memory answers at an address it does not have.
The model never uses it (R7, R50, log 20). -/
opaque oorResponse : Space → Nat → Byte

/-- What a byte the host has not written holds: a draw, under no law (20_memory.md R64, log 1). -/
opaque unwrittenByte : Space → Nat → Byte

/-- What the engine latches hold after a completion or a RESET: any value
(41_sequencer.md R105, 70_reset_and_hazards.md R153, log 3). -/
opaque freeLatches : Nat → Latches

/-- Who moves next when both agents can and `State.sched` names nobody: any order (R12, R170, log 5). -/
opaque freeAgent : Nat → Agent

end Sys2Proof.Config
end

