-- ==== Sys2Proof/Machine/State.lean ====
section
/-! DEFINITION. The state of the block and its host, the reasons a step can stop, and the state right after reset. -/

namespace Sys2Proof.Machine

/-- Everything the spec gives the machine (10_state.md), and the model's own five fields: the two of `host`, `unpolled`, `sched`, `draws`. -/
structure State where
  /-- The stored registers (R20 to R31). -/
  regs     : Regs
  /-- eng.phase (R36). -/
  phase    : Phase
  /-- The rest of the engine's state (R36). -/
  lat      : Latches
  /-- PIXMEM (20_memory.md R46). -/
  pix      : Memory
  /-- PAYMEM (R48). -/
  pay      : Memory
  /-- The fault mark (R40). -/
  mark     : FaultMark
  /-- The platform's parameters (R7); no step changes them (log 4). -/
  platform : Platform
  /-- The host's side (R87, log 6, log 9). -/
  host     : HostSide
  /-- A command has been started, and no REG_RD has returned BUSY = 0 since (70_reset_and_hazards.md R159, log 23).
  No register and no engine state: it records how far the host has polled. -/
  unpolled : Bool
  /-- Who moves at the next turns at which both agents can (R12, log 5). -/
  sched    : List Agent
  /-- How many free values have been drawn (log 3, log 5). -/
  draws    : Nat
deriving DecidableEq, Repr

/-- Why the machine stops. -/
inductive Fault where
  /-- Raised by `stalled` when no agent can move and the mark holds MemRange: the run never becomes final (R90, R141).
  Safe: nothing is claimed of a run past it. -/
  | memRange
  /-- Raised by `stalled` when no agent can move and the mark holds HostRace and not MemRange (R90, R141).
  Safe: nothing is claimed of a run past it. -/
  | hostRace
  /-- Raised by an access, of the host or of a RUN step, to an address its memory does not have (R46, R48).
  Safe: the model stops; no RUN step reached from reset raises it, since CHECK has tested the range (R50). -/
  | outsideMemory (sp : Space) (addr : Nat)
deriving DecidableEq, Repr

/-- Why the machine gives no meaning. -/
inductive Refusal where
  /-- Raised by `exec` for an instruction that has no meaning yet. Safe: the model stops. -/
  | notModelled (mnemonic : String)
  /-- Raised by `hostTurn` for bytes that are no instruction (R72, 93_implementation_defined.md S10). Safe: the model stops. -/
  | malformed (why : DecodeError)
  /-- Raised by `platformRead` and `platformWrite` at a platform address outside the block's window: another device's (R54, R150).
  Safe: the model stops. -/
  | outsideWindow (addr : Nat)
deriving DecidableEq, Repr

/-- The registers' reset values (70_reset_and_hazards.md R153). -/
def Regs.reset : Regs :=
  { width := 0, height := 0, channels := 3, pixBase := 0, payBase := 0, length := 0, result := 0
    done := false, trunc := false, ign := false, err := 0 }

/-- The engine latches at launch.
DESIGN CHOICE, unsafe: R153 leaves every one unspecified (log 2). -/
def Latches.reset : Latches :=
  { op := .encode, n := 0, row := 0, col := 0, chan := 0, bit := 0, k := 0, pbyte := 0, acc := 0 }

/-- The machine at launch, right after reset, on any platform (R40, R153, R154).
The host has nothing to do yet (log 6). -/
def State.reset : State :=
  { regs := Regs.reset, phase := .idle, lat := Latches.reset, pix := [], pay := []
    mark := { memRange := false, hostRace := false }, platform := Config.platform
    host := { pending := [], replies := [] }, unpolled := false, sched := [], draws := 0 }

end Sys2Proof.Machine
end

