-- ==== Sys2Proof/Machine/Memory.lean ====
section
/-! DEFINITION. The two byte memories: plain data, one byte an access (20_memory.md R43, R46, R48, R53). -/

namespace Sys2Proof.Machine

/-- The byte listed at an address, if the address has been written. -/
def Memory.lookup : Memory → Nat → Option Byte
  | [], _ => none
  | (k, v) :: rest, a => if k = a then some v else Memory.lookup rest a

/-- The memory with the byte `v` at address `a`. -/
def Memory.insert : Memory → Nat → Byte → Memory
  | [], a, v => [(a, v)]
  | (k, w) :: rest, a, v =>
    if a < k then (a, v) :: (k, w) :: rest
    else if a = k then (a, v) :: rest
    else (k, w) :: Memory.insert rest a v

/-- The canonical form: addresses strictly rising.
`lookup` answers none at an unlisted address, and no entry says none, so equal lookups are equal lists (log 1). -/
abbrev Memory.wf (m : Memory) : Prop := List.Pairwise (fun c d => c.1 < d.1) m

/-- Every listed address is below `size`. -/
abbrev Memory.below (m : Memory) (size : Nat) : Prop := ∀ c ∈ m, c.1 < size

/-- What an unlisted address reads as: a draw, fixed for the address (R53, R64, log 1). -/
def unlistedByte (sp : Space) (a : Nat) : Byte := Config.unwrittenByte sp a

/-- PIXMEM_SIZE or PAYMEM_SIZE (00_scope.md R7). -/
def Platform.size (p : Platform) : Space → Nat
  | .pix => p.pixmemLast.toNat + 1
  | .pay => p.paymemLast.toNat + 1

/-- One of the two memories. -/
def State.bank (s : State) : Space → Memory
  | .pix => s.pix
  | .pay => s.pay

/-- The byte a memory holds at an address. -/
def State.readByte (s : State) (sp : Space) (a : Nat) : Byte :=
  ((s.bank sp).lookup a).getD (unlistedByte sp a)

/-- The state with the byte `v` at an address of a memory. -/
def State.writeByte (s : State) (sp : Space) (a : Nat) (v : Byte) : State :=
  match sp with
  | .pix => { s with pix := s.pix.insert a v }
  | .pay => { s with pay := s.pay.insert a v }

/-- Whether a memory has the address (R46, R48). -/
def State.hasAddress (s : State) (sp : Space) (a : Nat) : Bool := decide (a < s.platform.size sp)

/-- Go on from a next state; a fault or a refusal stays what it is. -/
def andThen (o : Host.Outcome State Fault Refusal) (f : State → Host.Outcome State Fault Refusal) :
    Host.Outcome State Fault Refusal :=
  match o with
  | .next s => f s
  | .fault r => .fault r
  | .refused r => .refused r

/-- MemRead(sp, a, 1): go on with the byte read; an address the memory does not have stops the machine (log 11). -/
def withByte (sp : Space) (a : Nat) (s : State) (f : Byte → Host.Outcome State Fault Refusal) :
    Host.Outcome State Fault Refusal :=
  if s.hasAddress sp a then f (s.readByte sp a) else .fault (.outsideMemory sp a)

/-- MemWrite(sp, a, 1, v); an address the memory does not have stops the machine (log 11). -/
def storeByte (sp : Space) (a : Nat) (v : Byte) (s : State) : Host.Outcome State Fault Refusal :=
  if s.hasAddress sp a then .next (s.writeByte sp a v) else .fault (.outsideMemory sp a)

end Sys2Proof.Machine
end

