-- ==== Sys2Proof/Machine/Operands.lean ====
section
/-! DEFINITION. The operands of a command (30_encoding.md R73), the slot and payload addresses (20_memory.md R47, R48),
the slot count and the capacity (41_sequencer.md R95, 44_capacity.md R132).
All arithmetic is exact, on natural numbers (00_scope.md R9). -/

namespace Sys2Proof.Machine

/-- W = WIDTH[15:0], unsigned. -/
def State.W (s : State) : Nat := s.regs.width.toNat

/-- H = HEIGHT[15:0], unsigned. -/
def State.H (s : State) : Nat := s.regs.height.toNat

/-- C = CHANNELS[7:0], the pixel stride in bytes. -/
def State.C (s : State) : Nat := s.regs.channels.toNat

/-- PIX_BASE, an unsigned byte address. -/
def State.pixBase (s : State) : Nat := s.regs.pixBase.toNat

/-- PAY_BASE, an unsigned byte address. -/
def State.payBase (s : State) : Nat := s.regs.payBase.toNat

/-- L = LENGTH, an unsigned count. -/
def State.L (s : State) : Nat := s.regs.length.toNat

/-- slotCount = W·H·3 (R95). -/
def slotCount (w h : Nat) : Nat := w * h * 3

/-- capacityBytes = floor(w·h·3 / 8) (R132). -/
def capacityBytes (w h : Nat) : Nat := w * h * 3 / 8

/-- The capacity of the configured buffer. -/
def State.cap (s : State) : Nat := capacityBytes s.W s.H

/-- The slot index of (row, col, chan) (R94). -/
def slotIndex (w row col chan : Nat) : Nat := (row * w + col) * 3 + chan

/-- pixAddr(row, col, chan), never wrapped (R47). -/
def State.pixAddr (s : State) (row col chan : Nat) : Nat := s.pixBase + (row * s.W + col) * s.C + chan

/-- slotAddr(i), the address of the slot with index i (R47). -/
def State.slotAddr (s : State) (i : Nat) : Nat := s.pixBase + i / 3 * s.C + i % 3

/-- payAddr(k), never wrapped (R48). -/
def State.payAddr (s : State) (k : Nat) : Nat := s.payBase + k

/-- inRange(N): every address a command of N bytes accesses lies inside its memory (R50). -/
def State.inRange (s : State) (n : Nat) : Bool :=
  n == 0 || (s.hasAddress .pix (s.slotAddr (8 * n - 1)) && s.hasAddress .pay (s.payBase + n - 1))

/-- W = 0, H = 0 or C < 3 (60_exceptions.md R138). -/
def State.invalidBuffer (s : State) : Bool := s.W == 0 || s.H == 0 || decide (s.C < 3)

/-- The address of the slot the cursor names (41_sequencer.md R103). -/
def State.cursorAddr (s : State) : Nat := s.pixAddr s.lat.row.toNat s.lat.col.toNat s.lat.chan.toNat

/-- Bit `b` of a payload byte (42_encode.md R109). -/
def payloadBit (p : Byte) (b : Nat) : Bool := p.getLsbD b

/-- The slot write formula: bits 7:1 stay, bit 0 becomes the payload bit (R111). -/
def embedBit (v : Byte) (bit : Bool) : Byte := (v &&& 0xFE) ||| (if bit then 1 else 0)

/-- The output byte with the LSB of a slot OR-ed into bit position `b` (43_decode.md R122). -/
def gatherBit (acc v : Byte) (b : Nat) : Byte := acc ||| ((v &&& 1) <<< b)

end Sys2Proof.Machine
end

