-- ==== Sys2Proof/Machine/Flags.lean ====
section
/-! DEFINITION. The flags: BUSY, the STATUS word, the error codes, and every writer of a flag (10_state.md R19 to R24, R34). -/

namespace Sys2Proof.Machine

/-- STATUS.BUSY: 1 exactly when eng.phase ≠ IDLE (R19). -/
def State.busy (s : State) : Bool := s.phase != .idle

/-- A flag as a bit of a word. -/
def flagBit (b : Bool) (i : Nat) : Word := if b then 1 <<< i else 0

/-- The STATUS read value, zext_32(ERR << 4 | IGN << 3 | TRUNC << 2 | DONE << 1 | BUSY) (R24). -/
def State.statusWord (s : State) : Word :=
  (s.regs.err.setWidth 32 <<< 4) ||| flagBit s.regs.ign 3 ||| flagBit s.regs.trunc 2 |||
    flagBit s.regs.done 1 ||| flagBit s.busy 0

/-- The code of an error in STATUS.ERR (60_exceptions.md R137). -/
def ErrCode.code : ErrCode → BitVec 4
  | .none => 0
  | .invalidBuffer => 1
  | .capacityExceeded => 2
  | .illegalCommand => 3

/-- What acceptance clears: DONE, TRUNC, IGN, ERR and RESULT (40_host_interface.md R83). -/
def Regs.cleared (r : Regs) : Regs :=
  { r with done := false, trunc := false, ign := false, err := 0, result := 0 }

/-- What complete(err, result) writes into the registers (R86). -/
def Regs.completed (r : Regs) (e : ErrCode) (result : Word) : Regs :=
  { r with err := e.code, result := result, done := true }

/-- IGN is set: a write was dropped while busy (R22, R81). -/
def State.setIgn (s : State) : State := { s with regs := { s.regs with ign := true } }

/-- TRUNC is set: DECODE clamped (R21, 43_decode.md R121). -/
def State.setTrunc (s : State) : State := { s with regs := { s.regs with trunc := true } }

end Sys2Proof.Machine
end

