-- ==== Sys2Proof/Machine/Ops.lean ====
section
/-! DEFINITION. The shared operations: register reads and writes, command acceptance, completion, model faults, reset,
and the start of a command's RUN phase. -/

namespace Sys2Proof.Machine

/-- The register at a window offset; none at 0x28 to 0xFF and at an offset that is no multiple of 4
(10_state.md R17, R33, 20_memory.md R45). -/
def Register.ofOffset (offset : BitVec 8) : Option Register :=
  match offset.toNat with
  | 0x00 => some .cmd
  | 0x04 => some .status
  | 0x08 => some .width
  | 0x0C => some .height
  | 0x10 => some .channels
  | 0x14 => some .pixBase
  | 0x18 => some .payBase
  | 0x1C => some .length
  | 0x20 => some .result
  | 0x24 => some .cap
  | _ => none

/-- A register's offset (30_encoding.md R78). -/
def Register.offset : Register → BitVec 8
  | .cmd => 0x00
  | .status => 0x04
  | .width => 0x08
  | .height => 0x0C
  | .channels => 0x10
  | .pixBase => 0x14
  | .payBase => 0x18
  | .length => 0x1C
  | .result => 0x20
  | .cap => 0x24

/-- The value a register reads as (40_host_interface.md R85, 44_capacity.md R133). -/
def State.readRegister (s : State) : Register → Word
  | .cmd => 0
  | .status => s.statusWord
  | .width => s.regs.width.setWidth 32
  | .height => s.regs.height.setWidth 32
  | .channels => s.regs.channels.setWidth 32
  | .pixBase => s.regs.pixBase
  | .payBase => s.regs.payBase
  | .length => s.regs.length
  | .result => s.regs.result
  | .cap => BitVec.ofNat 32 s.cap

/-- REG_RD(OFFSET) (R85). -/
def State.readOffset (s : State) (offset : BitVec 8) : Word :=
  match Register.ofOffset offset with
  | none => 0
  | some r => s.readRegister r

/-- The six configuration registers, the only ones a write stores into (10_state.md R17). -/
def Register.isConfig : Register → Bool
  | .width | .height | .channels | .pixBase | .payBase | .length => true
  | .cmd | .status | .result | .cap => false

/-- A write to a configuration register; bits above the field's width are dropped (R80).
Another register has nothing to store. -/
def Regs.store (r : Regs) (data : Word) : Register → Regs
  | .width => { r with width := data.setWidth 16 }
  | .height => { r with height := data.setWidth 16 }
  | .channels => { r with channels := data.setWidth 8 }
  | .pixBase => { r with pixBase := data }
  | .payBase => { r with payBase := data }
  | .length => { r with length := data }
  | .cmd | .status | .result | .cap => r

/-- complete(err, result) (R86): the outcome is written and the engine is idle.
The latches no longer mean anything: each is a free value from here on (41_sequencer.md R105, log 3). -/
def State.complete (s : State) (e : ErrCode) (result : Word) : State :=
  { s with
    regs := s.regs.completed e result
    phase := .idle
    lat := Config.freeLatches s.draws
    draws := s.draws + 1 }

/-- Acceptance of ENCODE or DECODE (R83).
From here on the host has yet to see BUSY = 0 (70_reset_and_hazards.md R159, log 23). -/
def State.accept (s : State) (op : Op) : State :=
  { s with regs := s.regs.cleared, phase := .check, lat := { s.lat with op := op }, unpolled := true }

/-- Acceptance of an illegal CMD word: it completes at once with IllegalCommand (R84). -/
def State.acceptIllegal (s : State) : State :=
  State.complete { s with regs := s.regs.cleared } .illegalCommand 0

/-- accept(DATA) (R83). -/
def State.acceptWord (s : State) (w : Word) : State :=
  if w = 0x00000001 then s.accept .encode
  else if w = 0x00000002 then s.accept .decode
  else s.acceptIllegal

/-- A word written to CMD: accepted while idle (R83), dropped with IGN set while busy (R81). -/
def State.writeCommand (s : State) (w : Word) : State :=
  if s.busy then s.setIgn else s.acceptWord w

/-- A word written to a configuration register: stored while idle (R80), dropped with IGN set while busy (R81). -/
def State.writeConfig (s : State) (r : Register) (data : Word) : State :=
  if s.busy then s.setIgn else { s with regs := s.regs.store data r }

/-- REG_WR (R79 to R84). -/
def State.writeOffset (s : State) (offset : BitVec 8) (data : Word) : State :=
  match Register.ofOffset offset with
  | none => s
  | some .cmd => s.writeCommand data
  | some r => if r.isConfig then s.writeConfig r data else s

/-- The host gets a word or a byte back. -/
def State.reply (s : State) (r : Reply) : State :=
  { s with host := { s.host with replies := r :: s.host.replies } }

/-- A REG_RD at the offset has been performed.
Where it returned BUSY = 0, the stretch in which R159 forbids the host the memories is over (log 23). -/
def State.polled (s : State) (offset : BitVec 8) : State :=
  { s with unpolled := s.unpolled && (offset != 0x04 || s.busy) }

/-- The host may not access the memories: the engine is busy (20_memory.md R58), or a command has been started and no REG_RD
has returned BUSY = 0 since (70_reset_and_hazards.md R159, log 23). -/
def State.mustNotAccess (s : State) : Bool := s.busy || s.unpolled

/-- raise ModelFault(MemRange) (60_exceptions.md R141): recorded; the engine has no further step. -/
def State.raiseMemRange (s : State) : State := { s with mark := { s.mark with memRange := true } }

/-- raise ModelFault(HostRace) (R141): recorded; the host has no further step. -/
def State.raiseHostRace (s : State) : State := { s with mark := { s.mark with hostRace := true } }

/-- RESET (70_reset_and_hazards.md R153 to R157): the registers and the engine; not the memories, not the fault mark.
R153 leaves every latch but the phase unspecified: each is a free value from here on (log 3).
What the host has read of STATUS is no hardware state, so a reset leaves the record of it (R159, log 23). -/
def State.doReset (s : State) : State :=
  { s with regs := Regs.reset, phase := .idle, lat := Config.freeLatches s.draws, draws := s.draws + 1 }

/-- eng.n and the cursor as CHECK sets them (41_sequencer.md R100). -/
def State.initCursor (s : State) (n : Nat) : State :=
  { s with lat := { s.lat with n := BitVec.ofNat 32 n, row := 0, col := 0, chan := 0, bit := 0, k := 0 } }

/-- The end of a CHECK step that passed validation, with N bytes to process (42_encode.md R107, 43_decode.md R120). -/
def State.startRun (s : State) (n : Nat) : State :=
  if !s.inRange n then s.raiseMemRange
  else if n = 0 then (s.initCursor 0).complete .none 0
  else { s.initCursor n with phase := .run }

end Sys2Proof.Machine
end

