-- ==== Sys2Proof/Machine/Sequencer.lean ====
section
/-! DEFINITION. The bit-cursor sequencer: how a RUN step ends (41_sequencer.md R100 to R103). -/

namespace Sys2Proof.Machine

/-- The pixel part of advance(): channel, then column, then row (R101). -/
def Latches.advancePixel (c : Latches) (w : Nat) : Latches :=
  if c.chan.toNat + 1 = 3 then
    if c.col.toNat + 1 = w then
      { c with chan := 0, col := 0, row := BitVec.ofNat 16 (c.row.toNat + 1) }
    else { c with chan := 0, col := BitVec.ofNat 16 (c.col.toNat + 1) }
  else { c with chan := BitVec.ofNat 2 (c.chan.toNat + 1) }

/-- The payload part of advance(): bit, then byte (R101). -/
def Latches.advanceBit (c : Latches) : Latches :=
  if c.bit.toNat + 1 = 8 then { c with bit := 0, k := BitVec.ofNat 32 (c.k.toNat + 1) }
  else { c with bit := BitVec.ofNat 3 (c.bit.toNat + 1) }

/-- advance(): from slot s to slot s + 1 (R101). -/
def State.advance (s : State) : State := { s with lat := (s.lat.advancePixel s.W).advanceBit }

/-- The end of a RUN step: advance, and complete when eng.k = eng.n (R102). -/
def State.finishSlot (s : State) : State :=
  let t := s.advance
  if t.lat.k = t.lat.n then t.complete .none t.lat.n else t

end Sys2Proof.Machine
end

