-- ==== Sys2Proof/Machine/DecodeCommand.lean ====
section
/-! DEFINITION. DECODE, the LSB bit-extractor (43_decode.md).
One DECODE command is its acceptance, one CHECK step and 8N RUN steps.
The acceptance is what the instruction does in its own atomic step (00_scope.md R12, log 19); the engine takes the others. -/

namespace Sys2Proof.Machine

/-- DECODE: the CMD word 0x00000002 is written to CMD (30_encoding.md R68, 40_host_interface.md R81, R83). -/
def execDecode (s : State) : Host.Outcome State Fault Refusal := .next (s.writeCommand 0x00000002)

/-- DECODE's CHECK step: validity, then the clamp and TRUNC, then the model's range check (R120, R121). -/
def decodeCheck (s : State) : State :=
  if s.invalidBuffer then s.complete .invalidBuffer 0
  else (if s.cap < s.L then s.setTrunc else s).startRun (min s.L s.cap)

/-- eng.acc with the slot byte's LSB in: started from 0 at bit 0 (R122). -/
def gatherSlot (v : Byte) (s : State) : State :=
  { s with lat := { s.lat with
      acc := gatherBit (if s.lat.bit = 0 then 0 else s.lat.acc) v s.lat.bit.toNat } }

/-- At bit 7 the output byte is complete and is written (R122). -/
def emitByte (s : State) : Host.Outcome State Fault Refusal :=
  if s.lat.bit = 7 then storeByte .pay (s.payAddr s.lat.k.toNat) s.lat.acc s else .next s

/-- DECODE's RUN step (R122). -/
def decodeRun (s : State) : Host.Outcome State Fault Refusal :=
  withByte .pix s.cursorAddr s fun v => andThen (emitByte (gatherSlot v s)) fun s₁ => .next s₁.finishSlot

end Sys2Proof.Machine
end

