-- ==== Sys2Proof/Machine/EncodeCommand.lean ====
section
/-! DEFINITION. ENCODE, the LSB bit-packer (42_encode.md).
One ENCODE command is its acceptance, one CHECK step and 8N RUN steps.
The acceptance is what the instruction does in its own atomic step (00_scope.md R12, log 19); the engine takes the others. -/

namespace Sys2Proof.Machine

/-- ENCODE: the CMD word 0x00000001 is written to CMD (30_encoding.md R67, 40_host_interface.md R81, R83). -/
def execEncode (s : State) : Host.Outcome State Fault Refusal := .next (s.writeCommand 0x00000001)

/-- ENCODE's CHECK step: validity, then capacity, then the model's range check (R107, R108). -/
def encodeCheck (s : State) : State :=
  if s.invalidBuffer then s.complete .invalidBuffer 0
  else if s.cap < s.L then s.complete .capacityExceeded 0
  else s.startRun s.L

/-- At bit 0 the payload byte is latched (R110). -/
def latchPayload (s : State) : Host.Outcome State Fault Refusal :=
  if s.lat.bit = 0 then
    withByte .pay (s.payAddr s.lat.k.toNat) s fun p => .next { s with lat := { s.lat with pbyte := p } }
  else .next s

/-- The slot the cursor names is rewritten with the latched byte's bit (R109 to R111). -/
def packSlot (s : State) : Host.Outcome State Fault Refusal :=
  withByte .pix s.cursorAddr s fun v =>
    storeByte .pix s.cursorAddr (embedBit v (payloadBit s.lat.pbyte s.lat.bit.toNat)) s

/-- ENCODE's RUN step (R110). -/
def encodeRun (s : State) : Host.Outcome State Fault Refusal :=
  andThen (latchPayload s) fun s₁ => andThen (packSlot s₁) fun s₂ => .next s₂.finishSlot

end Sys2Proof.Machine
end

