-- ==== Sys2Proof/Machine/Engine.lean ====
section
/-! DEFINITION. The engine agent: which of its steps it takes (00_scope.md R4, R12). -/

namespace Sys2Proof.Machine

/-- One engine step: CHECK or RUN of the accepted command; none while idle (60_exceptions.md R152). -/
def engineStep (s : State) : Host.Outcome State Fault Refusal :=
  match s.phase, s.lat.op with
  | .idle, _ => .next s
  | .check, .encode => .next (encodeCheck s)
  | .check, .decode => .next (decodeCheck s)
  | .run, .encode => encodeRun s
  | .run, .decode => decodeRun s

/-- `k` engine steps in a row. -/
def engineSteps : Nat → State → Host.Outcome State Fault Refusal
  | 0, s => .next s
  | k + 1, s => andThen (engineStep s) (engineSteps k)

end Sys2Proof.Machine
end

