-- ==== Sys2Proof/Machine/Registers.lean ====
section
/-! DEFINITION. The host interface family: REG_WR, REG_RD and the illegal CMD words (40_host_interface.md R79 to R85). -/

namespace Sys2Proof.Machine

/-- ILLEGAL_CMD: a CMD word other than the two commands is written to CMD (30_encoding.md R69, R81, R84). -/
def execIllegalCmd (word : Word) (s : State) : Host.Outcome State Fault Refusal := .next (s.writeCommand word)

/-- REG_WR (R79 to R84). -/
def execRegWr (offset : BitVec 8) (data : Word) (s : State) : Host.Outcome State Fault Refusal :=
  .next (s.writeOffset offset data)

/-- REG_RD: the host gets the word back; the block's state does not change (R85).
That BUSY = 0 was read is noted for the host (70_reset_and_hazards.md R159). -/
def execRegRd (offset : BitVec 8) (s : State) : Host.Outcome State Fault Refusal :=
  .next ((s.reply (.word (s.readOffset offset))).polled offset)

/-- The window offset of a platform address, if it lies in the 256-byte window at REG_BASE (10_state.md R17, R150). -/
def State.windowOffset (s : State) (addr : Nat) : Option (BitVec 8) :=
  if s.platform.regBase ≤ addr ∧ addr < s.platform.regBase + 256 then
    some (BitVec.ofNat 8 (addr - s.platform.regBase))
  else none

/-- A read at a platform address (20_memory.md R44, R45, log 13).
Four lanes are the REG_RD at that offset, bits 7:0 in the first lane.
Any other width is an access to a reserved offset and reads 0. -/
def platformRead (addr count : Nat) (s : State) : Host.Outcome State Fault Refusal :=
  match s.windowOffset addr with
  | none => .refused (.outsideWindow addr)
  | some offset =>
    .next (if count = 4 then (s.reply (.lanes (leBytes 4 (s.readOffset offset).toNat))).polled offset
      else s.reply (.lanes (List.replicate count 0)))

/-- A write at a platform address (R44, R45, log 13).
Four lanes are the REG_WR at that offset; any other width is ignored. -/
def platformWrite (addr : Nat) (lanes : List Byte) (s : State) : Host.Outcome State Fault Refusal :=
  match s.windowOffset addr with
  | none => .refused (.outsideWindow addr)
  | some offset =>
    .next (if lanes.length = 4 then s.writeOffset offset (BitVec.ofNat 32 (leNat lanes)) else s)

end Sys2Proof.Machine
end

