-- ==== Sys2Proof/Machine/Dispatch.lean ====
section
/-! DEFINITION. Every instruction's meaning, one arm per constructor. -/

namespace Sys2Proof.Machine

def exec (i : Instr) (s : State) : Host.Outcome State Fault Refusal :=
  match i with
  | .encode => Sys2Proof.Machine.execEncode s
  | .decode => Sys2Proof.Machine.execDecode s
  | .illegalCmd word => Sys2Proof.Machine.execIllegalCmd word s
  | .regWr offset data => Sys2Proof.Machine.execRegWr offset data s
  | .regRd offset => Sys2Proof.Machine.execRegRd offset s

end Sys2Proof.Machine
end

