-- ==== Sys2Proof/Machine/HostAgent.lean ====
section
/-! DEFINITION. The host agent: what each of its actions does (40_host_interface.md R87 to R89). -/

namespace Sys2Proof.Machine

/-- The host reads a memory byte.
While busy, and after a command until a REG_RD has returned BUSY = 0, it is HostRace and nothing is read
(20_memory.md R58, 70_reset_and_hazards.md R159, 40_host_interface.md R88, log 10, log 23). -/
def hostRead (sp : Space) (addr : Nat) (s : State) : Host.Outcome State Fault Refusal :=
  if s.mustNotAccess then .next s.raiseHostRace
  else withByte sp addr s fun v => .next (s.reply (.byte v))

/-- The host writes a memory byte.
While busy, and after a command until a REG_RD has returned BUSY = 0, it is HostRace and nothing is written
(R58, R159, R88, log 10, log 23). -/
def hostWrite (sp : Space) (addr : Nat) (v : Byte) (s : State) : Host.Outcome State Fault Refusal :=
  if s.mustNotAccess then .next s.raiseHostRace else storeByte sp addr v s

/-- An instruction sent as bytes: decoded, then executed; bytes that are none are refused (30_encoding.md R72). -/
def hostSend (bytes : List Byte) (s : State) : Host.Outcome State Fault Refusal :=
  match decode bytes with
  | .ok i => exec i s
  | .reject why => .refused (.malformed why)

/-- The final read of a `wait` (30_encoding.md R77, log 14). -/
def hostWait (s : State) : Host.Outcome State Fault Refusal := execRegRd 0x04 s

/-- One host action. -/
def hostAct (op : HostOp) (s : State) : Host.Outcome State Fault Refusal :=
  match op with
  | .send bytes => hostSend bytes s
  | .wait => hostWait s
  | .readMem sp addr => hostRead sp addr s
  | .writeMem sp addr v => hostWrite sp addr v s
  | .readLanes addr count => platformRead addr count s
  | .writeLanes addr lanes => platformWrite addr lanes s
  | .reset => .next s.doReset

/-- The host performs its oldest pending action (R87); with none it does nothing. -/
def hostTurn (s : State) : Host.Outcome State Fault Refusal :=
  match s.host.pending with
  | [] => .next s
  | op :: rest => hostAct op { s with host := { s.host with pending := rest } }

end Sys2Proof.Machine
end

