-- ==== Sys2Proof/Machine/Schedule.lean ====
section
/-! DEFINITION. Who moves next: the interleaving of the two agents (00_scope.md R12, 70_reset_and_hazards.md R170, log 5). -/

namespace Sys2Proof.Machine

/-- The host can move: it has an action left, has not raced, and does not wait for a busy engine (R77, R141). -/
def State.hostReady (s : State) : Bool :=
  match s.host.pending with
  | [] => false
  | .wait :: _ => !s.mark.hostRace && !s.busy
  | _ :: _ => !s.mark.hostRace

/-- The engine can move: it is busy and has raised no model fault (R141). -/
def State.engineReady (s : State) : Bool := s.busy && !s.mark.memRange

/-- The agent that moves next, if any can. -/
def State.mover (s : State) : Option Agent :=
  match s.hostReady, s.engineReady with
  | false, false => none
  | true, false => some .host
  | false, true => some .engine
  | true, true => some (s.sched.headD (Config.freeAgent s.draws))

/-- When both agents can move, the choice taken is used up. -/
def State.spendChoice (s : State) : State :=
  if s.hostReady && s.engineReady then
    match s.sched with
    | [] => { s with draws := s.draws + 1 }
    | _ :: rest => { s with sched := rest }
  else s

/-- No agent can move.
With an empty mark the block is idle and keeps its state (60_exceptions.md R152, log 16).
With a model fault recorded the run never ends (40_host_interface.md R90, log 10). -/
def stalled (s : State) : Host.Outcome State Fault Refusal :=
  if s.mark.memRange then .fault .memRange
  else if s.mark.hostRace then .fault .hostRace
  else .next s

/-- The turn of an agent. -/
def turnOf (a : Agent) (s : State) : Host.Outcome State Fault Refusal :=
  match a with
  | .host => hostTurn s
  | .engine => engineStep s

/-- One step of the machine. -/
def nextTurn (s : State) : Host.Outcome State Fault Refusal :=
  match s.mover with
  | none => stalled s
  | some a => turnOf a s.spendChoice

/-- The state in which the host's very next action is to send the given bytes, and the host moves next. -/
def State.withSend (s : State) (bytes : List Byte) : State :=
  { s with
    host := { s.host with pending := .send bytes :: s.host.pending }
    sched := if s.engineReady then .host :: s.sched else s.sched }

end Sys2Proof.Machine
end

