-- ==== Sys2Proof/Machine/Step.lean ====
section
/-! DEFINITION. One step of the machine, and how the host's next instruction is placed. -/

namespace Sys2Proof.Machine

/-- One step: one agent's atomic step (00_scope.md R12). -/
def step (s : State) : Host.Outcome State Fault Refusal := nextTurn s

/-- The state whose next step performs the instruction with the given opcode-table word (log 6). -/
def State.withFetchWord (s : State) (nbits w : Nat) : State := s.withSend (tableWordBytes nbits w)

end Sys2Proof.Machine
end

