-- ==== Sys2Proof/Safety.lean ====
section
/-! DEFINITION. What a good state is, and the views of a state that claims compare. -/

namespace Sys2Proof.Machine

/-- A run has ended: nothing left to do, idle, and no model fault recorded (40_host_interface.md R90). -/
def State.Final (s : State) : Prop :=
  s.host.pending = [] ∧ s.phase = .idle ∧ s.mark = { memRange := false, hostRace := false }

/-- The configuration registers of two register files agree (10_state.md R17). -/
def Regs.SameConfig (r q : Regs) : Prop :=
  r.width = q.width ∧ r.height = q.height ∧ r.channels = q.channels ∧
    r.pixBase = q.pixBase ∧ r.payBase = q.payBase ∧ r.length = q.length

/-- Both memories are in canonical form and list only addresses they have (20_memory.md R46, R48). -/
structure State.MemInv (s : State) : Prop where
  pix_wf    : s.pix.wf
  pay_wf    : s.pay.wf
  pix_below : s.pix.below (s.platform.size .pix)
  pay_below : s.pay.below (s.platform.size .pay)

/-- The flags (10_state.md R21, R23, R31, 60_exceptions.md R142, R143, 70_reset_and_hazards.md R161). -/
structure State.FlagInv (s : State) : Prop where
  /-- Only the codes 0 to 3 are produced. -/
  err_legal   : s.regs.err.toNat ≤ 3
  /-- TRUNC never comes with an error. -/
  trunc_clean : s.regs.trunc = true → s.regs.err = 0
  /-- While busy DONE, ERR and RESULT read 0. -/
  busy_quiet  : s.busy = true → s.regs.done = false ∧ s.regs.err = 0 ∧ s.regs.result = 0
  /-- Before CHECK has run, TRUNC is 0; a CHECK that found MemRange may have set it. -/
  check_trunc : s.phase = .check → s.mark.memRange = false → s.regs.trunc = false

/-- The number of bytes the running command processes (42_encode.md R107, 43_decode.md R121). -/
def State.goalBytes (s : State) : Nat :=
  match s.lat.op with
  | .encode => s.L
  | .decode => min s.L s.cap

/-- A RUN phase: CHECK has passed, and the cursor names the slot 8k + bit (10_state.md R36, R37, 41_sequencer.md R100 to R103). -/
structure State.RunInv (s : State) : Prop where
  valid     : s.invalidBuffer = false
  n_goal    : s.lat.n.toNat = s.goalBytes
  n_cap     : s.lat.n.toNat ≤ s.cap
  ranged    : s.inRange s.lat.n.toNat = true
  k_lt      : s.lat.k.toNat < s.lat.n.toNat
  row_lt    : s.lat.row.toNat < s.H
  col_lt    : s.lat.col.toNat < s.W
  chan_lt   : s.lat.chan.toNat < 3
  cursor    : 8 * s.lat.k.toNat + s.lat.bit.toNat = (s.lat.row.toNat * s.W + s.lat.col.toNat) * 3 + s.lat.chan.toNat
  trunc_iff : s.regs.trunc = true ↔ s.lat.op = .decode ∧ s.cap < s.L
  unmarked  : s.mark.memRange = false

/-- What every step keeps. -/
structure State.Inv (s : State) : Prop where
  /-- While a command runs the host has yet to see BUSY = 0 (70_reset_and_hazards.md R159). -/
  held  : s.phase ≠ .idle → s.unpolled = true
  mem   : s.MemInv
  flags : s.FlagInv
  run   : s.phase = .run → s.RunInv

/-- A command of `n` bytes would pass CHECK (R107, R120). -/
def State.Acceptable (s : State) (n : Nat) : Prop :=
  s.invalidBuffer = false ∧ n ≤ s.cap ∧ s.inRange n = true

/-- Whether the host has yet to see BUSY = 0 after a REG_RD at the offset: a read of STATUS while idle shows it
(70_reset_and_hazards.md R159, log 23). -/
def State.unpolledAfter (s : State) (offset : BitVec 8) : Bool :=
  if offset = 0x04 ∧ s.phase = .idle then false else s.unpolled

/-- Reading the offset answers the word `v` and changes nothing but what the host got back and whether it has seen BUSY = 0
(40_host_interface.md R85, 70_reset_and_hazards.md R159). -/
def State.Returns (s : State) (offset : BitVec 8) (v : Word) : Prop :=
  exec (.regRd offset) s = .next { s with
    host := { s.host with replies := .word v :: s.host.replies }, unpolled := s.unpolledAfter offset }

/-- The register write an instruction is, as offset and data; a CMD word is a write to offset 0x00 (30_encoding.md R65). -/
def regWriteOf : Instr → Option (BitVec 8 × Word)
  | .encode => some (0x00, 0x00000001)
  | .decode => some (0x00, 0x00000002)
  | .illegalCmd word => some (0x00, word)
  | .regWr offset data => some (offset, data)
  | .regRd _ => none

/-- The register write a host operation performs, sent as an instruction or as four byte lanes in the window
(10_state.md R17, 20_memory.md R44, R45). -/
def State.writeOf (s : State) : HostOp → Option (BitVec 8 × Word)
  | .send bytes =>
    match decode bytes with
    | .ok i => regWriteOf i
    | .reject _ => none
  | .writeLanes addr lanes =>
    if lanes.length = 4 then (s.windowOffset addr).map fun offset => (offset, BitVec.ofNat 32 (leNat lanes)) else none
  | .wait | .readMem _ _ | .writeMem _ _ _ | .readLanes _ _ | .reset => none

/-- Whether a host operation is a read of STATUS: as a record, as the last read of `wait`, or as four byte lanes in the window
(40_host_interface.md R85, 30_encoding.md R77, 20_memory.md R44). -/
def State.readsStatus (s : State) : HostOp → Bool
  | .send bytes => decode bytes == .ok (.regRd 0x04)
  | .wait => true
  | .readLanes addr count => count == 4 && s.windowOffset addr == some 0x04
  | .readMem _ _ | .writeMem _ _ _ | .writeLanes _ _ | .reset => false

/-- The host's oldest operation is a register write, and `rest` is what it has to do after it. -/
def State.HostWrites (s : State) (offset : BitVec 8) (data : Word) (rest : List HostOp) : Prop :=
  ∃ op, s.host.pending = op :: rest ∧ s.writeOf op = some (offset, data)

/-- The state with the host's oldest operation, and the choice of who moves, taken off. -/
def State.afterTaking (s : State) (rest : List HostOp) : State :=
  { s.spendChoice with host := { s.host with pending := rest } }

/-- The step from `s` to `t` is an engine step that ends the running command (40_host_interface.md R86). -/
def State.EngineCompletes (s t : State) : Prop :=
  s.phase ≠ .idle ∧ engineStep s.spendChoice = .next t ∧ t.phase = .idle

/-- The step from `s` to `t` is the host's write of an illegal word to CMD while idle (R84). -/
def State.HostSendsIllegal (s t : State) : Prop :=
  s.phase = .idle ∧ ∃ w rest, s.HostWrites 0x00 w rest ∧ w ≠ 0x00000001 ∧ w ≠ 0x00000002 ∧
    t = (s.afterTaking rest).acceptIllegal

/-- Nothing but the stored registers, the engine, the memories and the draw counter differs. -/
def State.SameSurroundings (s t : State) : Prop :=
  t.mark = s.mark ∧ t.platform = s.platform ∧ t.host = s.host ∧ t.sched = s.sched ∧ t.unpolled = s.unpolled

/-- Every byte of both memories reads the same. -/
def State.SameMemory (s t : State) : Prop := ∀ sp a, t.readByte sp a = s.readByte sp a

/-- An idle machine whose host has one thing to do, to send the instruction `i`, with no model fault recorded. -/
def State.AboutToSend (s : State) (i : Instr) : Prop :=
  s.phase = .idle ∧ s.host.pending = [.send (encode i)] ∧
    s.mark = { memRange := false, hostRace := false }

/-- The latches with what no later step reads before it is written set to a fixed value:
everything while idle, all but op before CHECK, and in RUN the byte the other command uses and a byte not yet started
(10_state.md R36, 41_sequencer.md R105). -/
def State.liveLatches (s : State) : Latches :=
  match s.phase, s.lat.op with
  | .idle, _ => Latches.reset
  | .check, op => { Latches.reset with op := op }
  | .run, .encode => { s.lat with acc := 0, pbyte := if s.lat.bit = 0 then 0 else s.lat.pbyte }
  | .run, .decode => { s.lat with pbyte := 0, acc := if s.lat.bit = 0 then 0 else s.lat.acc }

/-- The state without its dead latches: what can still be seen of it. -/
def State.live (s : State) : State := { s with lat := s.liveLatches }

/-- The state without what memory holds and without the two data latches: what decides the order of accesses (41_sequencer.md R104). -/
def State.control (s : State) : State :=
  { s with pix := [], pay := [], lat := { s.lat with pbyte := 0, acc := 0 } }

/-- A view of an outcome's next state. -/
def outcomeMap (f : State → State) (o : Host.Outcome State Fault Refusal) : Host.Outcome State Fault Refusal :=
  andThen o fun s => .next (f s)

end Sys2Proof.Machine
end

