-- ==== Sys2Proof/Certificates/Slice0/Obligations.lean ====
section
/-! DEFINITION. The statements for the provers. -/

open Sys2Proof Sys2Proof.Machine

/-! ## The host interface -/

/-- 70_reset_and_hazards.md R153: after reset, at launch or by RESET, every register reads its reset value and the engine is idle. -/
def Obligations.ResetSetsEveryRegister : Prop :=
  (∀ s : State, ∃ t, hostAct .reset s = .next t) ∧
  ∀ t : State, (t = State.reset ∨ ∃ s, hostAct .reset s = .next t) →
    t.readOffset 0x00 = 0 ∧ t.readOffset 0x04 = 0 ∧ t.readOffset 0x08 = 0 ∧ t.readOffset 0x0C = 0 ∧
    t.readOffset 0x10 = 3 ∧ t.readOffset 0x14 = 0 ∧ t.readOffset 0x18 = 0 ∧ t.readOffset 0x1C = 0 ∧
    t.readOffset 0x20 = 0 ∧ t.readOffset 0x24 = 0 ∧ t.phase = .idle

/-- 70_reset_and_hazards.md R154, R157, and R64 for the contents at power-on: reset leaves both memories and the fault mark. -/
def Obligations.ResetKeepsMemoriesAndFaultMark : Prop :=
  (∀ s : State, ∃ t, hostAct .reset s = .next t ∧ s.SameMemory t ∧ t.mark = s.mark) ∧
  ∀ sp a, State.reset.readByte sp a = Config.unwrittenByte sp a

/-- 40_host_interface.md R80: while idle a write to a configuration register stores the field's bits and changes nothing else. -/
def Obligations.ConfigWriteWhileIdleStores : Prop :=
  ∀ (s : State) (data : Word), s.phase = .idle →
    exec (.regWr 0x08 data) s = .next { s with regs := { s.regs with width := data.extractLsb' 0 16 } } ∧
    exec (.regWr 0x0C data) s = .next { s with regs := { s.regs with height := data.extractLsb' 0 16 } } ∧
    exec (.regWr 0x10 data) s = .next { s with regs := { s.regs with channels := data.extractLsb' 0 8 } } ∧
    exec (.regWr 0x14 data) s = .next { s with regs := { s.regs with pixBase := data } } ∧
    exec (.regWr 0x18 data) s = .next { s with regs := { s.regs with payBase := data } } ∧
    exec (.regWr 0x1C data) s = .next { s with regs := { s.regs with length := data } }

/-- 40_host_interface.md R81: while busy a write to CMD or to a configuration register sets IGN and changes nothing else;
so does every CMD word. -/
def Obligations.BusyWritesAreDroppedAndSetIgn : Prop :=
  ∀ (s : State) (data : Word), s.phase ≠ .idle →
    (∀ offset : BitVec 8, offset ∈ [0x00, 0x08, 0x0C, 0x10, 0x14, 0x18, 0x1C] →
      exec (.regWr offset data) s = .next { s with regs := { s.regs with ign := true } }) ∧
    ∀ i : Instr, i ∈ [.encode, .decode, .illegalCmd data] →
      exec i s = .next { s with regs := { s.regs with ign := true } }

/-- 40_host_interface.md R82: a write to STATUS, RESULT or CAP changes nothing, idle or busy. -/
def Obligations.ReadOnlyRegisterWritesChangeNothing : Prop :=
  ∀ (s : State) (data : Word) (offset : BitVec 8), offset ∈ [0x04, 0x20, 0x24] →
    exec (.regWr offset data) s = .next s

/-- 40_host_interface.md R79: a write at an offset that is no multiple of 4, or at 0x28 or above, changes nothing. -/
def Obligations.ReservedOffsetWritesChangeNothing : Prop :=
  ∀ (s : State) (data : Word) (offset : BitVec 8), offset.toNat % 4 ≠ 0 ∨ 0x28 ≤ offset.toNat →
    exec (.regWr offset data) s = .next s

/-- 40_host_interface.md R85: what a REG_RD of every offset returns, idle or busy; it changes no state of the block.
A read of STATUS while idle clears the record that the host has yet to read BUSY = 0 (70_reset_and_hazards.md R159, log 23).
In every good busy state RESULT reads 0. -/
def Obligations.RegisterReadReturnsItsWord : Prop :=
  ∀ s : State,
    (∀ offset : BitVec 8, offset.toNat % 4 ≠ 0 ∨ 0x28 ≤ offset.toNat → s.Returns offset 0) ∧
    s.Returns 0x00 0 ∧
    s.Returns 0x04 (BitVec.ofNat 32 (16 * s.regs.err.toNat + 8 * s.regs.ign.toNat + 4 * s.regs.trunc.toNat +
      2 * s.regs.done.toNat + if s.phase = .idle then 0 else 1)) ∧
    s.Returns 0x08 (BitVec.ofNat 32 s.regs.width.toNat) ∧
    s.Returns 0x0C (BitVec.ofNat 32 s.regs.height.toNat) ∧
    s.Returns 0x10 (BitVec.ofNat 32 s.regs.channels.toNat) ∧
    s.Returns 0x14 s.regs.pixBase ∧ s.Returns 0x18 s.regs.payBase ∧ s.Returns 0x1C s.regs.length ∧
    s.Returns 0x20 s.regs.result ∧ (s.Inv → s.phase ≠ .idle → s.Returns 0x20 0) ∧
    s.Returns 0x24 (BitVec.ofNat 32 (s.regs.width.toNat * s.regs.height.toNat * 3 / 8))

/-- 44_capacity.md R133: a REG_RD of CAP, idle or busy, answers the exact capacity, with no bit lost, and changes nothing;
CHANNELS has no part in it. -/
def Obligations.CapRegisterReadsExactCapacity : Prop :=
  ∀ s : State, ∃ v, s.Returns 0x24 v ∧ v.toNat = s.regs.width.toNat * s.regs.height.toNat * 3 / 8

/-- 40_host_interface.md R83, R84: a CMD word written while idle clears DONE, TRUNC, IGN, ERR and RESULT;
1 and 2 start CHECK of their command, and any other word completes with code 3 and result 0.
From the start of a command the host has yet to see BUSY = 0 (70_reset_and_hazards.md R159, log 23);
that an illegal word does not begin R159's stretch is the model's choice (log 23, DEDUCED, unsafe there). -/
def Obligations.CommandWordIsAcceptedWhileIdle : Prop :=
  ∀ s : State, s.phase = .idle →
    (exec (.regWr 0x00 0x00000001) s = .next { s with
      regs := { s.regs with done := false, trunc := false, ign := false, err := 0, result := 0 }
      phase := .check, lat := { s.lat with op := .encode }, unpolled := true }) ∧
    (exec (.regWr 0x00 0x00000002) s = .next { s with
      regs := { s.regs with done := false, trunc := false, ign := false, err := 0, result := 0 }
      phase := .check, lat := { s.lat with op := .decode }, unpolled := true }) ∧
    ∀ w : Word, w ≠ 0x00000001 → w ≠ 0x00000002 → ∃ t, exec (.regWr 0x00 w) s = .next t ∧
      t.regs = { s.regs with done := true, trunc := false, ign := false, err := 3, result := 0 } ∧
      t.phase = .idle ∧ t.pix = s.pix ∧ t.pay = s.pay ∧ s.SameSurroundings t

/-- ENCODE and DECODE as command words while idle: BUSY becomes 1, the flags and RESULT read 0, nothing else of the block changes, and the host has
yet to see BUSY = 0 (30_encoding.md R67, R68; 40_host_interface.md R83; 70_reset_and_hazards.md R159, log 23). -/
def Obligations.EncodeAndDecodeStartTheirCommand : Prop :=
  ∀ s : State, s.phase = .idle →
    ∀ i op, (i, op) ∈ [(Instr.encode, Op.encode), (Instr.decode, Op.decode)] →
      ∃ t, exec i s = .next t ∧ t.phase = .check ∧ t.lat.op = op ∧ t.readOffset 0x04 = 1 ∧ t.readOffset 0x20 = 0 ∧
        s.regs.SameConfig t.regs ∧ t.pix = s.pix ∧ t.pay = s.pay ∧
        t.mark = s.mark ∧ t.platform = s.platform ∧ t.host = s.host ∧ t.sched = s.sched ∧ t.unpolled = true

/-- 40_host_interface.md R84: an illegal CMD word completes within its own write, with STATUS 0x32 and RESULT 0.
The record of 70_reset_and_hazards.md R159 stays as it is: that an illegal word does not begin R159's stretch is the model's choice (log 23, DEDUCED, unsafe there). -/
def Obligations.IllegalCommandCompletesAtOnce : Prop :=
  ∀ (s : State) (w : Word), s.phase = .idle → (Instr.illegalCmd w).wf = true →
    ∃ t, exec (.illegalCmd w) s = .next t ∧ t.phase = .idle ∧ t.readOffset 0x04 = 0x32 ∧ t.readOffset 0x20 = 0 ∧
      s.regs.SameConfig t.regs ∧ t.pix = s.pix ∧ t.pay = s.pay ∧ s.SameSurroundings t

/-- 10_state.md R18, 30_encoding.md R65: a command word is what a REG_WR writes to offset 0x00. -/
def Obligations.CommandWordIsRegisterWriteToCmd : Prop :=
  ∀ (s : State) (w : Word), exec (.regWr 0x00 w) s = exec (decodeCommand w) s

/-- Every instruction answers a next state from every state: no instruction stops (40_host_interface.md R79 to R85). -/
def Obligations.EveryInstructionAnswersNext : Prop :=
  ∀ (i : Instr) (s : State), ∃ t, exec i s = .next t

/-- The frame of the five instructions: no memory byte, no fault mark, no platform parameter, no pending host action changes;
only a REG_RD gives the host a reply; only an idle REG_WR to a configuration register changes one, and then only that one;
only CMD words and writes change the flags and RESULT (40_host_interface.md R79 to R85);
only a read of STATUS while idle shows the host BUSY = 0, and only a command started takes that back (70_reset_and_hazards.md R159);
that an illegal word does not begin R159's stretch is the model's choice (log 23, DEDUCED, unsafe there). -/
def Obligations.InstructionFrame : Prop :=
  ∀ (i : Instr) (s t : State), exec i s = .next t →
    s.SameMemory t ∧ t.mark = s.mark ∧ t.platform = s.platform ∧ t.sched = s.sched ∧
    t.host.pending = s.host.pending ∧
    ((∀ offset, i ≠ .regRd offset) → t.host.replies = s.host.replies) ∧
    ((∀ offset data, i ≠ .regWr offset data) → s.regs.SameConfig t.regs) ∧
    (∀ offset data, i = .regWr offset data → offset ≠ 0x00 →
      t.phase = s.phase ∧ t.lat = s.lat ∧ t.unpolled = s.unpolled ∧ t.regs.done = s.regs.done ∧ t.regs.trunc = s.regs.trunc ∧
      t.regs.err = s.regs.err ∧ t.regs.result = s.regs.result ∧ (s.phase = .idle → t.regs.ign = s.regs.ign) ∧
      (offset ≠ 0x08 → t.regs.width = s.regs.width) ∧ (offset ≠ 0x0C → t.regs.height = s.regs.height) ∧
      (offset ≠ 0x10 → t.regs.channels = s.regs.channels) ∧ (offset ≠ 0x14 → t.regs.pixBase = s.regs.pixBase) ∧
      (offset ≠ 0x18 → t.regs.payBase = s.regs.payBase) ∧ (offset ≠ 0x1C → t.regs.length = s.regs.length)) ∧
    (∀ data, i = .regWr 0x00 data → s.regs.SameConfig t.regs) ∧
    ((∀ offset, i ≠ .regRd offset) → t.unpolled = (s.unpolled || (decide (s.phase = .idle) && decide (t.phase ≠ .idle)))) ∧
    (∀ offset, i = .regRd offset →
      t.regs = s.regs ∧ t.phase = s.phase ∧ t.lat = s.lat ∧ t.unpolled = s.unpolledAfter offset)

/-- 20_memory.md R44, R45 and 10_state.md R17: wherever REG_BASE is, an access of four byte lanes inside the window is the
register access at that offset, bits 7:0 in the first lane; a narrower access reads 0 and writes nothing.
That a WIDER access does so too is the model's choice (log 13, DEDUCED, unsafe there): R45 names narrower ones only. -/
def Obligations.PlatformAccessReachesTheWindow : Prop :=
  ∀ (s : State) (offset : BitVec 8),
    (∀ b₀ b₁ b₂ b₃ : Byte, hostAct (.writeLanes (s.platform.regBase + offset.toNat) [b₀, b₁, b₂, b₃]) s =
      exec (.regWr offset (b₃ ++ b₂ ++ b₁ ++ b₀)) s) ∧
    (∃ b₀ b₁ b₂ b₃ : Byte, s.Returns offset (b₃ ++ b₂ ++ b₁ ++ b₀) ∧
      hostAct (.readLanes (s.platform.regBase + offset.toNat) 4) s =
        .next { s with
          host := { s.host with replies := .lanes [b₀, b₁, b₂, b₃] :: s.host.replies }
          unpolled := s.unpolledAfter offset }) ∧
    (∀ lanes : List Byte, lanes.length ≠ 4 →
      hostAct (.writeLanes (s.platform.regBase + offset.toNat) lanes) s = .next s) ∧
    ∀ count, count ≠ 4 → hostAct (.readLanes (s.platform.regBase + offset.toNat) count) s =
      .next { s with host := { s.host with replies := .lanes (List.replicate count 0) :: s.host.replies } }

/-- 40_host_interface.md R88 and 20_memory.md R53: while idle, and where a command was started once a REG_RD has returned
BUSY = 0 (70_reset_and_hazards.md R159), the host reads the byte a memory holds, and a write changes that byte alone. -/
def Obligations.HostMemoryAccessWhileIdle : Prop :=
  ∀ (s : State) (sp : Space) (a : Nat) (v : Byte), s.phase = .idle → s.unpolled = false →
    a < s.platform.size sp →
    hostAct (.readMem sp a) s = .next { s with host := { s.host with replies := .byte (s.readByte sp a) :: s.host.replies } } ∧
    ∃ t, hostAct (.writeMem sp a v) s = .next t ∧ t.readByte sp a = v ∧
      (∀ sq b, (sq, b) ≠ (sp, a) → t.readByte sq b = s.readByte sq b) ∧
      t.regs = s.regs ∧ t.phase = s.phase ∧ t.lat = s.lat ∧ s.SameSurroundings t

/-- A host access to either memory while busy records HostRace (20_memory.md R58), and so does one after a command was started
and before a REG_RD has returned BUSY = 0, completed or not (70_reset_and_hazards.md R159).
In the state right after it the host cannot move (60_exceptions.md R141).
That the racing access touches no memory, gives no reply and disturbs nothing else is the model's choice
(log 10, DEDUCED, unsafe): R58 calls the hardware result undefined. -/
def Obligations.HostAccessWhileBusyIsRace : Prop :=
  ∀ (s : State) (sp : Space) (a : Nat) (v : Byte), s.phase ≠ .idle ∨ s.unpolled = true →
    ∀ op, op ∈ [HostOp.readMem sp a, HostOp.writeMem sp a v] →
      hostAct op s = .next { s with mark := { s.mark with hostRace := true } } ∧
      State.hostReady { s with mark := { s.mark with hostRace := true } } = false

/-- 30_encoding.md R77: `wait` stays disabled while the engine is busy;
once idle it performs one read of STATUS, whose BUSY bit is 0, and the host has seen that (70_reset_and_hazards.md R159). -/
def Obligations.WaitHoldsUntilIdle : Prop :=
  ∀ (s : State) (rest : List HostOp), s.host.pending = .wait :: rest →
    (s.phase ≠ .idle → s.mover ≠ some .host) ∧
    (s.phase = .idle → s.mark.hostRace = false →
      (s.readOffset 0x04).getLsbD 0 = false ∧
      step s = .next { s with
        host := { pending := rest, replies := .word (s.readOffset 0x04) :: s.host.replies }, unpolled := false })

/-! ## Addresses, capacity and the sequencer -/

/-- 41_sequencer.md R96 with 20_memory.md R47: row, column and channel of a slot index, and that both forms of its address agree. -/
def Obligations.SlotIndexInverse : Prop :=
  ∀ (s : State) (i : Nat), i < slotCount s.W s.H →
    i / (3 * s.W) < s.H ∧ i % (3 * s.W) / 3 < s.W ∧ i % 3 < 3 ∧
    slotIndex s.W (i / (3 * s.W)) (i % (3 * s.W) / 3) (i % 3) = i ∧
    i / 3 = i / (3 * s.W) * s.W + i % (3 * s.W) / 3 ∧
    s.pixAddr (i / (3 * s.W)) (i % (3 * s.W) / 3) (i % 3) = s.slotAddr i

/-- 20_memory.md R50: slot addresses rise with the index, so distinct slots are distinct bytes;
a command in range accesses only addresses its memories have (R49). -/
def Obligations.InRangeCoversEverySlot : Prop :=
  ∀ (s : State) (n : Nat), s.invalidBuffer = false →
    (∀ i j, i < j → s.slotAddr i < s.slotAddr j) ∧
    (s.inRange n = true ↔ (∀ i, i < 8 * n → s.slotAddr i < s.platform.size .pix) ∧
      ∀ k, k < n → s.payAddr k < s.platform.size .pay)

/-- 44_capacity.md R134: capacityBytes is monotonic in w·h and depends on the product alone. -/
def Obligations.CapacityIsMonotonic : Prop :=
  ∀ w₁ h₁ w₂ h₂ : Nat, w₁ * h₁ ≤ w₂ * h₂ → capacityBytes w₁ h₁ ≤ capacityBytes w₂ h₂

/-- 44_capacity.md R135: the capacity test of ENCODE and the clamp of DECODE are one comparison. -/
def Obligations.CapacityTestIsExact : Prop :=
  ∀ w h l : Nat, l * 8 ≤ slotCount w h ↔ l ≤ capacityBytes w h

/-- 41_sequencer.md R101: advance moves the cursor from slot s to slot s + 1 of the traversal and of the payload, and nothing wraps. -/
def Obligations.AdvanceMovesToTheNextSlot : Prop :=
  ∀ s : State, s.lat.row.toNat < s.H → s.lat.col.toNat < s.W → s.lat.chan.toNat < 3 → s.lat.k.toNat + 1 < 2 ^ 32 →
    slotIndex s.W s.advance.lat.row.toNat s.advance.lat.col.toNat s.advance.lat.chan.toNat =
      slotIndex s.W s.lat.row.toNat s.lat.col.toNat s.lat.chan.toNat + 1 ∧
    8 * s.advance.lat.k.toNat + s.advance.lat.bit.toNat = 8 * s.lat.k.toNat + s.lat.bit.toNat + 1 ∧
    s.advance.lat.chan.toNat < 3 ∧ s.advance.lat.col.toNat < s.W ∧ s.advance.lat.row.toNat ≤ s.H ∧
    s.advance.lat.op = s.lat.op ∧ s.advance.lat.n = s.lat.n ∧ s.advance.lat.pbyte = s.lat.pbyte ∧
    s.advance.lat.acc = s.lat.acc

/-! ## ENCODE -/

/-- 42_encode.md R107: every outcome of ENCODE's CHECK step. -/
def Obligations.EncodeCheckStep : Prop :=
  ∀ s : State, s.phase = .check → s.lat.op = .encode →
    (s.W = 0 ∨ s.H = 0 ∨ s.C < 3 → ∃ t, engineStep s = .next t ∧ t.phase = .idle ∧
      t.regs = { s.regs with err := 1, result := 0, done := true } ∧ t.pix = s.pix ∧ t.pay = s.pay ∧ s.SameSurroundings t) ∧
    (0 < s.W → 0 < s.H → 3 ≤ s.C → slotCount s.W s.H < s.L * 8 → ∃ t, engineStep s = .next t ∧ t.phase = .idle ∧
      t.regs = { s.regs with err := 2, result := 0, done := true } ∧ t.pix = s.pix ∧ t.pay = s.pay ∧ s.SameSurroundings t) ∧
    (0 < s.W → 0 < s.H → 3 ≤ s.C → s.L * 8 ≤ slotCount s.W s.H →
      (s.inRange s.L = false → engineStep s = .next { s with mark := { s.mark with memRange := true } } ∧
        State.engineReady { s with mark := { s.mark with memRange := true } } = false) ∧
      (s.L = 0 → ∃ t, engineStep s = .next t ∧ t.phase = .idle ∧
        t.regs = { s.regs with err := 0, result := 0, done := true } ∧ t.pix = s.pix ∧ t.pay = s.pay ∧ s.SameSurroundings t) ∧
      (s.L ≠ 0 → s.inRange s.L = true → engineStep s = .next { s with
        phase := .run
        lat := { s.lat with n := s.regs.length, row := 0, col := 0, chan := 0, bit := 0, k := 0 } }))

/-- 42_encode.md R110: ENCODE's RUN step.
Where the slot and, at bit 0, the payload byte exist, it answers a next state: the slot byte is rewritten and no other byte of
either memory changes, the cursor advances, and the command completes exactly when every byte is done. -/
def Obligations.EncodeRunStep : Prop :=
  ∀ s : State, s.phase = .run → s.lat.op = .encode →
    s.cursorAddr < s.platform.size .pix →
    (s.lat.bit = 0 → s.payAddr s.lat.k.toNat < s.platform.size .pay) →
    ∃ t, engineStep s = .next t ∧
      (∃ p : Byte, p = (if s.lat.bit = 0 then s.readByte .pay (s.payAddr s.lat.k.toNat) else s.lat.pbyte) ∧
        t.readByte .pix s.cursorAddr =
          (s.readByte .pix s.cursorAddr &&& 0xFE) ||| ((p >>> s.lat.bit.toNat) &&& 1) ∧
        (s.advance.lat.k ≠ s.lat.n → t.phase = .run ∧ t.lat = { s.advance.lat with pbyte := p } ∧ t.regs = s.regs)) ∧
      (∀ a, a ≠ s.cursorAddr → t.readByte .pix a = s.readByte .pix a) ∧
      (∀ a, t.readByte .pay a = s.readByte .pay a) ∧
      (s.advance.lat.k = s.lat.n → t.phase = .idle ∧
        t.regs = { s.regs with err := 0, result := s.lat.n, done := true }) ∧
      s.SameSurroundings t

/-- 42_encode.md R111: a processed slot keeps its seven higher bits, and its bit 0 becomes the payload bit. -/
def Obligations.EncodeKeepsHigherBits : Prop :=
  ∀ s t : State, s.phase = .run → s.lat.op = .encode → engineStep s = .next t →
    (∀ j, 1 ≤ j → j < 8 → (t.readByte .pix s.cursorAddr).getLsbD j = (s.readByte .pix s.cursorAddr).getLsbD j) ∧
    (t.readByte .pix s.cursorAddr).getLsbD 0 =
      (if s.lat.bit = 0 then s.readByte .pay (s.payAddr s.lat.k.toNat) else s.lat.pbyte).getLsbD s.lat.bit.toNat

/-- 42_encode.md R108: an ENCODE that fails, for its buffer first and its length second, completes in CHECK
and leaves both memories byte for byte unchanged. -/
def Obligations.EncodeFailsFast : Prop :=
  ∀ s : State, s.AboutToSend .encode → s.invalidBuffer = true ∨ s.cap < s.L →
    ∃ t, Host.Core.run core 2 s = .next t ∧ t.phase = .idle ∧ s.SameMemory t ∧
      t.regs = { s.regs with
        done := true, trunc := false, ign := false, result := 0
        err := if s.invalidBuffer = true then 1 else 2 }

/-- 42_encode.md R112, with R113 and R115: from the sent command word to completion.
The machine sends ENCODE, and after acceptance, CHECK and 8N RUN steps it is idle;
every slot of the range holds its payload bit over its old higher bits, every other byte of PIXMEM and all of PAYMEM
are as they were, and STATUS and RESULT report success. -/
def Obligations.EncodeWritesExactlyThePayloadBits : Prop :=
  ∀ s : State, s.AboutToSend .encode → s.Acceptable s.L →
    ∃ t, Host.Core.run core (2 + 8 * s.L) s = .next t ∧ t.phase = .idle ∧
      (∀ i, i < 8 * s.L → t.readByte .pix (s.slotAddr i) =
        (s.readByte .pix (s.slotAddr i) &&& 0xFE) |||
          ((s.readByte .pay (s.payAddr (i / 8)) >>> (i % 8)) &&& 1)) ∧
      (∀ a, (∀ i, i < 8 * s.L → a ≠ s.slotAddr i) → t.readByte .pix a = s.readByte .pix a) ∧
      (∀ a, t.readByte .pay a = s.readByte .pay a) ∧
      t.regs = { s.regs with done := true, trunc := false, ign := false, err := 0, result := s.regs.length } ∧
      t.readOffset 0x04 = 0x02

/-! ## DECODE -/

/-- 43_decode.md R120 and R121: every outcome of DECODE's CHECK step; TRUNC is set exactly on a clamp. -/
def Obligations.DecodeCheckStep : Prop :=
  ∀ s : State, s.phase = .check → s.lat.op = .decode →
    (s.W = 0 ∨ s.H = 0 ∨ s.C < 3 → ∃ t, engineStep s = .next t ∧ t.phase = .idle ∧
      t.regs = { s.regs with err := 1, result := 0, done := true } ∧ t.pix = s.pix ∧ t.pay = s.pay ∧ s.SameSurroundings t) ∧
    (0 < s.W → 0 < s.H → 3 ≤ s.C →
      ∀ (n : Nat) (r : Regs), n = min s.L (slotCount s.W s.H / 8) →
        r = { s.regs with trunc := s.regs.trunc || decide (slotCount s.W s.H < s.L * 8) } →
        (s.inRange n = false → engineStep s = .next { s with regs := r, mark := { s.mark with memRange := true } } ∧
          State.engineReady { s with regs := r, mark := { s.mark with memRange := true } } = false) ∧
        (n = 0 → ∃ t, engineStep s = .next t ∧ t.phase = .idle ∧
          t.regs = { r with err := 0, result := 0, done := true } ∧ t.pix = s.pix ∧ t.pay = s.pay ∧ s.SameSurroundings t) ∧
        (n ≠ 0 → s.inRange n = true → engineStep s = .next { s with
          regs := r
          phase := .run
          lat := { s.lat with n := BitVec.ofNat 32 n, row := 0, col := 0, chan := 0, bit := 0, k := 0 } }))

/-- 43_decode.md R122: DECODE's RUN step.
Where the slot and, at bit 7, the output byte exist, it answers a next state: the slot's LSB is OR-ed into its bit position,
at bit 7 the assembled byte is written, no other byte of either memory changes, the cursor advances,
and the command completes exactly when every byte is done. -/
def Obligations.DecodeRunStep : Prop :=
  ∀ s : State, s.phase = .run → s.lat.op = .decode →
    s.cursorAddr < s.platform.size .pix →
    (s.lat.bit = 7 → s.payAddr s.lat.k.toNat < s.platform.size .pay) →
    ∃ t, engineStep s = .next t ∧
      (∃ acc : Byte, acc = ((if s.lat.bit = 0 then 0 else s.lat.acc) |||
          ((s.readByte .pix s.cursorAddr &&& 1) <<< s.lat.bit.toNat)) ∧
        (s.lat.bit = 7 → t.readByte .pay (s.payAddr s.lat.k.toNat) = acc) ∧
        (s.advance.lat.k ≠ s.lat.n → t.phase = .run ∧ t.lat = { s.advance.lat with acc := acc } ∧ t.regs = s.regs)) ∧
      (∀ a, (s.lat.bit = 7 → a ≠ s.payAddr s.lat.k.toNat) → t.readByte .pay a = s.readByte .pay a) ∧
      (∀ a, t.readByte .pix a = s.readByte .pix a) ∧
      (s.advance.lat.k = s.lat.n → t.phase = .idle ∧
        t.regs = { s.regs with err := 0, result := s.lat.n, done := true }) ∧
      s.SameSurroundings t

/-- 43_decode.md R124 and, for the other command, 42_encode.md R114's first sentence:
no engine step of a DECODE writes PIXMEM, and none of an ENCODE writes PAYMEM. -/
def Obligations.EachCommandLeavesTheOtherMemory : Prop :=
  ∀ s t : State, engineStep s = .next t →
    (s.lat.op = .decode → t.pix = s.pix) ∧ (s.lat.op = .encode → t.pay = s.pay)

/-- 43_decode.md R123, with R121, R124, R125 and R128: from the sent command word to completion.
After acceptance, CHECK and 8N RUN steps, N = min(L, capacity), output byte k is the sum of the LSBs of its eight slots,
each at its bit position; no other byte of PAYMEM and no byte of PIXMEM changes; TRUNC says whether the length was clamped. -/
def Obligations.DecodeRebuildsTheBytes : Prop :=
  ∀ (s : State) (n : Nat), s.AboutToSend .decode → n = min s.L s.cap → s.Acceptable n →
    ∃ t, Host.Core.run core (2 + 8 * n) s = .next t ∧ t.phase = .idle ∧
      (∀ k, k < n → (t.readByte .pay (s.payAddr k)).toNat =
        ∑ b ∈ Finset.range 8, (s.readByte .pix (s.slotAddr (8 * k + b))).toNat % 2 * 2 ^ b) ∧
      (∀ a, (∀ k, k < n → a ≠ s.payAddr k) → t.readByte .pay a = s.readByte .pay a) ∧
      (∀ a, t.readByte .pix a = s.readByte .pix a) ∧
      t.regs = { s.regs with
        done := true, ign := false, err := 0, result := BitVec.ofNat 32 n, trunc := decide (s.cap < s.L) } ∧
      t.readOffset 0x04 = if s.cap < s.L then 0x06 else 0x02

/-- 43_decode.md R127: the round trip.
After an ENCODE of M bytes, a DECODE with the same W, H, C and PIX_BASE, and PIXMEM not written in between, of any length at
least M writes the payload's M bytes back; every further byte is built from slots the ENCODE did not touch. -/
def Obligations.DecodeAfterEncodeGivesThePayload : Prop :=
  ∀ (s t u : State) (n : Nat), s.AboutToSend .encode → s.Acceptable s.L →
    Host.Core.run core (2 + 8 * s.L) s = .next t →
    u.AboutToSend .decode → u.platform = s.platform → u.W = s.W → u.H = s.H → u.C = s.C → u.pixBase = s.pixBase →
    u.pix = t.pix → s.L ≤ u.L → n = min u.L u.cap → u.Acceptable n →
    ∃ v, Host.Core.run core (2 + 8 * n) u = .next v ∧
      (∀ k, k < s.L → v.readByte .pay (u.payAddr k) = s.readByte .pay (s.payAddr k)) ∧
      ∀ k, s.L ≤ k → k < n → (v.readByte .pay (u.payAddr k)).toNat =
        ∑ b ∈ Finset.range 8, (s.readByte .pix (s.slotAddr (8 * k + b))).toNat % 2 * 2 ^ b

/-! ## Reset while busy, progress -/

/-- 70_reset_and_hazards.md R155: a RESET after r RUN steps, r ≤ 8N - 1.
An ENCODE has then processed exactly the slots below r; STATUS reads 0. -/
def Obligations.ResetLeavesAPrefixOfEncode : Prop :=
  ∀ (s : State) (r : Nat), s.phase = .idle → s.mark = { memRange := false, hostRace := false } →
    s.host.pending = [.send (encode .encode), .reset] →
    s.sched = List.replicate (1 + r) .engine ++ [.host] →
    s.Acceptable s.L → r < 8 * s.L →
    ∃ t, Host.Core.run core (3 + r) s = .next t ∧ t.phase = .idle ∧ t.readOffset 0x04 = 0 ∧
      (∀ i, i < r → t.readByte .pix (s.slotAddr i) =
        (s.readByte .pix (s.slotAddr i) &&& 0xFE) |||
          ((s.readByte .pay (s.payAddr (i / 8)) >>> (i % 8)) &&& 1)) ∧
      (∀ a, (∀ i, i < r → a ≠ s.slotAddr i) → t.readByte .pix a = s.readByte .pix a) ∧
      ∀ a, t.readByte .pay a = s.readByte .pay a

/-- 70_reset_and_hazards.md R155 for DECODE: a RESET after r RUN steps leaves exactly the output bytes below r / 8 written. -/
def Obligations.ResetLeavesAPrefixOfDecode : Prop :=
  ∀ (s : State) (r n : Nat), s.phase = .idle → s.mark = { memRange := false, hostRace := false } →
    s.host.pending = [.send (encode .decode), .reset] →
    s.sched = List.replicate (1 + r) .engine ++ [.host] →
    n = min s.L s.cap → s.Acceptable n → r < 8 * n →
    ∃ t, Host.Core.run core (3 + r) s = .next t ∧ t.phase = .idle ∧ t.readOffset 0x04 = 0 ∧
      (∀ k, k < r / 8 → (t.readByte .pay (s.payAddr k)).toNat =
        ∑ b ∈ Finset.range 8, (s.readByte .pix (s.slotAddr (8 * k + b))).toNat % 2 * 2 ^ b) ∧
      (∀ a, (∀ k, k < r / 8 → a ≠ s.payAddr k) → t.readByte .pay a = s.readByte .pay a) ∧
      ∀ a, t.readByte .pix a = s.readByte .pix a

/-- 70_reset_and_hazards.md R167: an accepted command of N bytes is busy through its CHECK step and its first 8N - 1 RUN steps,
and idle after exactly 1 + 8N engine steps. -/
def Obligations.CommandTakesExactlyItsSteps : Prop :=
  ∀ (s : State) (op : Op) (n : Nat), n = (match op with | .encode => s.L | .decode => min s.L s.cap) → s.Acceptable n →
    (∀ j, j < 1 + 8 * n → ∃ t, engineSteps j (s.accept op) = .next t ∧ t.phase ≠ .idle) ∧
    ∃ t, engineSteps (1 + 8 * n) (s.accept op) = .next t ∧ t.phase = .idle

/-- 70_reset_and_hazards.md R168: from every good busy state with no MemRange recorded,
finitely many engine steps, none of which stops, end the command or record MemRange; the bound is 1 + 8·capacity. -/
def Obligations.EveryCommandCompletes : Prop :=
  ∀ s : State, s.Inv → s.phase ≠ .idle → s.mark.memRange = false →
    ∃ j t, j ≤ 1 + 8 * s.cap ∧ engineSteps j s = .next t ∧ (t.phase = .idle ∨ t.mark.memRange = true)

/-! ## The whole machine -/

/-- The invariant holds right after reset (10_state.md R36, R37, 70_reset_and_hazards.md R153). -/
def Obligations.InvariantAtReset : Prop := State.reset.Inv

/-- Every step keeps the invariant: canonical memories inside their sizes, legal flags (10_state.md R23, R31, 60_exceptions.md R143),
BUSY = 0 not yet read while busy (70_reset_and_hazards.md R159),
and in RUN a cursor that names the slot 8k + bit of a validated, in-range command (10_state.md R37). -/
def Obligations.StepKeepsTheInvariant : Prop :=
  ∀ s t : State, s.Inv → step s = .next t → t.Inv

/-- 42_encode.md R110, 43_decode.md R122: a RUN step cannot fail, since CHECK established the range.
From every good state with no MemRange recorded the engine's step answers a good next state. -/
def Obligations.EngineNeverStops : Prop :=
  ∀ s : State, s.Inv → s.mark.memRange = false → ∃ t, engineStep s = .next t ∧ t.Inv

/-- 10_state.md R41: while busy no step but a RESET changes a configuration register, so the engine reads the values of
acceptance; no engine step changes one, so they keep their values across commands. -/
def Obligations.ConfigurationIsFixedWhileBusy : Prop :=
  (∀ s t : State, step s = .next t → s.phase ≠ .idle → (∀ rest, s.host.pending ≠ .reset :: rest) →
    s.regs.SameConfig t.regs) ∧
  ∀ s t : State, engineStep s = .next t → s.regs.SameConfig t.regs

/-- 10_state.md R34, R31 and 40_host_interface.md R86: who may set a flag, an error code or RESULT, of all steps.
DONE and a new error code come only from an engine step that ends the running command, or from the host's write of an
illegal word to CMD while idle; a new non-zero RESULT only from the last RUN step, which reports its byte count;
TRUNC only from the engine's CHECK step of a DECODE that clamps; IGN only from a register write that the busy block drops. -/
def Obligations.FlagsAreSetOnlyByTheirWriters : Prop :=
  ∀ s t : State, step s = .next t →
    (s.regs.done = false → t.regs.done = true → s.EngineCompletes t ∨ s.HostSendsIllegal t) ∧
    (t.regs.err ≠ 0 → t.regs.err ≠ s.regs.err → t.regs.done = true ∧ (s.EngineCompletes t ∨ s.HostSendsIllegal t)) ∧
    (t.regs.result ≠ 0 → t.regs.result ≠ s.regs.result →
      s.EngineCompletes t ∧ s.phase = .run ∧ t.regs.result = s.lat.n ∧ t.regs.done = true ∧ t.regs.err = 0) ∧
    (s.regs.trunc = false → t.regs.trunc = true →
      engineStep s.spendChoice = .next t ∧ s.phase = .check ∧ s.lat.op = .decode ∧ s.cap < s.L) ∧
    (s.regs.ign = false → t.regs.ign = true → s.phase ≠ .idle ∧
      ∃ (offset : BitVec 8) (data : Word) (rest : List HostOp), s.HostWrites offset data rest ∧
        offset ∈ [0x00, 0x08, 0x0C, 0x10, 0x14, 0x18, 0x1C] ∧ t = (s.afterTaking rest).setIgn)

/-- Who may write memory, of all steps (20_memory.md R49, R56, 40_host_interface.md R88).
PIXMEM changes only when the engine takes a RUN step of an ENCODE, and then at the slot the cursor names alone,
or when the host writes a byte of it, with the engine idle and no BUSY = 0 left to see (70_reset_and_hazards.md R159),
and then at that address alone.
PAYMEM changes only when the engine takes the bit 7 RUN step of a DECODE, and then at its output byte alone,
or when the host writes a byte of it in the same way. -/
def Obligations.MemoryIsWrittenOnlyByItsWriters : Prop :=
  ∀ s t : State, step s = .next t →
    (t.pix ≠ s.pix →
      (engineStep s.spendChoice = .next t ∧ s.phase = .run ∧ s.lat.op = .encode ∧
        ∀ b, b ≠ s.cursorAddr → t.readByte .pix b = s.readByte .pix b) ∨
      (s.phase = .idle ∧ s.unpolled = false ∧ ∃ a v rest, s.host.pending = .writeMem .pix a v :: rest ∧ t.readByte .pix a = v ∧
        ∀ b, b ≠ a → t.readByte .pix b = s.readByte .pix b)) ∧
    (t.pay ≠ s.pay →
      (engineStep s.spendChoice = .next t ∧ s.phase = .run ∧ s.lat.op = .decode ∧ s.lat.bit = 7 ∧
        ∀ b, b ≠ s.payAddr s.lat.k.toNat → t.readByte .pay b = s.readByte .pay b) ∨
      (s.phase = .idle ∧ s.unpolled = false ∧ ∃ a v rest, s.host.pending = .writeMem .pay a v :: rest ∧ t.readByte .pay a = v ∧
        ∀ b, b ≠ a → t.readByte .pay b = s.readByte .pay b))

/-- 10_state.md R40: the fault mark starts empty, and no step, a reset's included, takes a reason out of it. -/
def Obligations.FaultMarkIsNeverCleared : Prop :=
  State.reset.mark = { memRange := false, hostRace := false } ∧
  ∀ s t : State, step s = .next t →
    (s.mark.memRange = true → t.mark.memRange = true) ∧ (s.mark.hostRace = true → t.mark.hostRace = true)

/-- 60_exceptions.md R141: an agent that raised a model fault has no further step;
when neither can move, the machine stops with the fault, and it never stops so with an empty mark. -/
def Obligations.FaultedAgentHasNoFurtherStep : Prop :=
  ∀ s : State,
    (s.mark.memRange = true → s.mover ≠ some .engine) ∧ (s.mark.hostRace = true → s.mover ≠ some .host) ∧
    (s.mover = none → s.mark.memRange = true → step s = .fault .memRange) ∧
    (s.mover = none → s.mark.memRange = false → s.mark.hostRace = true → step s = .fault .hostRace) ∧
    (s.mark = { memRange := false, hostRace := false } → s.mover = none → step s = .next s)

/-- 10_state.md R38, R42, 41_sequencer.md R105: the engine latches that a later step writes before it reads cannot be seen.
Two states that agree but for them make the same step, and the states after it agree but for them. -/
def Obligations.DeadLatchesCannotBeSeen : Prop :=
  ∀ s t : State, s.live = t.live → outcomeMap State.live (step s) = outcomeMap State.live (step t)

/-- 41_sequencer.md R104: the order and number of accesses do not depend on what the memories hold.
Two states that agree but for memory contents and the data latches make engine steps that agree but for them. -/
def Obligations.AccessOrderDoesNotDependOnData : Prop :=
  ∀ s t : State, s.control = t.control →
    outcomeMap State.control (engineStep s) = outcomeMap State.control (engineStep t)

/-- A step runs the decoded instruction: when the host moves and its oldest action sends bytes that decode to `i`,
the step is exec of `i` at the state with that action, and the choice of who moves, taken off. -/
def Obligations.StepRunsTheDecodedInstruction : Prop :=
  ∀ (s : State) (bytes : List Byte) (rest : List HostOp) (i : Instr),
    s.host.pending = .send bytes :: rest → decode bytes = .ok i → s.mover = some .host →
    step s = exec i { s.spendChoice with host := { s.host with pending := rest } }

/-- A placed instruction runs next: from every state whose host has not raced,
the step after placing an opcode-table word that decodes to `i` is exec of `i` at that state. -/
def Obligations.PlacedInstructionRunsNext : Prop :=
  ∀ (s : State) (nbits w : Nat) (i : Instr), s.mark.hostRace = false → decodeTableWord nbits w = some i →
    step (s.withFetchWord nbits w) = exec i s

/-- 00_scope.md R12, 70_reset_and_hazards.md R170: the interleaving is free.
When both agents can move, either choice of `sched` is taken; when one can, it moves. -/
def Obligations.AnyInterleavingIsPossible : Prop :=
  ∀ s : State,
    (∀ a rest, s.hostReady = true → s.engineReady = true → s.sched = a :: rest →
      step s = turnOf a { s with sched := rest }) ∧
    (s.hostReady = false → s.engineReady = true → step s = engineStep s) ∧
    (s.hostReady = true → s.engineReady = false → step s = hostTurn s)

/-- 40_host_interface.md R90, 60_exceptions.md R152: a run that has ended stays as it is. -/
def Obligations.FinalStateStays : Prop :=
  ∀ s : State, s.Final → step s = .next s

/-! ## Encoding -/

/-- Decoding an encoded well-formed instruction gives it back, with every operand at every value (30_encoding.md R65 to R72). -/
def Obligations.DecodeOfEncodeIsTheInstruction : Prop :=
  ∀ i : Instr, i.wf = true → decode (encode i) = .ok i

/-- Every byte string that decodes is the encoding of what it decodes to, which is well formed: no two strings mean one
instruction and no bit is ignored (30_encoding.md R66, R70, R72). -/
def Obligations.EncodeOfDecodeIsTheBytes : Prop :=
  ∀ (bytes : List Byte) (i : Instr), decode bytes = .ok i → encode i = bytes ∧ i.wf = true

/-- 30_encoding.md R72: a record with W = 0 and DATA ≠ 0 is refused by name. -/
def Obligations.ReadRecordWithDataIsRefused : Prop :=
  ∀ (offset : BitVec 8) (data : Word) (rest : List HostOp) (s : State), data ≠ 0 →
    s.host.pending = .send (recordBytes (record false offset data)) :: rest → s.mover = some .host →
    step s = .refused (.malformed .readWithData)

/-- Words written out from the spec's encodings decode to their instructions (30_encoding.md R67 to R72). -/
def Obligations.SpecWordsDecode : Prop :=
  decode [0x01, 0x00, 0x00, 0x00] = .ok .encode ∧
  decode [0x02, 0x00, 0x00, 0x00] = .ok .decode ∧
  decode [0x03, 0x00, 0x00, 0x00] = .ok (.illegalCmd 3) ∧
  decode [0x02, 0x00, 0x00, 0x00, 0x08, 0x01] = .ok (.regWr 0x08 2) ∧
  decode [0x00, 0x00, 0x00, 0x00, 0x24, 0x00] = .ok (.regRd 0x24)

/-! ## Beside the statements above -/

/-- 10_state.md R34, R31, R42: who may clear a flag, an error code or RESULT, of all steps from a good state.
Only a RESET, or the acceptance of a word the host writes to CMD while idle. -/
def Obligations.FlagsAreClearedOnlyByAcceptanceOrReset : Prop :=
  ∀ s t : State, s.Inv → step s = .next t →
    (s.regs.done = true ∧ t.regs.done = false) ∨ (s.regs.trunc = true ∧ t.regs.trunc = false) ∨
      (s.regs.ign = true ∧ t.regs.ign = false) ∨ (s.regs.err ≠ 0 ∧ t.regs.err ≠ s.regs.err) ∨
      (s.regs.result ≠ 0 ∧ t.regs.result ≠ s.regs.result) →
    (∃ rest, s.host.pending = .reset :: rest ∧ t = (s.afterTaking rest).doReset) ∨
      (s.phase = .idle ∧ ∃ w rest, s.HostWrites 0x00 w rest ∧ t = (s.afterTaking rest).acceptWord w)

/-- 60_exceptions.md R141: after a recorded HostRace the host has no further step, however long the machine runs:
the mark stays, the host never moves, and what it had to do and what it got back stay as they are. -/
def Obligations.RacedHostNeverMovesAgain : Prop :=
  ∀ (k : Nat) (s t : State), s.mark.hostRace = true → Host.Core.run core k s = .next t →
    t.mark.hostRace = true ∧ t.mover ≠ some .host ∧ t.host = s.host

/-- 70_reset_and_hazards.md R155: a RESET after the acceptance of a command and before its CHECK step
leaves every byte of both memories, and STATUS reads 0. -/
def Obligations.ResetBeforeCheckLeavesTheMemories : Prop :=
  ∀ (s : State) (i : Instr), i ∈ [.encode, .decode] → s.phase = .idle →
    s.mark = { memRange := false, hostRace := false } →
    s.host.pending = [.send (encode i), .reset] → s.sched = [.host] →
    ∃ t, Host.Core.run core 2 s = .next t ∧ t.phase = .idle ∧ t.readOffset 0x04 = 0 ∧ s.SameMemory t

/-- 70_reset_and_hazards.md R159, 20_memory.md R60: the stretch in which the host must not access the memories, of all steps.
It begins only with the acceptance of a command the host writes to CMD while idle;
that an illegal word does not begin R159's stretch is the model's choice (log 23, DEDUCED, unsafe there).
It ends only with a read of STATUS that returns BUSY = 0: completion does not end it, and a RESET does not (log 23).
Until then a host access to either memory records HostRace; that it changes no byte is the model's choice (log 10). -/
def Obligations.AccessIsForbiddenUntilBusyZeroIsRead : Prop :=
  ∀ s t : State, step s = .next t →
    (s.unpolled = false → t.unpolled = true → s.phase = .idle ∧
      ∃ op rest, s.HostWrites 0x00 (if op = .encode then 0x00000001 else 0x00000002) rest ∧
        t = (s.afterTaking rest).accept op) ∧
    (s.unpolled = true → t.unpolled = false →
      s.phase = .idle ∧ ∃ op rest, s.host.pending = op :: rest ∧ s.readsStatus op = true ∧
        t.host.pending = rest ∧ t.regs = s.regs ∧ t.phase = s.phase ∧ t.mark = s.mark ∧ s.SameMemory t ∧
        ∃ r, t.host.replies = r :: s.host.replies) ∧
    (s.unpolled = true → s.mover = some .host →
      ∀ sp a rest, (s.host.pending = .readMem sp a :: rest ∨ ∃ v, s.host.pending = .writeMem sp a v :: rest) →
        t.mark.hostRace = true ∧ t.unpolled = true ∧ s.SameMemory t)
end

