-- ==== Sys2Proof/Laws/Encoding.lean ====
section
/-! SUPPORT. Bytes and numbers, and the fields of a BUS record: what encoding puts in, decoding takes out. -/

namespace Sys2Proof

theorem leBytes_length (n w : Nat) : (leBytes n w).length = n := by
  induction n generalizing w with
  | zero => rfl
  | succ n ih => simp [leBytes, ih]

theorem leNat_leBytes (n w : Nat) : leNat (leBytes n w) = w % 256 ^ n := by
  induction n generalizing w with
  | zero => simp [leBytes, leNat, Nat.mod_one]
  | succ n ih =>
    have h := Nat.mod_mul (x := w) (a := 256) (b := 256 ^ n)
    rw [Nat.pow_succ', h]
    simp only [leBytes, leNat, ih, BitVec.toNat_ofNat]

theorem leNat_lt (bs : List Byte) : leNat bs < 256 ^ bs.length := by
  induction bs with
  | nil => simp [leNat]
  | cons b r ih =>
    have hb := b.isLt
    simp only [leNat, List.length_cons, Nat.pow_succ]
    omega

theorem leBytes_leNat (bs : List Byte) : leBytes bs.length (leNat bs) = bs := by
  induction bs with
  | nil => rfl
  | cons b r ih =>
    simp only [leNat, List.length_cons, leBytes]
    have hb := b.isLt
    have h1 : (b.toNat + 256 * leNat r) / 256 = leNat r := by omega
    have h2 : BitVec.ofNat 8 (b.toNat + 256 * leNat r) = b := by
      apply BitVec.eq_of_toNat_eq
      rw [BitVec.toNat_ofNat]
      omega
    rw [h1, h2, ih]

/-- The number of a CMD word's bytes is the word. -/
theorem leNat_commandBytes (w : Word) : leNat (commandBytes w) = w.toNat := by
  unfold commandBytes
  rw [leNat_leBytes, Nat.mod_eq_of_lt (by have := w.isLt; omega)]

/-- The number of a record's bytes is the record. -/
theorem leNat_recordBytes (r : BitVec 41) : leNat (recordBytes r) = r.toNat := by
  unfold recordBytes
  rw [leNat_leBytes, Nat.mod_eq_of_lt (by have := r.isLt; omega)]

/-- Four bytes decode as the CMD word they hold. -/
theorem decode_commandBytes (w : Word) : decode (commandBytes w) = .ok (decodeCommand w) := by
  have hl : (commandBytes w).length = 4 := leBytes_length _ _
  unfold decode
  rw [if_pos hl, leNat_commandBytes]
  simp

/-- Six bytes decode as the record they hold. -/
theorem decode_recordBytes (r : BitVec 41) : decode (recordBytes r) = decodeRecord r := by
  have hl : (recordBytes r).length = 6 := leBytes_length _ _
  unfold decode
  rw [if_neg (by omega), if_pos hl, leNat_recordBytes, if_pos r.isLt]
  simp

@[simp] theorem recordIsWrite_record (b : Bool) (o : BitVec 8) (d : Word) : recordIsWrite (record b o d) = b := by
  unfold recordIsWrite record
  rw [BitVec.getLsbD_append, BitVec.getLsbD_append]
  cases b <;> simp

@[simp] theorem recordOffset_record (b : Bool) (o : BitVec 8) (d : Word) : recordOffset (record b o d) = o := by
  apply BitVec.eq_of_getLsbD_eq
  intro i hi
  unfold recordOffset record
  rw [BitVec.getLsbD_extractLsb', BitVec.getLsbD_append, BitVec.getLsbD_append]
  simp [hi]

@[simp] theorem recordData_record (b : Bool) (o : BitVec 8) (d : Word) : recordData (record b o d) = d := by
  apply BitVec.eq_of_getLsbD_eq
  intro i hi
  unfold recordData record
  rw [BitVec.getLsbD_extractLsb', BitVec.getLsbD_append, BitVec.getLsbD_append]
  simp [hi]

/-- A record is its three fields: no bit is left over. -/
theorem record_fields (r : BitVec 41) : record (recordIsWrite r) (recordOffset r) (recordData r) = r := by
  apply BitVec.eq_of_getLsbD_eq
  intro i hi
  unfold record recordIsWrite recordOffset recordData
  rw [BitVec.getLsbD_append, BitVec.getLsbD_append, BitVec.getLsbD_extractLsb', BitVec.getLsbD_extractLsb']
  by_cases h1 : i < 32
  · simp [h1]
  · by_cases h2 : i < 40
    · simp [h1, show i - 32 < 8 by omega, show 32 + (i - 32) = i by omega]
    · have h3 : i = 40 := by omega
      subst h3
      simp

end Sys2Proof
end

