-- ==== Sys2Proof/Laws/State.lean ====
section
/-! SUPPORT. One lemma per field per update of State, so that no later proof unfolds an update. -/

namespace Sys2Proof.Machine

@[simp] theorem setIgn_regs (s : State) : s.setIgn.regs = { s.regs with ign := true } := rfl
@[simp] theorem setIgn_phase (s : State) : s.setIgn.phase = s.phase := rfl
@[simp] theorem setIgn_lat (s : State) : s.setIgn.lat = s.lat := rfl
@[simp] theorem setIgn_pix (s : State) : s.setIgn.pix = s.pix := rfl
@[simp] theorem setIgn_pay (s : State) : s.setIgn.pay = s.pay := rfl
@[simp] theorem setIgn_mark (s : State) : s.setIgn.mark = s.mark := rfl
@[simp] theorem setIgn_platform (s : State) : s.setIgn.platform = s.platform := rfl
@[simp] theorem setIgn_host (s : State) : s.setIgn.host = s.host := rfl
@[simp] theorem setIgn_sched (s : State) : s.setIgn.sched = s.sched := rfl
@[simp] theorem setIgn_unpolled (s : State) : s.setIgn.unpolled = s.unpolled := rfl
@[simp] theorem setIgn_draws (s : State) : s.setIgn.draws = s.draws := rfl

@[simp] theorem setTrunc_regs (s : State) : s.setTrunc.regs = { s.regs with trunc := true } := rfl
@[simp] theorem setTrunc_phase (s : State) : s.setTrunc.phase = s.phase := rfl
@[simp] theorem setTrunc_lat (s : State) : s.setTrunc.lat = s.lat := rfl
@[simp] theorem setTrunc_pix (s : State) : s.setTrunc.pix = s.pix := rfl
@[simp] theorem setTrunc_pay (s : State) : s.setTrunc.pay = s.pay := rfl
@[simp] theorem setTrunc_mark (s : State) : s.setTrunc.mark = s.mark := rfl
@[simp] theorem setTrunc_platform (s : State) : s.setTrunc.platform = s.platform := rfl
@[simp] theorem setTrunc_host (s : State) : s.setTrunc.host = s.host := rfl
@[simp] theorem setTrunc_sched (s : State) : s.setTrunc.sched = s.sched := rfl
@[simp] theorem setTrunc_unpolled (s : State) : s.setTrunc.unpolled = s.unpolled := rfl
@[simp] theorem setTrunc_draws (s : State) : s.setTrunc.draws = s.draws := rfl

@[simp] theorem complete_regs (s : State) (e : ErrCode) (r : Word) : (s.complete e r).regs = s.regs.completed e r := rfl
@[simp] theorem complete_phase (s : State) (e : ErrCode) (r : Word) : (s.complete e r).phase = .idle := rfl
@[simp] theorem complete_lat (s : State) (e : ErrCode) (r : Word) : (s.complete e r).lat = Config.freeLatches s.draws := rfl
@[simp] theorem complete_pix (s : State) (e : ErrCode) (r : Word) : (s.complete e r).pix = s.pix := rfl
@[simp] theorem complete_pay (s : State) (e : ErrCode) (r : Word) : (s.complete e r).pay = s.pay := rfl
@[simp] theorem complete_mark (s : State) (e : ErrCode) (r : Word) : (s.complete e r).mark = s.mark := rfl
@[simp] theorem complete_platform (s : State) (e : ErrCode) (r : Word) : (s.complete e r).platform = s.platform := rfl
@[simp] theorem complete_host (s : State) (e : ErrCode) (r : Word) : (s.complete e r).host = s.host := rfl
@[simp] theorem complete_sched (s : State) (e : ErrCode) (r : Word) : (s.complete e r).sched = s.sched := rfl
@[simp] theorem complete_unpolled (s : State) (e : ErrCode) (r : Word) : (s.complete e r).unpolled = s.unpolled := rfl
@[simp] theorem complete_draws (s : State) (e : ErrCode) (r : Word) : (s.complete e r).draws = s.draws + 1 := rfl

@[simp] theorem accept_regs (s : State) (op : Op) : (s.accept op).regs = s.regs.cleared := rfl
@[simp] theorem accept_phase (s : State) (op : Op) : (s.accept op).phase = .check := rfl
@[simp] theorem accept_lat (s : State) (op : Op) : (s.accept op).lat = { s.lat with op := op } := rfl
@[simp] theorem accept_pix (s : State) (op : Op) : (s.accept op).pix = s.pix := rfl
@[simp] theorem accept_pay (s : State) (op : Op) : (s.accept op).pay = s.pay := rfl
@[simp] theorem accept_mark (s : State) (op : Op) : (s.accept op).mark = s.mark := rfl
@[simp] theorem accept_platform (s : State) (op : Op) : (s.accept op).platform = s.platform := rfl
@[simp] theorem accept_host (s : State) (op : Op) : (s.accept op).host = s.host := rfl
@[simp] theorem accept_sched (s : State) (op : Op) : (s.accept op).sched = s.sched := rfl
@[simp] theorem accept_unpolled (s : State) (op : Op) : (s.accept op).unpolled = true := rfl
@[simp] theorem accept_draws (s : State) (op : Op) : (s.accept op).draws = s.draws := rfl

@[simp] theorem acceptIllegal_regs (s : State) : s.acceptIllegal.regs = s.regs.cleared.completed .illegalCommand 0 := rfl
@[simp] theorem acceptIllegal_phase (s : State) : s.acceptIllegal.phase = .idle := rfl
@[simp] theorem acceptIllegal_lat (s : State) : s.acceptIllegal.lat = Config.freeLatches s.draws := rfl
@[simp] theorem acceptIllegal_pix (s : State) : s.acceptIllegal.pix = s.pix := rfl
@[simp] theorem acceptIllegal_pay (s : State) : s.acceptIllegal.pay = s.pay := rfl
@[simp] theorem acceptIllegal_mark (s : State) : s.acceptIllegal.mark = s.mark := rfl
@[simp] theorem acceptIllegal_platform (s : State) : s.acceptIllegal.platform = s.platform := rfl
@[simp] theorem acceptIllegal_host (s : State) : s.acceptIllegal.host = s.host := rfl
@[simp] theorem acceptIllegal_sched (s : State) : s.acceptIllegal.sched = s.sched := rfl
@[simp] theorem acceptIllegal_unpolled (s : State) : s.acceptIllegal.unpolled = s.unpolled := rfl
@[simp] theorem acceptIllegal_draws (s : State) : s.acceptIllegal.draws = s.draws + 1 := rfl

@[simp] theorem reply_regs (s : State) (r : Reply) : (s.reply r).regs = s.regs := rfl
@[simp] theorem reply_phase (s : State) (r : Reply) : (s.reply r).phase = s.phase := rfl
@[simp] theorem reply_lat (s : State) (r : Reply) : (s.reply r).lat = s.lat := rfl
@[simp] theorem reply_pix (s : State) (r : Reply) : (s.reply r).pix = s.pix := rfl
@[simp] theorem reply_pay (s : State) (r : Reply) : (s.reply r).pay = s.pay := rfl
@[simp] theorem reply_mark (s : State) (r : Reply) : (s.reply r).mark = s.mark := rfl
@[simp] theorem reply_platform (s : State) (r : Reply) : (s.reply r).platform = s.platform := rfl
@[simp] theorem reply_host (s : State) (r : Reply) : (s.reply r).host = { s.host with replies := r :: s.host.replies } := rfl
@[simp] theorem reply_sched (s : State) (r : Reply) : (s.reply r).sched = s.sched := rfl
@[simp] theorem reply_unpolled (s : State) (r : Reply) : (s.reply r).unpolled = s.unpolled := rfl
@[simp] theorem reply_draws (s : State) (r : Reply) : (s.reply r).draws = s.draws := rfl

@[simp] theorem polled_regs (s : State) (o : BitVec 8) : (s.polled o).regs = s.regs := rfl
@[simp] theorem polled_phase (s : State) (o : BitVec 8) : (s.polled o).phase = s.phase := rfl
@[simp] theorem polled_lat (s : State) (o : BitVec 8) : (s.polled o).lat = s.lat := rfl
@[simp] theorem polled_pix (s : State) (o : BitVec 8) : (s.polled o).pix = s.pix := rfl
@[simp] theorem polled_pay (s : State) (o : BitVec 8) : (s.polled o).pay = s.pay := rfl
@[simp] theorem polled_mark (s : State) (o : BitVec 8) : (s.polled o).mark = s.mark := rfl
@[simp] theorem polled_platform (s : State) (o : BitVec 8) : (s.polled o).platform = s.platform := rfl
@[simp] theorem polled_host (s : State) (o : BitVec 8) : (s.polled o).host = s.host := rfl
@[simp] theorem polled_sched (s : State) (o : BitVec 8) : (s.polled o).sched = s.sched := rfl
@[simp] theorem polled_draws (s : State) (o : BitVec 8) : (s.polled o).draws = s.draws := rfl
@[simp] theorem polled_unpolled (s : State) (o : BitVec 8) :
    (s.polled o).unpolled = (s.unpolled && (o != 0x04 || s.busy)) := rfl

theorem polled_other {s : State} {o : BitVec 8} (h : o ≠ 0x04) : s.polled o = s := by
  have h' : (o != 0x04) = true := by simpa using h
  unfold State.polled
  rw [h', Bool.true_or, Bool.and_true]

/-- What a REG_RD leaves of the stretch in which the host must not access the memories (70_reset_and_hazards.md R159). -/
theorem polled_eq (s : State) (o : BitVec 8) : s.polled o = { s with unpolled := s.unpolledAfter o } := by
  unfold State.polled State.unpolledAfter State.busy
  by_cases hp : s.phase = .idle <;> simp [hp, bne, Bool.and_comm, beq_eq_decide]

/-- A REG_RD answers the register's word, whatever the offset (40_host_interface.md R85). -/
theorem regRd_returns (s : State) (o : BitVec 8) : s.Returns o (s.readOffset o) :=
  congrArg Host.Outcome.next (polled_eq (s.reply (.word (s.readOffset o))) o)

theorem mustNotAccess_eq_true {s : State} : s.mustNotAccess = true ↔ s.phase ≠ .idle ∨ s.unpolled = true := by
  simp [State.mustNotAccess, State.busy]

theorem mustNotAccess_eq_false {s : State} : s.mustNotAccess = false ↔ s.phase = .idle ∧ s.unpolled = false := by
  simp [State.mustNotAccess, State.busy]

@[simp] theorem raiseMemRange_regs (s : State) : s.raiseMemRange.regs = s.regs := rfl
@[simp] theorem raiseMemRange_phase (s : State) : s.raiseMemRange.phase = s.phase := rfl
@[simp] theorem raiseMemRange_lat (s : State) : s.raiseMemRange.lat = s.lat := rfl
@[simp] theorem raiseMemRange_pix (s : State) : s.raiseMemRange.pix = s.pix := rfl
@[simp] theorem raiseMemRange_pay (s : State) : s.raiseMemRange.pay = s.pay := rfl
@[simp] theorem raiseMemRange_mark (s : State) : s.raiseMemRange.mark = { s.mark with memRange := true } := rfl
@[simp] theorem raiseMemRange_platform (s : State) : s.raiseMemRange.platform = s.platform := rfl
@[simp] theorem raiseMemRange_host (s : State) : s.raiseMemRange.host = s.host := rfl
@[simp] theorem raiseMemRange_sched (s : State) : s.raiseMemRange.sched = s.sched := rfl
@[simp] theorem raiseMemRange_unpolled (s : State) : s.raiseMemRange.unpolled = s.unpolled := rfl
@[simp] theorem raiseMemRange_draws (s : State) : s.raiseMemRange.draws = s.draws := rfl

@[simp] theorem raiseHostRace_regs (s : State) : s.raiseHostRace.regs = s.regs := rfl
@[simp] theorem raiseHostRace_phase (s : State) : s.raiseHostRace.phase = s.phase := rfl
@[simp] theorem raiseHostRace_lat (s : State) : s.raiseHostRace.lat = s.lat := rfl
@[simp] theorem raiseHostRace_pix (s : State) : s.raiseHostRace.pix = s.pix := rfl
@[simp] theorem raiseHostRace_pay (s : State) : s.raiseHostRace.pay = s.pay := rfl
@[simp] theorem raiseHostRace_mark (s : State) : s.raiseHostRace.mark = { s.mark with hostRace := true } := rfl
@[simp] theorem raiseHostRace_platform (s : State) : s.raiseHostRace.platform = s.platform := rfl
@[simp] theorem raiseHostRace_host (s : State) : s.raiseHostRace.host = s.host := rfl
@[simp] theorem raiseHostRace_sched (s : State) : s.raiseHostRace.sched = s.sched := rfl
@[simp] theorem raiseHostRace_unpolled (s : State) : s.raiseHostRace.unpolled = s.unpolled := rfl
@[simp] theorem raiseHostRace_draws (s : State) : s.raiseHostRace.draws = s.draws := rfl

@[simp] theorem doReset_regs (s : State) : s.doReset.regs = Regs.reset := rfl
@[simp] theorem doReset_phase (s : State) : s.doReset.phase = .idle := rfl
@[simp] theorem doReset_lat (s : State) : s.doReset.lat = Config.freeLatches s.draws := rfl
@[simp] theorem doReset_pix (s : State) : s.doReset.pix = s.pix := rfl
@[simp] theorem doReset_pay (s : State) : s.doReset.pay = s.pay := rfl
@[simp] theorem doReset_mark (s : State) : s.doReset.mark = s.mark := rfl
@[simp] theorem doReset_platform (s : State) : s.doReset.platform = s.platform := rfl
@[simp] theorem doReset_host (s : State) : s.doReset.host = s.host := rfl
@[simp] theorem doReset_sched (s : State) : s.doReset.sched = s.sched := rfl
@[simp] theorem doReset_unpolled (s : State) : s.doReset.unpolled = s.unpolled := rfl
@[simp] theorem doReset_draws (s : State) : s.doReset.draws = s.draws + 1 := rfl

@[simp] theorem initCursor_regs (s : State) (n : Nat) : (s.initCursor n).regs = s.regs := rfl
@[simp] theorem initCursor_phase (s : State) (n : Nat) : (s.initCursor n).phase = s.phase := rfl
@[simp] theorem initCursor_lat (s : State) (n : Nat) : (s.initCursor n).lat = { s.lat with n := BitVec.ofNat 32 n, row := 0, col := 0, chan := 0, bit := 0, k := 0 } := rfl
@[simp] theorem initCursor_pix (s : State) (n : Nat) : (s.initCursor n).pix = s.pix := rfl
@[simp] theorem initCursor_pay (s : State) (n : Nat) : (s.initCursor n).pay = s.pay := rfl
@[simp] theorem initCursor_mark (s : State) (n : Nat) : (s.initCursor n).mark = s.mark := rfl
@[simp] theorem initCursor_platform (s : State) (n : Nat) : (s.initCursor n).platform = s.platform := rfl
@[simp] theorem initCursor_host (s : State) (n : Nat) : (s.initCursor n).host = s.host := rfl
@[simp] theorem initCursor_sched (s : State) (n : Nat) : (s.initCursor n).sched = s.sched := rfl
@[simp] theorem initCursor_unpolled (s : State) (n : Nat) : (s.initCursor n).unpolled = s.unpolled := rfl
@[simp] theorem initCursor_draws (s : State) (n : Nat) : (s.initCursor n).draws = s.draws := rfl

@[simp] theorem advance_regs (s : State) : s.advance.regs = s.regs := rfl
@[simp] theorem advance_phase (s : State) : s.advance.phase = s.phase := rfl
@[simp] theorem advance_lat (s : State) : s.advance.lat = (s.lat.advancePixel s.W).advanceBit := rfl
@[simp] theorem advance_pix (s : State) : s.advance.pix = s.pix := rfl
@[simp] theorem advance_pay (s : State) : s.advance.pay = s.pay := rfl
@[simp] theorem advance_mark (s : State) : s.advance.mark = s.mark := rfl
@[simp] theorem advance_platform (s : State) : s.advance.platform = s.platform := rfl
@[simp] theorem advance_host (s : State) : s.advance.host = s.host := rfl
@[simp] theorem advance_sched (s : State) : s.advance.sched = s.sched := rfl
@[simp] theorem advance_unpolled (s : State) : s.advance.unpolled = s.unpolled := rfl
@[simp] theorem advance_draws (s : State) : s.advance.draws = s.draws := rfl

@[simp] theorem gatherSlot_regs (s : State) (v : Byte) : (gatherSlot v s).regs = s.regs := rfl
@[simp] theorem gatherSlot_phase (s : State) (v : Byte) : (gatherSlot v s).phase = s.phase := rfl
@[simp] theorem gatherSlot_lat (s : State) (v : Byte) : (gatherSlot v s).lat = { s.lat with acc := gatherBit (if s.lat.bit = 0 then 0 else s.lat.acc) v s.lat.bit.toNat } := rfl
@[simp] theorem gatherSlot_pix (s : State) (v : Byte) : (gatherSlot v s).pix = s.pix := rfl
@[simp] theorem gatherSlot_pay (s : State) (v : Byte) : (gatherSlot v s).pay = s.pay := rfl
@[simp] theorem gatherSlot_mark (s : State) (v : Byte) : (gatherSlot v s).mark = s.mark := rfl
@[simp] theorem gatherSlot_platform (s : State) (v : Byte) : (gatherSlot v s).platform = s.platform := rfl
@[simp] theorem gatherSlot_host (s : State) (v : Byte) : (gatherSlot v s).host = s.host := rfl
@[simp] theorem gatherSlot_sched (s : State) (v : Byte) : (gatherSlot v s).sched = s.sched := rfl
@[simp] theorem gatherSlot_unpolled (s : State) (v : Byte) : (gatherSlot v s).unpolled = s.unpolled := rfl
@[simp] theorem gatherSlot_draws (s : State) (v : Byte) : (gatherSlot v s).draws = s.draws := rfl

@[simp] theorem writeByte_regs (s : State) (sp : Space) (a : Nat) (v : Byte) : (s.writeByte sp a v).regs = s.regs := by
  cases sp <;> rfl
@[simp] theorem writeByte_phase (s : State) (sp : Space) (a : Nat) (v : Byte) : (s.writeByte sp a v).phase = s.phase := by
  cases sp <;> rfl
@[simp] theorem writeByte_lat (s : State) (sp : Space) (a : Nat) (v : Byte) : (s.writeByte sp a v).lat = s.lat := by
  cases sp <;> rfl
@[simp] theorem writeByte_mark (s : State) (sp : Space) (a : Nat) (v : Byte) : (s.writeByte sp a v).mark = s.mark := by
  cases sp <;> rfl
@[simp] theorem writeByte_platform (s : State) (sp : Space) (a : Nat) (v : Byte) : (s.writeByte sp a v).platform = s.platform := by
  cases sp <;> rfl
@[simp] theorem writeByte_host (s : State) (sp : Space) (a : Nat) (v : Byte) : (s.writeByte sp a v).host = s.host := by
  cases sp <;> rfl
@[simp] theorem writeByte_sched (s : State) (sp : Space) (a : Nat) (v : Byte) : (s.writeByte sp a v).sched = s.sched := by
  cases sp <;> rfl
@[simp] theorem writeByte_unpolled (s : State) (sp : Space) (a : Nat) (v : Byte) : (s.writeByte sp a v).unpolled = s.unpolled := by
  cases sp <;> rfl
@[simp] theorem writeByte_draws (s : State) (sp : Space) (a : Nat) (v : Byte) : (s.writeByte sp a v).draws = s.draws := by
  cases sp <;> rfl
@[simp] theorem writeByte_pix_pix (s : State) (a : Nat) (v : Byte) : (s.writeByte .pix a v).pix = s.pix.insert a v := rfl
@[simp] theorem writeByte_pix_pay (s : State) (a : Nat) (v : Byte) : (s.writeByte .pix a v).pay = s.pay := rfl
@[simp] theorem writeByte_pay_pix (s : State) (a : Nat) (v : Byte) : (s.writeByte .pay a v).pix = s.pix := rfl
@[simp] theorem writeByte_pay_pay (s : State) (a : Nat) (v : Byte) : (s.writeByte .pay a v).pay = s.pay.insert a v := rfl

@[simp] theorem cleared_width (r : Regs) : r.cleared.width = r.width := rfl
@[simp] theorem cleared_height (r : Regs) : r.cleared.height = r.height := rfl
@[simp] theorem cleared_channels (r : Regs) : r.cleared.channels = r.channels := rfl
@[simp] theorem cleared_pixBase (r : Regs) : r.cleared.pixBase = r.pixBase := rfl
@[simp] theorem cleared_payBase (r : Regs) : r.cleared.payBase = r.payBase := rfl
@[simp] theorem cleared_length (r : Regs) : r.cleared.length = r.length := rfl
@[simp] theorem cleared_result (r : Regs) : r.cleared.result = 0 := rfl
@[simp] theorem cleared_done (r : Regs) : r.cleared.done = false := rfl
@[simp] theorem cleared_trunc (r : Regs) : r.cleared.trunc = false := rfl
@[simp] theorem cleared_ign (r : Regs) : r.cleared.ign = false := rfl
@[simp] theorem cleared_err (r : Regs) : r.cleared.err = 0 := rfl

@[simp] theorem completed_width (r : Regs) (e : ErrCode) (w : Word) : (r.completed e w).width = r.width := rfl
@[simp] theorem completed_height (r : Regs) (e : ErrCode) (w : Word) : (r.completed e w).height = r.height := rfl
@[simp] theorem completed_channels (r : Regs) (e : ErrCode) (w : Word) : (r.completed e w).channels = r.channels := rfl
@[simp] theorem completed_pixBase (r : Regs) (e : ErrCode) (w : Word) : (r.completed e w).pixBase = r.pixBase := rfl
@[simp] theorem completed_payBase (r : Regs) (e : ErrCode) (w : Word) : (r.completed e w).payBase = r.payBase := rfl
@[simp] theorem completed_length (r : Regs) (e : ErrCode) (w : Word) : (r.completed e w).length = r.length := rfl
@[simp] theorem completed_result (r : Regs) (e : ErrCode) (w : Word) : (r.completed e w).result = w := rfl
@[simp] theorem completed_done (r : Regs) (e : ErrCode) (w : Word) : (r.completed e w).done = true := rfl
@[simp] theorem completed_trunc (r : Regs) (e : ErrCode) (w : Word) : (r.completed e w).trunc = r.trunc := rfl
@[simp] theorem completed_ign (r : Regs) (e : ErrCode) (w : Word) : (r.completed e w).ign = r.ign := rfl
@[simp] theorem completed_err (r : Regs) (e : ErrCode) (w : Word) : (r.completed e w).err = e.code := rfl

end Sys2Proof.Machine
end

