-- ==== Sys2Proof/Laws/Memory.lean ====
section
/-! SUPPORT. The laws of the byte memories: read after write, elsewhere unchanged, and the canonical form kept. -/

namespace Sys2Proof.Machine

theorem Memory.lookup_insert_same (m : Memory) (a : Nat) (v : Byte) : (m.insert a v).lookup a = some v := by
  induction m with
  | nil => simp [Memory.insert, Memory.lookup]
  | cons c rest ih =>
    obtain ⟨k, w⟩ := c
    simp only [Memory.insert]
    split
    · simp [Memory.lookup]
    · split
      · simp [Memory.lookup]
      · rename_i _ hne
        simp [Memory.lookup, ih, Ne.symm hne]

theorem Memory.lookup_insert_other (m : Memory) (a b : Nat) (v : Byte) (h : b ≠ a) :
    (m.insert a v).lookup b = m.lookup b := by
  induction m with
  | nil => simp [Memory.insert, Memory.lookup, Ne.symm h]
  | cons c rest ih =>
    obtain ⟨k, w⟩ := c
    simp only [Memory.insert]
    split
    · simp [Memory.lookup, Ne.symm h]
    · split
      · rename_i _ heq
        subst heq
        simp [Memory.lookup, Ne.symm h]
      · simp [Memory.lookup, ih]

theorem Memory.mem_insert {m : Memory} {a : Nat} {v : Byte} {c : Host.Cell} (h : c ∈ m.insert a v) :
    c = (a, v) ∨ c ∈ m := by
  induction m with
  | nil => simpa [Memory.insert] using h
  | cons d rest ih =>
    obtain ⟨k, w⟩ := d
    simp only [Memory.insert] at h
    split at h
    · simpa using h
    · split at h
      · rcases List.mem_cons.1 h with h | h
        · exact .inl h
        · exact .inr (List.mem_cons_of_mem _ h)
      · rcases List.mem_cons.1 h with h | h
        · exact .inr (h ▸ List.mem_cons_self)
        · exact (ih h).imp id (List.mem_cons_of_mem _)

/-- A write keeps the canonical form. -/
theorem Memory.insert_wf {m : Memory} (a : Nat) (v : Byte) (h : m.wf) : (m.insert a v).wf := by
  induction m with
  | nil => simp [Memory.insert, Memory.wf]
  | cons c rest ih =>
    obtain ⟨k, w⟩ := c
    have hrest := List.pairwise_cons.1 h
    simp only [Memory.insert]
    split
    · rename_i hlt
      refine List.pairwise_cons.2 ⟨fun d hd => ?_, h⟩
      rcases List.mem_cons.1 hd with rfl | hd
      · exact hlt
      · exact Nat.lt_trans hlt (hrest.1 d hd)
    · split
      · rename_i heq
        exact List.pairwise_cons.2 ⟨fun d hd => heq ▸ hrest.1 d hd, hrest.2⟩
      · rename_i hge hne
        refine List.pairwise_cons.2 ⟨fun d hd => ?_, ih hrest.2⟩
        rcases Memory.mem_insert hd with rfl | hd
        · simp only; omega
        · exact hrest.1 d hd

theorem Memory.insert_below {m : Memory} {size a : Nat} (v : Byte) (h : m.below size) (ha : a < size) :
    (m.insert a v).below size := by
  intro c hc
  rcases Memory.mem_insert hc with rfl | hc
  · exact ha
  · exact h c hc

/-- Reading the byte just written. -/
@[simp] theorem readByte_writeByte_same (s : State) (sp : Space) (a : Nat) (v : Byte) :
    (s.writeByte sp a v).readByte sp a = v := by
  cases sp <;> simp [State.writeByte, State.readByte, State.bank, Memory.lookup_insert_same]

/-- Reading another address of the same memory. -/
theorem readByte_writeByte_other (s : State) (sp : Space) (a b : Nat) (v : Byte) (h : b ≠ a) :
    (s.writeByte sp a v).readByte sp b = s.readByte sp b := by
  cases sp <;> simp [State.writeByte, State.readByte, State.bank, Memory.lookup_insert_other _ _ _ _ h]

/-- PIXMEM and PAYMEM are separate (20_memory.md R48). -/
theorem readByte_writeByte_space (s : State) (sp sq : Space) (a b : Nat) (v : Byte) (h : sq ≠ sp) :
    (s.writeByte sp a v).readByte sq b = s.readByte sq b := by
  cases sp <;> cases sq <;> first | exact absurd rfl h | rfl

/-- Equal memories read the same. -/
theorem readByte_congr {s t : State} {sp : Space} (h : s.bank sp = t.bank sp) (a : Nat) :
    s.readByte sp a = t.readByte sp a := by
  simp [State.readByte, h]

@[simp] theorem hasAddress_eq (s : State) (sp : Space) (a : Nat) :
    s.hasAddress sp a = decide (a < s.platform.size sp) := rfl

@[simp] theorem andThen_next (s : State) (f : State → Host.Outcome State Fault Refusal) :
    andThen (.next s) f = f s := rfl

@[simp] theorem andThen_fault (r : Fault) (f : State → Host.Outcome State Fault Refusal) :
    andThen (.fault r) f = .fault r := rfl

@[simp] theorem andThen_refused (r : Refusal) (f : State → Host.Outcome State Fault Refusal) :
    andThen (.refused r) f = .refused r := rfl

/-- A chain that answers a next state went through one. -/
theorem andThen_eq_next {o : Host.Outcome State Fault Refusal} {f : State → Host.Outcome State Fault Refusal}
    {t : State} (h : andThen o f = .next t) : ∃ s, o = .next s ∧ f s = .next t := by
  cases o with
  | next s => exact ⟨s, rfl, h⟩
  | fault r => cases h
  | refused r => cases h

/-- A byte access that answers a next state was inside its memory. -/
theorem withByte_eq_next {sp : Space} {a : Nat} {s t : State} {f : Byte → Host.Outcome State Fault Refusal}
    (h : withByte sp a s f = .next t) : a < s.platform.size sp ∧ f (s.readByte sp a) = .next t := by
  unfold withByte at h
  split at h
  · rename_i hb
    exact ⟨by simpa using hb, h⟩
  · cases h

theorem withByte_inside {sp : Space} {a : Nat} {s : State} (f : Byte → Host.Outcome State Fault Refusal)
    (h : a < s.platform.size sp) : withByte sp a s f = f (s.readByte sp a) := by
  simp [withByte, h]

theorem storeByte_eq_next {sp : Space} {a : Nat} {v : Byte} {s t : State} (h : storeByte sp a v s = .next t) :
    a < s.platform.size sp ∧ t = s.writeByte sp a v := by
  unfold storeByte at h
  split at h
  · rename_i hb
    exact ⟨by simpa using hb, by cases h; rfl⟩
  · cases h

theorem storeByte_inside {sp : Space} {a : Nat} {s : State} (v : Byte) (h : a < s.platform.size sp) :
    storeByte sp a v s = .next (s.writeByte sp a v) := by
  simp [storeByte, h]

/-- Every memory write keeps the canonical form of both memories. -/
theorem writeByte_keeps_memInv {s : State} {sp : Space} {a : Nat} (v : Byte) (h : s.MemInv)
    (ha : a < s.platform.size sp) : (s.writeByte sp a v).MemInv := by
  cases sp with
  | pix =>
    exact ⟨Memory.insert_wf a v h.pix_wf, h.pay_wf, Memory.insert_below v h.pix_below ha, h.pay_below⟩
  | pay =>
    exact ⟨h.pix_wf, Memory.insert_wf a v h.pay_wf, h.pix_below, Memory.insert_below v h.pay_below ha⟩

/-- The canonical form depends on the memories and the platform alone. -/
theorem State.MemInv.of_eq {s t : State} (h : s.MemInv) (hpix : t.pix = s.pix) (hpay : t.pay = s.pay)
    (hp : t.platform = s.platform) : t.MemInv := by
  constructor
  · rw [hpix]; exact h.pix_wf
  · rw [hpay]; exact h.pay_wf
  · rw [hpix, hp]; exact h.pix_below
  · rw [hpay, hp]; exact h.pay_below

/-- The memories right after reset. -/
theorem reset_memInv : State.reset.MemInv :=
  ⟨List.Pairwise.nil, List.Pairwise.nil, fun _ h => absurd h List.not_mem_nil, fun _ h => absurd h List.not_mem_nil⟩

end Sys2Proof.Machine
end

