-- ==== Sys2Proof/Laws/Operands.lean ====
section
/-! SUPPORT. Operands, capacity and addresses: the arithmetic facts later proofs cite. -/

namespace Sys2Proof.Machine

theorem W_lt (s : State) : s.W < 65536 := s.regs.width.isLt
theorem H_lt (s : State) : s.H < 65536 := s.regs.height.isLt
theorem C_lt (s : State) : s.C < 256 := s.regs.channels.isLt

/-- A capacity fits in 31 bits (44_capacity.md R132). -/
theorem capacityBytes_bound {w h : Nat} (hw : w < 65536) (hh : h < 65536) : capacityBytes w h ≤ 1610563584 := by
  have h1 : w * h ≤ 65535 * 65535 := Nat.mul_le_mul (by omega) (by omega)
  unfold capacityBytes
  omega

theorem cap_bound (s : State) : s.cap ≤ 1610563584 := capacityBytes_bound (W_lt s) (H_lt s)

/-- A buffer is valid exactly when it has pixels of at least three bytes (60_exceptions.md R138). -/
theorem invalidBuffer_eq_false {s : State} : s.invalidBuffer = false ↔ 0 < s.W ∧ 0 < s.H ∧ 3 ≤ s.C := by
  simp [State.invalidBuffer]
  omega

/-- slotAddr rises with the slot index (20_memory.md R50). -/
theorem slotAddr_mono (s : State) (hc : 3 ≤ s.C) {i j : Nat} (h : i ≤ j) : s.slotAddr i ≤ s.slotAddr j := by
  unfold State.slotAddr
  have hdiv : i / 3 ≤ j / 3 := Nat.div_le_div_right h
  rcases Nat.lt_or_ge (i / 3) (j / 3) with hlt | hge
  · have := Nat.mul_le_mul_right s.C hlt
    rw [Nat.succ_mul] at this
    omega
  · have : i / 3 = j / 3 := by omega
    rw [this]
    omega

/-- Distinct slots are distinct bytes. -/
theorem slotAddr_inj (s : State) (hc : 3 ≤ s.C) {i j : Nat} (h : s.slotAddr i = s.slotAddr j) : i = j := by
  unfold State.slotAddr at h
  rcases Nat.lt_trichotomy (i / 3) (j / 3) with hlt | heq | hgt
  · have := Nat.mul_le_mul_right s.C hlt
    rw [Nat.succ_mul] at this
    omega
  · rw [heq] at h
    omega
  · have := Nat.mul_le_mul_right s.C hgt
    rw [Nat.succ_mul] at this
    omega

/-- The cursor's address is the slot address of the index it stands at (41_sequencer.md R103). -/
theorem pixAddr_eq_slotAddr (s : State) {row col chan i : Nat} (hc : chan < 3)
    (h : i = (row * s.W + col) * 3 + chan) : s.pixAddr row col chan = s.slotAddr i := by
  unfold State.pixAddr State.slotAddr
  have h1 : i / 3 = row * s.W + col := by omega
  have h2 : i % 3 = chan := by omega
  rw [h1, h2]

/-- inRange(N) puts every slot and payload byte of the command inside its memory (R49, R50). -/
theorem inRange_covers {s : State} {n : Nat} (hc : 3 ≤ s.C) (h : s.inRange n = true) :
    (∀ i, i < 8 * n → s.slotAddr i < s.platform.size .pix) ∧
      ∀ k, k < n → s.payAddr k < s.platform.size .pay := by
  simp only [State.inRange, hasAddress_eq, Bool.or_eq_true, beq_iff_eq, Bool.and_eq_true, decide_eq_true_eq] at h
  rcases h with rfl | ⟨hpix, hpay⟩
  · exact ⟨fun i hi => by omega, fun k hk => by omega⟩
  · refine ⟨fun i hi => ?_, fun k hk => ?_⟩
    · exact Nat.lt_of_le_of_lt (slotAddr_mono s hc (by omega)) hpix
    · unfold State.payAddr
      omega

/-- inRange depends on the registers and the platform alone. -/
theorem inRange_congr {s t : State} (hr : t.regs.SameConfig s.regs) (hp : t.platform = s.platform) (n : Nat) :
    t.inRange n = s.inRange n := by
  obtain ⟨hw, hh, hc, hx, hy, hl⟩ := hr
  simp [State.inRange, State.slotAddr, State.pixBase, State.payBase, State.C, hc, hx, hy, hp]

/-- The operands depend on the configuration registers alone. -/
theorem operands_congr {s t : State} (hr : t.regs.SameConfig s.regs) :
    t.W = s.W ∧ t.H = s.H ∧ t.C = s.C ∧ t.pixBase = s.pixBase ∧ t.payBase = s.payBase ∧ t.L = s.L ∧
      t.cap = s.cap ∧ t.invalidBuffer = s.invalidBuffer := by
  obtain ⟨hw, hh, hc, hx, hy, hl⟩ := hr
  unfold State.cap State.invalidBuffer State.W State.H State.C State.pixBase State.payBase State.L
  rw [hw, hh, hc, hx, hy, hl]
  exact ⟨rfl, rfl, rfl, rfl, rfl, rfl, rfl, rfl⟩

end Sys2Proof.Machine
end

