-- ==== Sys2Proof/Laws/Engine.lean ====
section
/-! SUPPORT. What the engine's steps can do, said once: CHECK, the RUN steps, and their end. -/

namespace Sys2Proof.Machine

/-- The latches after advance, one field at a time. -/
@[simp] theorem advance_n (c : Latches) (w : Nat) : ((c.advancePixel w).advanceBit).n = c.n := by
  unfold Latches.advanceBit Latches.advancePixel
  split <;> split <;> first | rfl | (split <;> rfl)

@[simp] theorem advance_op (c : Latches) (w : Nat) : ((c.advancePixel w).advanceBit).op = c.op := by
  unfold Latches.advanceBit Latches.advancePixel
  split <;> split <;> first | rfl | (split <;> rfl)

@[simp] theorem advance_pbyte (c : Latches) (w : Nat) : ((c.advancePixel w).advanceBit).pbyte = c.pbyte := by
  unfold Latches.advanceBit Latches.advancePixel
  split <;> split <;> first | rfl | (split <;> rfl)

@[simp] theorem advance_acc (c : Latches) (w : Nat) : ((c.advancePixel w).advanceBit).acc = c.acc := by
  unfold Latches.advanceBit Latches.advancePixel
  split <;> split <;> first | rfl | (split <;> rfl)

/-- What `finishSlot` can do. -/
theorem finishSlot_cases (s : State) :
    (s.advance.lat.k = s.lat.n ∧ s.finishSlot = s.advance.complete .none s.lat.n) ∨
      (s.advance.lat.k ≠ s.lat.n ∧ s.finishSlot = s.advance) := by
  unfold State.finishSlot
  by_cases h : s.advance.lat.k = s.lat.n
  · left; simp_all
  · right; simp_all

@[simp] theorem finishSlot_pix (s : State) : s.finishSlot.pix = s.pix := by
  rcases finishSlot_cases s with ⟨-, h⟩ | ⟨-, h⟩ <;> simp [h]

@[simp] theorem finishSlot_pay (s : State) : s.finishSlot.pay = s.pay := by
  rcases finishSlot_cases s with ⟨-, h⟩ | ⟨-, h⟩ <;> simp [h]

@[simp] theorem finishSlot_mark (s : State) : s.finishSlot.mark = s.mark := by
  rcases finishSlot_cases s with ⟨-, h⟩ | ⟨-, h⟩ <;> simp [h]

@[simp] theorem finishSlot_platform (s : State) : s.finishSlot.platform = s.platform := by
  rcases finishSlot_cases s with ⟨-, h⟩ | ⟨-, h⟩ <;> simp [h]

@[simp] theorem finishSlot_host (s : State) : s.finishSlot.host = s.host := by
  rcases finishSlot_cases s with ⟨-, h⟩ | ⟨-, h⟩ <;> simp [h]

@[simp] theorem finishSlot_sched (s : State) : s.finishSlot.sched = s.sched := by
  rcases finishSlot_cases s with ⟨-, h⟩ | ⟨-, h⟩ <;> simp [h]

@[simp] theorem finishSlot_unpolled (s : State) : s.finishSlot.unpolled = s.unpolled := by
  rcases finishSlot_cases s with ⟨-, h⟩ | ⟨-, h⟩ <;> simp [h]

/-- What `startRun` can do (42_encode.md R107, 43_decode.md R120). -/
theorem startRun_cases (s : State) (n : Nat) :
    (s.inRange n = false ∧ s.startRun n = s.raiseMemRange) ∨
      (s.inRange n = true ∧ n = 0 ∧ s.startRun n = (s.initCursor 0).complete .none 0) ∨
      (s.inRange n = true ∧ n ≠ 0 ∧ s.startRun n = { s.initCursor n with phase := .run }) := by
  unfold State.startRun
  cases hr : s.inRange n
  · left; simp
  · by_cases hn : n = 0
    · right; left; simp [hn]
    · right; right; simp [hn]

/-- What ENCODE's CHECK step can do (R107). -/
theorem encodeCheck_cases (s : State) :
    (s.invalidBuffer = true ∧ encodeCheck s = s.complete .invalidBuffer 0) ∨
      (s.invalidBuffer = false ∧ s.cap < s.L ∧ encodeCheck s = s.complete .capacityExceeded 0) ∨
      (s.invalidBuffer = false ∧ s.L ≤ s.cap ∧ encodeCheck s = s.startRun s.L) := by
  unfold encodeCheck
  cases hv : s.invalidBuffer
  · by_cases hl : s.cap < s.L
    · right; left; simp [hl]
    · right; right; exact ⟨rfl, by omega, by simp [hl]⟩
  · left; simp

/-- What DECODE's CHECK step can do (R120). -/
theorem decodeCheck_cases (s : State) :
    (s.invalidBuffer = true ∧ decodeCheck s = s.complete .invalidBuffer 0) ∨
      (s.invalidBuffer = false ∧ s.cap < s.L ∧ decodeCheck s = s.setTrunc.startRun s.cap) ∨
      (s.invalidBuffer = false ∧ s.L ≤ s.cap ∧ decodeCheck s = s.startRun s.L) := by
  unfold decodeCheck
  cases hv : s.invalidBuffer
  · by_cases hl : s.cap < s.L
    · right; left
      exact ⟨rfl, hl, by simp [hl, Nat.min_eq_right (Nat.le_of_lt hl)]⟩
    · right; right
      exact ⟨rfl, by omega, by simp [hl, Nat.min_eq_left (Nat.le_of_not_lt hl)]⟩
  · left; simp

/-- The state in which ENCODE's RUN step writes its slot: at bit 0 the payload byte has been latched. -/
def latched (s : State) : State :=
  if s.lat.bit = 0 then { s with lat := { s.lat with pbyte := s.readByte .pay (s.payAddr s.lat.k.toNat) } } else s

/-- Latching the payload byte changes eng.pbyte alone. -/
theorem latched_eq (s : State) : latched s = { s with lat := { s.lat with pbyte := (latched s).lat.pbyte } } := by
  unfold latched
  split <;> rfl

@[simp] theorem latched_regs (s : State) : (latched s).regs = s.regs := by rw [latched_eq]
@[simp] theorem latched_phase (s : State) : (latched s).phase = s.phase := by rw [latched_eq]
@[simp] theorem latched_pix (s : State) : (latched s).pix = s.pix := by rw [latched_eq]
@[simp] theorem latched_pay (s : State) : (latched s).pay = s.pay := by rw [latched_eq]
@[simp] theorem latched_mark (s : State) : (latched s).mark = s.mark := by rw [latched_eq]
@[simp] theorem latched_platform (s : State) : (latched s).platform = s.platform := by rw [latched_eq]
@[simp] theorem latched_host (s : State) : (latched s).host = s.host := by rw [latched_eq]
@[simp] theorem latched_sched (s : State) : (latched s).sched = s.sched := by rw [latched_eq]
@[simp] theorem latched_unpolled (s : State) : (latched s).unpolled = s.unpolled := by rw [latched_eq]
@[simp] theorem latched_draws (s : State) : (latched s).draws = s.draws := by rw [latched_eq]
@[simp] theorem latched_op (s : State) : (latched s).lat.op = s.lat.op := by rw [latched_eq]
@[simp] theorem latched_n (s : State) : (latched s).lat.n = s.lat.n := by rw [latched_eq]
@[simp] theorem latched_k (s : State) : (latched s).lat.k = s.lat.k := by rw [latched_eq]
@[simp] theorem latched_bit (s : State) : (latched s).lat.bit = s.lat.bit := by rw [latched_eq]
@[simp] theorem latched_row (s : State) : (latched s).lat.row = s.lat.row := by rw [latched_eq]
@[simp] theorem latched_col (s : State) : (latched s).lat.col = s.lat.col := by rw [latched_eq]
@[simp] theorem latched_chan (s : State) : (latched s).lat.chan = s.lat.chan := by rw [latched_eq]
@[simp] theorem latched_acc (s : State) : (latched s).lat.acc = s.lat.acc := by rw [latched_eq]
@[simp] theorem latched_cursorAddr (s : State) : (latched s).cursorAddr = s.cursorAddr := by rw [latched_eq]; rfl
@[simp] theorem latched_readByte (s : State) (sp : Space) (a : Nat) :
    (latched s).readByte sp a = s.readByte sp a := by rw [latched_eq]; cases sp <;> rfl

theorem latchPayload_eq_next {s t : State} (h : latchPayload s = .next t) :
    (s.lat.bit = 0 → s.payAddr s.lat.k.toNat < s.platform.size .pay) ∧ t = latched s := by
  unfold latchPayload at h
  unfold latched
  by_cases hb : s.lat.bit = 0
  · rw [if_pos hb] at h
    rw [if_pos hb]
    obtain ⟨hpay, h⟩ := withByte_eq_next h
    cases h
    exact ⟨fun _ => hpay, rfl⟩
  · rw [if_neg hb] at h
    rw [if_neg hb]
    cases h
    exact ⟨fun h0 => absurd h0 hb, rfl⟩

theorem latchPayload_inside {s : State} (hpay : s.lat.bit = 0 → s.payAddr s.lat.k.toNat < s.platform.size .pay) :
    latchPayload s = .next (latched s) := by
  unfold latchPayload latched
  by_cases hb : s.lat.bit = 0
  · rw [if_pos hb, if_pos hb, withByte_inside _ (hpay hb)]
  · rw [if_neg hb, if_neg hb]

theorem packSlot_eq_next {s t : State} (h : packSlot s = .next t) :
    s.cursorAddr < s.platform.size .pix ∧
      t = s.writeByte .pix s.cursorAddr
        (embedBit (s.readByte .pix s.cursorAddr) (payloadBit s.lat.pbyte s.lat.bit.toNat)) := by
  obtain ⟨hpix, h⟩ := withByte_eq_next h
  exact ⟨hpix, (storeByte_eq_next h).2⟩

theorem packSlot_inside {s : State} (hpix : s.cursorAddr < s.platform.size .pix) :
    packSlot s = .next (s.writeByte .pix s.cursorAddr
        (embedBit (s.readByte .pix s.cursorAddr) (payloadBit s.lat.pbyte s.lat.bit.toNat))) := by
  unfold packSlot
  rw [withByte_inside _ hpix, storeByte_inside _ hpix]

/-- The state in which ENCODE's RUN step has written its slot. -/
def packed (s : State) : State :=
  (latched s).writeByte .pix s.cursorAddr
    (embedBit (s.readByte .pix s.cursorAddr) (payloadBit (latched s).lat.pbyte s.lat.bit.toNat))

/-- What ENCODE's RUN step does when it answers a next state (R110). -/
theorem encodeRun_eq_next {s t : State} (h : encodeRun s = .next t) :
    (s.lat.bit = 0 → s.payAddr s.lat.k.toNat < s.platform.size .pay) ∧
      s.cursorAddr < s.platform.size .pix ∧ t = (packed s).finishSlot := by
  obtain ⟨s₁, h₁, h⟩ := andThen_eq_next h
  obtain ⟨s₂, h₂, h⟩ := andThen_eq_next h
  cases h
  obtain ⟨hpay, rfl⟩ := latchPayload_eq_next h₁
  obtain ⟨hpix, rfl⟩ := packSlot_eq_next h₂
  simp only [latched_cursorAddr, latched_platform] at hpix
  exact ⟨hpay, hpix, by simp [packed]⟩

/-- When its addresses exist, ENCODE's RUN step answers a next state (R110: a RUN step cannot fail). -/
theorem encodeRun_inside {s : State} (hpix : s.cursorAddr < s.platform.size .pix)
    (hpay : s.lat.bit = 0 → s.payAddr s.lat.k.toNat < s.platform.size .pay) :
    encodeRun s = .next (packed s).finishSlot := by
  unfold encodeRun
  rw [latchPayload_inside hpay, andThen_next, packSlot_inside (by simpa using hpix), andThen_next]
  simp [packed]

/-- The state DECODE's RUN step ends its slot in: at bit 7 the output byte has been written (R122). -/
def gathered (s : State) : State :=
  let u := gatherSlot (s.readByte .pix s.cursorAddr) s
  if s.lat.bit = 7 then u.writeByte .pay (s.payAddr s.lat.k.toNat) u.lat.acc else u

/-- What DECODE's RUN step does when it answers a next state (R122). -/
theorem decodeRun_eq_next {s t : State} (h : decodeRun s = .next t) :
    (s.lat.bit = 7 → s.payAddr s.lat.k.toNat < s.platform.size .pay) ∧
      s.cursorAddr < s.platform.size .pix ∧ t = (gathered s).finishSlot := by
  obtain ⟨hpix, h⟩ := withByte_eq_next h
  obtain ⟨s₁, h₁, h⟩ := andThen_eq_next h
  cases h
  unfold emitByte at h₁
  unfold gathered
  by_cases hb : s.lat.bit = 7
  · have hb' : (gatherSlot (s.readByte .pix s.cursorAddr) s).lat.bit = 7 := hb
    rw [if_pos hb'] at h₁
    obtain ⟨hpay, rfl⟩ := storeByte_eq_next h₁
    exact ⟨fun _ => hpay, hpix, by rw [if_pos hb]; rfl⟩
  · have hb' : ¬ (gatherSlot (s.readByte .pix s.cursorAddr) s).lat.bit = 7 := hb
    rw [if_neg hb'] at h₁
    cases h₁
    exact ⟨fun h0 => absurd h0 hb, hpix, by rw [if_neg hb]⟩

/-- When its addresses exist, DECODE's RUN step answers a next state (R122: exceptions none). -/
theorem decodeRun_inside {s : State} (hpix : s.cursorAddr < s.platform.size .pix)
    (hpay : s.lat.bit = 7 → s.payAddr s.lat.k.toNat < s.platform.size .pay) :
    decodeRun s = .next (gathered s).finishSlot := by
  unfold decodeRun gathered
  rw [withByte_inside _ hpix]
  unfold emitByte
  by_cases hb : s.lat.bit = 7
  · have hb' : (gatherSlot (s.readByte .pix s.cursorAddr) s).lat.bit = 7 := hb
    rw [if_pos hb', if_pos hb]
    have hin : (gatherSlot (s.readByte .pix s.cursorAddr) s).payAddr
        (gatherSlot (s.readByte .pix s.cursorAddr) s).lat.k.toNat <
        (gatherSlot (s.readByte .pix s.cursorAddr) s).platform.size .pay := hpay hb
    rw [storeByte_inside _ hin]
    rfl
  · have hb' : ¬ (gatherSlot (s.readByte .pix s.cursorAddr) s).lat.bit = 7 := hb
    rw [if_neg hb', if_neg hb]
    rfl

/-- Writing the slot changes PIXMEM and eng.pbyte alone. -/
@[simp] theorem packed_regs (s : State) : (packed s).regs = s.regs := by simp [packed]
@[simp] theorem packed_phase (s : State) : (packed s).phase = s.phase := by simp [packed]
@[simp] theorem packed_mark (s : State) : (packed s).mark = s.mark := by simp [packed]
@[simp] theorem packed_platform (s : State) : (packed s).platform = s.platform := by simp [packed]
@[simp] theorem packed_host (s : State) : (packed s).host = s.host := by simp [packed]
@[simp] theorem packed_sched (s : State) : (packed s).sched = s.sched := by simp [packed]
@[simp] theorem packed_unpolled (s : State) : (packed s).unpolled = s.unpolled := by simp [packed]
@[simp] theorem packed_draws (s : State) : (packed s).draws = s.draws := by simp [packed]
@[simp] theorem packed_pay (s : State) : (packed s).pay = s.pay := by simp [packed]
@[simp] theorem packed_op (s : State) : (packed s).lat.op = s.lat.op := by simp [packed]
@[simp] theorem packed_n (s : State) : (packed s).lat.n = s.lat.n := by simp [packed]
@[simp] theorem packed_k (s : State) : (packed s).lat.k = s.lat.k := by simp [packed]
@[simp] theorem packed_bit (s : State) : (packed s).lat.bit = s.lat.bit := by simp [packed]
@[simp] theorem packed_row (s : State) : (packed s).lat.row = s.lat.row := by simp [packed]
@[simp] theorem packed_col (s : State) : (packed s).lat.col = s.lat.col := by simp [packed]
@[simp] theorem packed_chan (s : State) : (packed s).lat.chan = s.lat.chan := by simp [packed]
@[simp] theorem packed_acc (s : State) : (packed s).lat.acc = s.lat.acc := by simp [packed]
@[simp] theorem packed_pbyte (s : State) : (packed s).lat.pbyte = (latched s).lat.pbyte := by simp [packed]

/-- Reading the slot and writing the output byte change PAYMEM and eng.acc alone. -/
@[simp] theorem gathered_regs (s : State) : (gathered s).regs = s.regs := by
  unfold gathered; dsimp only; split <;> simp
@[simp] theorem gathered_phase (s : State) : (gathered s).phase = s.phase := by
  unfold gathered; dsimp only; split <;> simp
@[simp] theorem gathered_mark (s : State) : (gathered s).mark = s.mark := by
  unfold gathered; dsimp only; split <;> simp
@[simp] theorem gathered_platform (s : State) : (gathered s).platform = s.platform := by
  unfold gathered; dsimp only; split <;> simp
@[simp] theorem gathered_host (s : State) : (gathered s).host = s.host := by
  unfold gathered; dsimp only; split <;> simp
@[simp] theorem gathered_sched (s : State) : (gathered s).sched = s.sched := by
  unfold gathered; dsimp only; split <;> simp
@[simp] theorem gathered_unpolled (s : State) : (gathered s).unpolled = s.unpolled := by
  unfold gathered; dsimp only; split <;> simp
@[simp] theorem gathered_draws (s : State) : (gathered s).draws = s.draws := by
  unfold gathered; dsimp only; split <;> simp
@[simp] theorem gathered_pix (s : State) : (gathered s).pix = s.pix := by
  unfold gathered; dsimp only; split <;> simp
@[simp] theorem gathered_op (s : State) : (gathered s).lat.op = s.lat.op := by
  unfold gathered; dsimp only; split <;> simp
@[simp] theorem gathered_n (s : State) : (gathered s).lat.n = s.lat.n := by
  unfold gathered; dsimp only; split <;> simp
@[simp] theorem gathered_k (s : State) : (gathered s).lat.k = s.lat.k := by
  unfold gathered; dsimp only; split <;> simp
@[simp] theorem gathered_bit (s : State) : (gathered s).lat.bit = s.lat.bit := by
  unfold gathered; dsimp only; split <;> simp
@[simp] theorem gathered_row (s : State) : (gathered s).lat.row = s.lat.row := by
  unfold gathered; dsimp only; split <;> simp
@[simp] theorem gathered_col (s : State) : (gathered s).lat.col = s.lat.col := by
  unfold gathered; dsimp only; split <;> simp
@[simp] theorem gathered_chan (s : State) : (gathered s).lat.chan = s.lat.chan := by
  unfold gathered; dsimp only; split <;> simp
@[simp] theorem gathered_pbyte (s : State) : (gathered s).lat.pbyte = s.lat.pbyte := by
  unfold gathered; dsimp only; split <;> simp
@[simp] theorem gathered_acc (s : State) : (gathered s).lat.acc =
    gatherBit (if s.lat.bit = 0 then 0 else s.lat.acc) (s.readByte .pix s.cursorAddr) s.lat.bit.toNat := by
  unfold gathered; dsimp only; split <;> simp

/-- The steps of the engine, one after the other. -/
theorem engineSteps_add (j k : Nat) (s : State) :
    engineSteps (j + k) s = andThen (engineSteps j s) (engineSteps k) := by
  induction j generalizing s with
  | zero => simp [engineSteps]
  | succ j ih =>
    rw [Nat.succ_add]
    simp only [engineSteps]
    cases engineStep s with
    | next t => simpa using ih t
    | fault r => rfl
    | refused r => rfl

end Sys2Proof.Machine
end

