-- ==== Sys2Proof/Laws/Flags.lean ====
section
/-! SUPPORT. The STATUS word and the register offsets. -/

namespace Sys2Proof.Machine

/-- STATUS as a sum: no two fields overlap (10_state.md R24). -/
theorem statusWord_eq (s : State) :
    s.statusWord = BitVec.ofNat 32 (16 * s.regs.err.toNat + 8 * s.regs.ign.toNat + 4 * s.regs.trunc.toNat +
      2 * s.regs.done.toNat + s.busy.toNat) := by
  unfold State.statusWord
  generalize s.regs.err = e
  cases s.regs.ign <;> cases s.regs.trunc <;> cases s.regs.done <;> cases s.busy <;> (revert e; decide)

/-- A reserved or misaligned offset is no register's (R33, 20_memory.md R45). -/
theorem ofOffset_reserved {o : BitVec 8} (h : o.toNat % 4 ≠ 0 ∨ 0x28 ≤ o.toNat) : Register.ofOffset o = none := by
  revert o
  decide

/-- Every register is found at its own offset (30_encoding.md R78). -/
@[simp] theorem ofOffset_offset (r : Register) : Register.ofOffset r.offset = some r := by
  cases r <;> rfl

/-- No two offsets are one register. -/
theorem offset_of_ofOffset {o : BitVec 8} {r : Register} (h : Register.ofOffset o = some r) : r.offset = o := by
  revert o
  cases r <;> decide

theorem errCode_le (e : ErrCode) : e.code.toNat ≤ 3 := by cases e <;> decide

end Sys2Proof.Machine
end

