-- ==== Sys2Proof/Laws/PerInstr.lean ====
section
/-! SUPPORT. Per instruction: an encoded well-formed instruction has its row's match under its row's mask in spec/opcode_table.json. -/

namespace Sys2Proof.Laws.TableRow

/-- The row's "mask". -/
def rowMask : Instr → Nat
  | .encode => 0xFFFFFFFF
  | .decode => 0xFFFFFFFF
  | .illegalCmd _ => 0x00000000
  | .regWr _ _ => 0x10000000000
  | .regRd _ => 0x100FFFFFFFF

/-- The row's "match". -/
def rowMatch : Instr → Nat
  | .encode => 0x00000001
  | .decode => 0x00000002
  | .illegalCmd _ => 0x00000000
  | .regWr _ _ => 0x10000000000
  | .regRd _ => 0x00000000000

def Statement (i : Instr) : Prop :=
  i.wf = true → leNat (Sys2Proof.encode i) &&& rowMask i = rowMatch i

theorem encode : Statement .encode := fun _ => by decide

theorem decode : Statement .decode := fun _ => by decide

theorem illegalCmd (word : Word) : Statement (.illegalCmd word) := fun _ => Nat.and_zero _

/-- A record under a 41-bit mask is read bit by bit. -/
theorem record_and (r mask want : BitVec 41) (h : r &&& mask = want) :
    leNat (recordBytes r) &&& mask.toNat = want.toNat := by
  rw [leNat_recordBytes, ← h, BitVec.toNat_and]

theorem regWr (offset : BitVec 8) (data : Word) : Statement (.regWr offset data) := fun _ => by
  refine record_and (record true offset data) 0x10000000000 0x10000000000 ?_
  apply BitVec.eq_of_getLsbD_eq
  intro i hi
  have h := recordIsWrite_record true offset data
  unfold recordIsWrite at h
  rcases Nat.lt_or_ge i 40 with h1 | h1
  · have hm : (0x10000000000 : BitVec 41).getLsbD i = false := by
      interval_cases i <;> rfl
    rw [BitVec.getLsbD_and, hm, Bool.and_false]
  · have h2 : i = 40 := by omega
    subst h2
    rw [BitVec.getLsbD_and, h]
    rfl

theorem regRd (offset : BitVec 8) : Statement (.regRd offset) := fun _ => by
  refine record_and (record false offset 0) 0x100FFFFFFFF 0 ?_
  apply BitVec.eq_of_getLsbD_eq
  intro i hi
  have hw := recordIsWrite_record false offset 0
  have hd := recordData_record false offset 0
  unfold recordIsWrite at hw
  have hz : (0 : BitVec 41).getLsbD i = false := by simp
  rw [BitVec.getLsbD_and, hz]
  rcases Nat.lt_or_ge i 32 with h1 | h1
  · have hb : (record false offset 0).getLsbD i = false := by
      have hb := congrArg (fun w : Word => w.getLsbD i) hd
      simpa [recordData, BitVec.getLsbD_extractLsb', h1] using hb
    rw [hb, Bool.false_and]
  · rcases Nat.lt_or_ge i 40 with h2 | h2
    · have hm : (0x100FFFFFFFF : BitVec 41).getLsbD i = false := by
        interval_cases i <;> rfl
      rw [hm, Bool.and_false]
    · have h3 : i = 40 := by omega
      subst h3
      rw [hw, Bool.false_and]

end Sys2Proof.Laws.TableRow
end

