-- ==== Sys2Proof/Laws/Step.lean ====
section
/-! SUPPORT. What a register write, a host action and a step can do, said once. -/

namespace Sys2Proof.Machine

theorem busy_eq_true {s : State} : s.busy = true ↔ s.phase ≠ .idle := by simp [State.busy]

theorem busy_eq_false {s : State} : s.busy = false ↔ s.phase = .idle := by simp [State.busy]

/-- The three outcomes of an accepted CMD word (40_host_interface.md R83). -/
theorem acceptWord_cases (s : State) (w : Word) :
    (w = 1 ∧ s.acceptWord w = s.accept .encode) ∨ (w = 2 ∧ s.acceptWord w = s.accept .decode) ∨
      (w ≠ 1 ∧ w ≠ 2 ∧ s.acceptWord w = s.acceptIllegal) := by
  unfold State.acceptWord
  by_cases h1 : w = 1
  · left; simp [h1]
  · by_cases h2 : w = 2
    · right; left; simp [h2]
    · right; right; exact ⟨h1, h2, by rw [if_neg h1, if_neg h2]⟩

/-- What a CMD word can do: dropped while busy, else accepted (R81, R83, R84). -/
theorem writeCommand_cases (s : State) (w : Word) :
    (s.busy = true ∧ s.writeCommand w = s.setIgn) ∨
      (s.busy = false ∧ ∃ op, s.writeCommand w = s.accept op) ∨
      (s.busy = false ∧ s.writeCommand w = s.acceptIllegal) := by
  unfold State.writeCommand
  cases hb : s.busy
  · right
    rcases acceptWord_cases s w with ⟨-, h⟩ | ⟨-, h⟩ | ⟨-, -, h⟩
    · left; exact ⟨rfl, .encode, by simpa using h⟩
    · left; exact ⟨rfl, .decode, by simpa using h⟩
    · right; exact ⟨rfl, by simpa using h⟩
  · left; simp

/-- What a REG_WR can do (R79 to R84). -/
theorem writeOffset_cases (s : State) (offset : BitVec 8) (data : Word) :
    s.writeOffset offset data = s ∨ s.writeOffset offset data = s.writeCommand data ∨
      (s.busy = true ∧ s.writeOffset offset data = s.setIgn) ∨
      (s.busy = false ∧ ∃ r : Register, r.isConfig = true ∧
        s.writeOffset offset data = { s with regs := s.regs.store data r }) := by
  unfold State.writeOffset
  cases hr : Register.ofOffset offset with
  | none => left; rfl
  | some r =>
    cases r
    case cmd => right; left; rfl
    case status => left; rfl
    case result => left; rfl
    case cap => left; rfl
    all_goals
      right; right
      simp only [Register.isConfig, if_true, State.writeConfig]
      cases hb : s.busy
      · right; exact ⟨rfl, _, rfl, rfl⟩
      · left; exact ⟨rfl, rfl⟩

/-- What a host action can do when it answers a next state. -/
theorem hostAct_cases {op : HostOp} {s t : State} (h : hostAct op s = .next t) :
    t = s ∨ (∃ r, t = s.reply r ∨ ∃ o, t = (s.reply r).polled o) ∨
      (∃ o d, t = s.writeOffset o d) ∨ (∃ w, t = s.writeCommand w) ∨
      (s.mustNotAccess = true ∧ t = s.raiseHostRace) ∨
      (s.mustNotAccess = false ∧ ∃ sp a v, op = .writeMem sp a v ∧ a < s.platform.size sp ∧ t = s.writeByte sp a v) ∨
      (op = .reset ∧ t = s.doReset) := by
  cases op with
  | send bytes =>
    simp only [hostAct, hostSend] at h
    split at h
    · rename_i i _
      cases i <;> cases h
      · exact .inr (.inr (.inr (.inl ⟨_, rfl⟩)))
      · exact .inr (.inr (.inr (.inl ⟨_, rfl⟩)))
      · exact .inr (.inr (.inr (.inl ⟨_, rfl⟩)))
      · exact .inr (.inr (.inl ⟨_, _, rfl⟩))
      · exact .inr (.inl ⟨_, .inr ⟨_, rfl⟩⟩)
    · cases h
  | wait => cases h; exact .inr (.inl ⟨_, .inr ⟨_, rfl⟩⟩)
  | readMem sp a =>
    simp only [hostAct, hostRead] at h
    split at h
    · cases h; exact .inr (.inr (.inr (.inr (.inl ⟨by assumption, rfl⟩))))
    · obtain ⟨-, h⟩ := withByte_eq_next h
      cases h; exact .inr (.inl ⟨_, .inl rfl⟩)
  | writeMem sp a v =>
    simp only [hostAct, hostWrite] at h
    split at h
    · cases h; exact .inr (.inr (.inr (.inr (.inl ⟨by assumption, rfl⟩))))
    · obtain ⟨ha, rfl⟩ := storeByte_eq_next h
      rename_i hb
      exact .inr (.inr (.inr (.inr (.inr (.inl ⟨by simpa using hb, sp, a, v, rfl, ha, rfl⟩)))))
  | readLanes addr count =>
    simp only [hostAct, platformRead] at h
    split at h
    · cases h
    · split at h
      · cases h; exact .inr (.inl ⟨_, .inr ⟨_, rfl⟩⟩)
      · cases h; exact .inr (.inl ⟨_, .inl rfl⟩)
  | writeLanes addr lanes =>
    simp only [hostAct, platformWrite] at h
    split at h
    · cases h
    · split at h
      · cases h; exact .inr (.inr (.inl ⟨_, _, rfl⟩))
      · cases h; exact .inl rfl
  | reset => cases h; exact .inr (.inr (.inr (.inr (.inr (.inr ⟨rfl, rfl⟩)))))

/-- What an engine step can do when it answers a next state. -/
theorem engineStep_cases {s t : State} (h : engineStep s = .next t) :
    (s.phase = .idle ∧ t = s) ∨
      (s.phase = .check ∧ s.lat.op = .encode ∧ t = encodeCheck s) ∨
      (s.phase = .check ∧ s.lat.op = .decode ∧ t = decodeCheck s) ∨
      (s.phase = .run ∧ s.lat.op = .encode ∧ encodeRun s = .next t) ∨
      (s.phase = .run ∧ s.lat.op = .decode ∧ decodeRun s = .next t) := by
  unfold engineStep at h
  split at h
  · cases h; exact .inl ⟨by assumption, rfl⟩
  · cases h; exact .inr (.inl ⟨by assumption, by assumption, rfl⟩)
  · cases h; exact .inr (.inr (.inl ⟨by assumption, by assumption, rfl⟩))
  · exact .inr (.inr (.inr (.inl ⟨by assumption, by assumption, h⟩)))
  · exact .inr (.inr (.inr (.inr ⟨by assumption, by assumption, h⟩)))

/-- Using up a choice changes the schedule and the draw counter alone. -/
theorem spendChoice_eq (s : State) :
    s.spendChoice = { s with sched := s.spendChoice.sched, draws := s.spendChoice.draws } := by
  unfold State.spendChoice
  split
  · split <;> rfl
  · rfl

@[simp] theorem spendChoice_regs (s : State) : s.spendChoice.regs = s.regs := by rw [spendChoice_eq]
@[simp] theorem spendChoice_phase (s : State) : s.spendChoice.phase = s.phase := by rw [spendChoice_eq]
@[simp] theorem spendChoice_lat (s : State) : s.spendChoice.lat = s.lat := by rw [spendChoice_eq]
@[simp] theorem spendChoice_pix (s : State) : s.spendChoice.pix = s.pix := by rw [spendChoice_eq]
@[simp] theorem spendChoice_pay (s : State) : s.spendChoice.pay = s.pay := by rw [spendChoice_eq]
@[simp] theorem spendChoice_mark (s : State) : s.spendChoice.mark = s.mark := by rw [spendChoice_eq]
@[simp] theorem spendChoice_unpolled (s : State) : s.spendChoice.unpolled = s.unpolled := by rw [spendChoice_eq]
@[simp] theorem spendChoice_platform (s : State) : s.spendChoice.platform = s.platform := by rw [spendChoice_eq]
@[simp] theorem spendChoice_host (s : State) : s.spendChoice.host = s.host := by rw [spendChoice_eq]

/-- The host's turn, with its oldest action taken off. -/
def taken (s : State) (rest : List HostOp) : State := { s with host := { s.host with pending := rest } }

/-- What a step can do when it answers a next state: the idle machine stays, the host acts, or the engine steps. -/
theorem step_cases {s t : State} (h : step s = .next t) :
    (s.hostReady = false ∧ s.engineReady = false ∧ s.mark = { memRange := false, hostRace := false } ∧ t = s) ∨
      (s.hostReady = true ∧ ∃ op rest, s.host.pending = op :: rest ∧ hostAct op (taken s.spendChoice rest) = .next t) ∨
      (s.engineReady = true ∧ engineStep s.spendChoice = .next t) := by
  unfold step nextTurn at h
  have hhost : ∀ {u : State}, s.hostReady = true → hostTurn s.spendChoice = .next u →
      ∃ op rest, s.host.pending = op :: rest ∧ hostAct op (taken s.spendChoice rest) = .next u := by
    intro u hr hu
    unfold hostTurn at hu
    rw [spendChoice_host] at hu
    cases hp : s.host.pending with
    | nil => simp [State.hostReady, hp] at hr
    | cons op rest =>
      rw [hp] at hu
      exact ⟨op, rest, rfl, by simpa [taken] using hu⟩
  cases hh : s.hostReady <;> cases he : s.engineReady
  · left
    simp only [State.mover, hh, he, stalled] at h
    split at h
    · cases h
    · split at h
      · cases h
      · cases h
        refine ⟨rfl, rfl, ?_, rfl⟩
        cases hm : s.mark
        simp_all
  · right; right
    simp only [State.mover, hh, he, turnOf] at h
    exact ⟨rfl, h⟩
  · right; left
    simp only [State.mover, hh, he, turnOf] at h
    exact ⟨rfl, hhost hh h⟩
  · right
    simp only [State.mover, hh, he] at h
    cases ha : s.sched.headD (Config.freeAgent s.draws) with
    | host =>
      rw [ha] at h
      left; exact ⟨rfl, hhost hh h⟩
    | engine =>
      rw [ha] at h
      right; exact ⟨rfl, h⟩

/-- A run whose first step answers a next state goes on from there. -/
theorem run_succ {k : Nat} {s t : State} (h : step s = .next t) :
    Host.Core.run Sys2Proof.core (k + 1) s = Host.Core.run Sys2Proof.core k t := by
  have h' : Sys2Proof.core.step s = .next t := h
  simp only [Host.Core.run, h']

/-- The sequencer computes the same cursor whatever eng.pbyte and eng.acc hold (41_sequencer.md R104). -/
theorem advance_data (c : Latches) (w : Nat) (p a : Byte) :
    (({ c with pbyte := p, acc := a } : Latches).advancePixel w).advanceBit =
      { (c.advancePixel w).advanceBit with pbyte := p, acc := a } := by
  unfold Latches.advanceBit Latches.advancePixel
  dsimp only
  split <;> split <;> first | rfl | (split <;> rfl)

/-- Taking the host's oldest operation off: what is left of each field. -/
theorem taken_spendChoice (s : State) (rest : List HostOp) : taken s.spendChoice rest = s.afterTaking rest := by
  simp [taken, State.afterTaking]

@[simp] theorem afterTaking_regs (s : State) (rest : List HostOp) : (s.afterTaking rest).regs = s.regs := by
  simp [State.afterTaking]
@[simp] theorem afterTaking_phase (s : State) (rest : List HostOp) : (s.afterTaking rest).phase = s.phase := by
  simp [State.afterTaking]
@[simp] theorem afterTaking_lat (s : State) (rest : List HostOp) : (s.afterTaking rest).lat = s.lat := by
  simp [State.afterTaking]
@[simp] theorem afterTaking_pix (s : State) (rest : List HostOp) : (s.afterTaking rest).pix = s.pix := by
  simp [State.afterTaking]
@[simp] theorem afterTaking_pay (s : State) (rest : List HostOp) : (s.afterTaking rest).pay = s.pay := by
  simp [State.afterTaking]
@[simp] theorem afterTaking_mark (s : State) (rest : List HostOp) : (s.afterTaking rest).mark = s.mark := by
  simp [State.afterTaking]
@[simp] theorem afterTaking_unpolled (s : State) (rest : List HostOp) : (s.afterTaking rest).unpolled = s.unpolled := by
  simp [State.afterTaking]
@[simp] theorem afterTaking_platform (s : State) (rest : List HostOp) : (s.afterTaking rest).platform = s.platform := by
  simp [State.afterTaking]

/-- What a host operation that writes a register does (40_host_interface.md R79 to R84). -/
theorem hostAct_of_writeOf {s u t : State} {op : HostOp} {offset : BitVec 8} {data : Word} (hu : u.platform = s.platform)
    (hw : s.writeOf op = some (offset, data)) (h : hostAct op u = .next t) : t = u.writeOffset offset data := by
  cases op with
  | send bytes =>
    simp only [hostAct, hostSend] at h
    simp only [State.writeOf] at hw
    split at h
    · rename_i i hd
      rw [hd] at hw
      cases i <;> simp [regWriteOf] at hw <;> obtain ⟨rfl, rfl⟩ := hw <;> cases h <;> rfl
    · cases h
  | writeLanes addr lanes =>
    have hwin : u.windowOffset addr = s.windowOffset addr := by simp [State.windowOffset, hu]
    simp only [hostAct, platformWrite, hwin] at h
    simp only [State.writeOf] at hw
    split at hw
    · split at h
      · cases h
      · rename_i o ho
        rw [ho] at hw
        simp at hw
        obtain ⟨rfl, rfl⟩ := hw
        rw [if_pos (by assumption)] at h
        cases h
        rfl
    · cases hw
  | wait => cases hw
  | readMem sp a => cases hw
  | writeMem sp a v => cases hw
  | readLanes a c => cases hw
  | reset => cases hw

/-- A host operation that is neither a register write nor RESET leaves the registers (R85, R88, 10_state.md R34). -/
theorem hostAct_keeps_regs {s u t : State} {op : HostOp} (hu : u.platform = s.platform)
    (hw : s.writeOf op = none) (hr : op ≠ .reset) (h : hostAct op u = .next t) : t.regs = u.regs := by
  cases op with
  | send bytes =>
    simp only [hostAct, hostSend] at h
    simp only [State.writeOf] at hw
    split at h
    · rename_i i hd
      rw [hd] at hw
      cases i <;> simp [regWriteOf] at hw
      cases h
      rfl
    · cases h
  | writeLanes addr lanes =>
    have hwin : u.windowOffset addr = s.windowOffset addr := by simp [State.windowOffset, hu]
    simp only [hostAct, platformWrite, hwin] at h
    simp only [State.writeOf] at hw
    split at h
    · cases h
    · rename_i o ho
      rw [ho] at hw
      split at h
      · simp_all
      · cases h; rfl
  | wait => cases h; rfl
  | readMem sp a =>
    simp only [hostAct, hostRead] at h
    split at h
    · cases h; rfl
    · obtain ⟨-, h⟩ := withByte_eq_next h
      cases h; rfl
  | writeMem sp a v =>
    simp only [hostAct, hostWrite] at h
    split at h
    · cases h; rfl
    · obtain ⟨-, rfl⟩ := storeByte_eq_next h
      simp
  | readLanes a c =>
    simp only [hostAct, platformRead] at h
    split at h
    · cases h
    · split at h <;> cases h <;> rfl
  | reset => exact absurd rfl hr

end Sys2Proof.Machine
end

