-- ==== Sys2Proof/Tests/Slice0.lean ====
section
/-! SUPPORT. Tests of single steps against spec/95_test_vectors.md, and for every statement with hypotheses a state that meets them. -/

namespace Sys2Proof.Tests

open Sys2Proof.Machine

/-! ## Well-formedness and decoding -/

theorem test_illegal_word_one_is_ill_formed : (Instr.illegalCmd 1).wf = false := by decide
theorem test_illegal_word_two_is_ill_formed : (Instr.illegalCmd 2).wf = false := by decide
theorem test_illegal_word_three_is_well_formed : (Instr.illegalCmd 3).wf = true := by decide

/-- 30_encoding.md R67: 00000000000000000000000000000001. -/
theorem test_decode_encode_word :
    decodeTableWord 32 0b00000000000000000000000000000001 = some .encode := by decide
/-- R68: 00000000000000000000000000000010. -/
theorem test_decode_decode_word :
    decodeTableWord 32 0b00000000000000000000000000000010 = some .decode := by decide
/-- R69, V-X4: the whole word is compared. -/
theorem test_decode_illegal_word :
    decodeTableWord 32 0b10000000000000000000000000000001 = some (.illegalCmd 0x80000001) := by decide
/-- R70, V-R6: `wr HEIGHT, 0xFFFF0003` is the record 0x10CFFFF0003. -/
theorem test_decode_regWr_record :
    decodeTableWord 48 0b10000110011111111111111110000000000000011 = some (.regWr 0x0C 0xFFFF0003) := by decide
/-- R70, V-R1: `rd CAP` is the record 0x02400000000. -/
theorem test_decode_regRd_record :
    decodeTableWord 48 0b00010010000000000000000000000000000000000 = some (.regRd 0x24) := by decide
/-- R72: W = 0 with DATA ≠ 0 is refused. -/
theorem test_decode_read_with_data : decode [0x01, 0x00, 0x00, 0x00, 0x24, 0x00] = .reject .readWithData := by decide
/-- R70, R75: 42 bits, and 5 bytes, are no record. -/
theorem test_decode_too_wide : decode [0x00, 0x00, 0x00, 0x00, 0x24, 0x02] = .reject .recordTooWide := by decide
theorem test_decode_bad_length : decode [0x01, 0x00, 0x00, 0x00, 0x24] = .reject .badLength := by decide

/-! ## States to test on -/

/-- The next state of an outcome. -/
def nextOf (o : Host.Outcome State Fault Refusal) : Option State :=
  match o with
  | .next s => some s
  | .fault _ => none
  | .refused _ => none

/-- Bytes listed from an address on. -/
def cells : Nat → List Byte → Memory
  | _, [] => []
  | a, v :: rest => (a, v) :: cells (a + 1) rest

/-- V-E1's setup: a 2×2 buffer of 3-byte pixels, the payload 0x41 at 0x100, memories of 4096 bytes, idle. -/
def small : State :=
  { State.reset with
    regs := { Regs.reset with width := 2, height := 2, payBase := 0x100, length := 1 }
    pix := cells 0 [0x10, 0x21, 0x32, 0x43, 0x54, 0x65, 0x76, 0x87, 0x98, 0xA9, 0xBA, 0xCB]
    pay := [(0x100, 0x41)]
    platform := { regBase := 0x1000, pixmemLast := 4095, paymemLast := 4095 } }

/-- The small buffer with ENCODE or DECODE accepted, and another length. -/
def checking (op : Op) (length : Word) : State :=
  { small with
    phase := .check, lat := { Latches.reset with op := op }, regs := { small.regs with length := length }, unpolled := true }

/-- The small buffer in the RUN step of a one-byte command that processes slot `i`. -/
def running (op : Op) (row col : BitVec 16) (chan : BitVec 2) (bit : BitVec 3) (pbyte acc : Byte) : State :=
  { small with
    phase := .run
    unpolled := true
    lat := { op := op, n := 1, row := row, col := col, chan := chan, bit := bit, k := 0, pbyte := pbyte, acc := acc } }

/-- The small buffer with the host about to do the given things. -/
def hosting (ops : List HostOp) : State := { small with host := { pending := ops, replies := [] } }

/-- The small buffer after a command has completed, the host not having read BUSY = 0. -/
def unseen (ops : List HostOp) : State := { hosting ops with unpolled := true }

/-! ## Instructions -/

/-- V-R5: bits 31:16 are dropped. -/
theorem test_regWr_width_drops_high_bits :
    (nextOf (exec (.regWr 0x08 0x00012345) small)).map (·.regs.width) = some 0x2345 := by decide
/-- R79: offset 0x09 is not WIDTH. -/
theorem test_regWr_misaligned_ignored :
    (nextOf (exec (.regWr 0x09 5) small)).map (·.regs.width) = some 2 := by decide
/-- V-C: a 2×2 buffer has capacity 1. -/
theorem test_regRd_cap :
    (nextOf (exec (.regRd 0x24) small)).map (·.host.replies) = some [.word 1] := by decide
/-- R85: offset 0x26 is misaligned. -/
theorem test_regRd_misaligned_reads_zero :
    (nextOf (exec (.regRd 0x26) small)).map (·.host.replies) = some [.word 0] := by decide
/-- R83: after `wr CMD, 1` STATUS reads 1. -/
theorem test_encode_sets_busy :
    (nextOf (exec .encode small)).map (fun t => (t.statusWord, t.phase, t.lat.op)) = some (1, .check, .encode) := by decide
/-- V-B2: a command word while busy only sets IGN. -/
theorem test_decode_while_busy_is_dropped :
    (nextOf (exec .decode (checking .encode 1))).map (fun t => (t.statusWord, t.lat.op)) = some (9, .encode) := by decide
theorem test_decode_sets_busy :
    (nextOf (exec .decode small)).map (fun t => (t.statusWord, t.lat.op)) = some (1, .decode) := by decide
/-- V-X2: `wr CMD, 0x7` leaves STATUS 0x32. -/
theorem test_illegalCmd_status :
    (nextOf (exec (.illegalCmd 7) small)).map (fun t => (t.statusWord, t.phase)) = some (0x32, .idle) := by decide

/-! ## Engine steps -/

/-- V-X6: with W = 0 the CHECK step reports InvalidBuffer. -/
theorem test_encodeCheck_invalid_buffer :
    (nextOf (engineStep { State.reset with phase := .check })).map State.statusWord = some 0x12 := by decide
/-- P2: two bytes into capacity 1. -/
theorem test_encodeCheck_capacity_exceeded :
    (nextOf (engineStep (checking .encode 2))).map (fun t => (t.statusWord, t.regs.result)) = some (0x22, 0) := by decide
/-- V-D2: a clamp sets TRUNC and one byte is decoded. -/
theorem test_decodeCheck_clamps :
    (nextOf (engineStep (checking .decode 4))).map (fun t => (t.regs.trunc, t.lat.n, t.phase)) = some (true, 1, .run) := by
  decide
/-- V-F1: PIXMEM_SIZE 12 and PIX_BASE 5 put slot 7 at 12. -/
theorem test_encodeCheck_out_of_range :
    (nextOf (engineStep { checking .encode 1 with
      regs := { small.regs with pixBase := 5 }
      platform := { regBase := 0, pixmemLast := 11, paymemLast := 4095 } })).map
        (fun t => (t.mark.memRange, t.statusWord)) = some (true, 1) := by decide
/-- V-F4: with PIX_BASE 4 slot 7 is at 11, in range. -/
theorem test_encodeCheck_just_in_range :
    (nextOf (engineStep { checking .encode 1 with
      regs := { small.regs with pixBase := 4 }
      platform := { regBase := 0, pixmemLast := 11, paymemLast := 4095 } })).map
        (fun t => (t.mark.memRange, t.phase)) = some (false, .run) := by decide
/-- V-E1: slot 0, byte 0x10, gets bit 0 of 0x41. -/
theorem test_encodeRun_first_slot :
    (nextOf (engineStep (running .encode 0 0 0 0 0 0))).map
      (fun t => (t.readByte .pix 0, t.readByte .pix 1, t.lat.pbyte, t.lat.bit)) = some (0x11, 0x21, 0x41, 1) := by decide
/-- V-E1, V-S2: slot 7 is (1, 0, 1), byte 0x87, and is the last. -/
theorem test_encodeRun_last_slot :
    (nextOf (engineStep (running .encode 1 0 1 7 0x41 0))).map
      (fun t => (t.readByte .pix 7, t.statusWord, t.regs.result)) = some (0x86, 2, 1) := by decide
/-- V-D1: the byte assembled over slots 0 to 6 is written at slot 7. -/
theorem test_decodeRun_last_slot :
    (nextOf (engineStep { running .decode 1 0 1 7 0 0x41 with pix := [(7, 0x86)] })).map
      (fun t => (t.readByte .pay 0x100, t.readByte .pix 7, t.statusWord)) = some (0x41, 0x86, 2) := by decide
/-- R122: at bit 0 the accumulator starts from 0. -/
theorem test_decodeRun_first_slot_restarts :
    (nextOf (engineStep { running .decode 0 0 0 0 0 0xFF with pix := [(0, 0x10)] })).map (·.lat.acc) = some 0 := by decide
/-- V-S: slot 3 of a 2-wide buffer of 4-byte pixels at 0x40 is at 0x44. -/
theorem test_slotAddr_skips_the_fourth_channel :
    State.slotAddr { small with regs := { small.regs with channels := 4, pixBase := 0x40 } } 3 = 0x44 := by decide
/-- V-C, and 41_sequencer.md R95 for the slot count (log 15). -/
theorem test_capacity_of_the_largest_buffer :
    slotCount 65535 65535 = 12884508675 ∧ capacityBytes 65535 65535 = 1610563584 := by decide

/-! ## Host actions and steps -/

/-- V-F5: a memory read while busy is HostRace. -/
theorem test_hostRead_while_busy :
    (nextOf (hostAct (.readMem .pix 0) (checking .encode 1))).map (·.mark.hostRace) = some true := by decide
/-- V-F6: RESET keeps the fault mark. -/
theorem test_reset_keeps_mark :
    (nextOf (hostAct .reset { small with mark := { memRange := true, hostRace := false } })).map
      (fun t => (t.regs, t.mark.memRange)) = some (Regs.reset, true) := by decide
/-- R44: bits 7:0 of a register are in the first lane. -/
theorem test_lanes_are_little_endian :
    (nextOf (hostAct (.writeLanes 0x1014 [0x78, 0x56, 0x34, 0x12]) small)).map (·.regs.pixBase) = some 0x12345678 := by
  decide
/-- R45: a half-word access inside the window reads 0. -/
theorem test_narrow_access_reads_zero :
    (nextOf (hostAct (.readLanes 0x1010 2) small)).map (·.host.replies) = some [.lanes [0, 0]] := by decide
/-- V-R4 as the first step after reset. -/
theorem test_first_step_runs_the_record :
    (nextOf (step (State.reset.withFetchWord 48 0x10800000002))).map (·.regs.width) = some 2 := by decide
/-- V-X1 as the first step after reset. -/
theorem test_first_step_runs_the_command_word :
    (nextOf (step (State.reset.withFetchWord 32 0))).map (·.regs.err) = some 3 := by decide

/-! ## Witnesses: states that meet the statements' hypotheses -/

theorem isNext_of_some {o : Host.Outcome State Fault Refusal} {t : State} (h : nextOf o = some t) : o = .next t := by
  cases o <;> simp_all [nextOf]

theorem next_exists {o : Host.Outcome State Fault Refusal} (h : (nextOf o).isSome = true) : ∃ t, o = .next t := by
  cases o with
  | next s => exact ⟨s, rfl⟩
  | fault r => cases h
  | refused r => cases h

theorem witness_ResetSetsEveryRegister : ∃ s t, hostAct .reset s = .next t := ⟨small, _, rfl⟩

theorem witness_ConfigWriteWhileIdleStores : small.phase = .idle := rfl

theorem witness_BusyWritesAreDroppedAndSetIgn :
    (checking .encode 1).phase ≠ .idle ∧ (0x1C : BitVec 8) ∈ [(0x00 : BitVec 8), 0x08, 0x0C, 0x10, 0x14, 0x18, 0x1C] ∧
      Instr.illegalCmd 7 ∈ [Instr.encode, .decode, .illegalCmd 7] := by decide

theorem witness_ReadOnlyRegisterWritesChangeNothing : (0x24 : BitVec 8) ∈ [(0x04 : BitVec 8), 0x20, 0x24] := by decide

/-- 0x25 is misaligned, 0x28 the first and 0xFC the last reserved word. -/
theorem witness_ReservedOffsetWritesChangeNothing :
    (0x25 : BitVec 8).toNat % 4 ≠ 0 ∧ 0x28 ≤ (0x28 : BitVec 8).toNat ∧ 0x28 ≤ (0xFC : BitVec 8).toNat := by decide

theorem witness_CommandWordIsAcceptedWhileIdle :
    small.phase = .idle ∧ (0 : Word) ≠ 0x00000001 ∧ (0 : Word) ≠ 0x00000002 ∧
      (3 : Word) ≠ 0x00000001 ∧ (3 : Word) ≠ 0x00000002 := by decide

theorem witness_EncodeAndDecodeStartTheirCommand :
    small.phase = .idle ∧
      (Instr.encode, Op.encode) ∈ [(Instr.encode, Op.encode), (Instr.decode, Op.decode)] ∧
      (Instr.decode, Op.decode) ∈ [(Instr.encode, Op.encode), (Instr.decode, Op.decode)] := by decide

theorem witness_IllegalCommandCompletesAtOnce :
    small.phase = .idle ∧ (Instr.illegalCmd 0).wf = true ∧ (Instr.illegalCmd 0xFFFFFFFF).wf = true := by decide

theorem witness_InstructionFrame :
    (∃ t, exec .encode small = .next t) ∧ (∃ t, exec (.regWr 0x08 5) small = .next t) ∧
      (∃ t, exec (.regWr 0x00 7) small = .next t) ∧ ∃ t, exec (.regRd 0x24) small = .next t :=
  ⟨⟨_, rfl⟩, ⟨_, rfl⟩, ⟨_, rfl⟩, ⟨_, rfl⟩⟩

theorem witness_PlatformAccessReachesTheWindow : ([0x01, 0x02] : List Byte).length ≠ 4 ∧ 1 ≠ 4 ∧ 8 ≠ 4 := by decide

/-- 4095 is the last address of both memories. -/
theorem witness_HostMemoryAccessWhileIdle :
    small.phase = .idle ∧ small.unpolled = false ∧ 4095 < small.platform.size .pix ∧ 4095 < small.platform.size .pay ∧
      (Space.pay, 0) ≠ (Space.pix, 0) := by decide

/-- While busy, and while idle after a completion that the host has not seen. -/
theorem witness_HostAccessWhileBusyIsRace :
    (checking .decode 1).phase ≠ .idle ∧ (unseen []).phase = .idle ∧ (unseen []).unpolled = true ∧
      HostOp.readMem .pix 0 ∈ [HostOp.readMem .pix 0, HostOp.writeMem .pix 0 1] := by decide

theorem witness_WaitHoldsUntilIdle :
    (hosting [.wait]).host.pending = .wait :: [] ∧ (hosting [.wait]).phase = .idle ∧
      (hosting [.wait]).mark.hostRace = false ∧
      { hosting [.wait] with phase := Phase.check }.host.pending = .wait :: [] ∧
      { hosting [.wait] with phase := Phase.check }.phase ≠ .idle := by decide

/-- The last slot of a 2×2 buffer. -/
theorem witness_SlotIndexInverse : 11 < slotCount small.W small.H := by decide

theorem witness_InRangeCoversEverySlot :
    small.invalidBuffer = false ∧ small.inRange 1 = true ∧ small.inRange 1000000 = false := by decide

theorem witness_CapacityIsMonotonic : 1 * 2 ≤ 3 * 1 := by decide

/-- The end of a row, and the last slot of the buffer. -/
theorem witness_AdvanceMovesToTheNextSlot :
    (running .encode 1 1 2 3 0 0).lat.row.toNat < small.H ∧ (running .encode 1 1 2 3 0 0).lat.col.toNat < small.W ∧
      (running .encode 1 1 2 3 0 0).lat.chan.toNat < 3 ∧ (running .encode 1 1 2 3 0 0).lat.k.toNat + 1 < 2 ^ 32 := by
  decide

/-- Each clause: C = 2, one byte too many, out of range, no byte, one byte. -/
theorem witness_EncodeCheckStep :
    let s := checking .encode 1
    s.phase = .check ∧ s.lat.op = .encode ∧
      State.C { s with regs := { s.regs with channels := 2 } } < 3 ∧
      slotCount s.W s.H < (checking .encode 2).L * 8 ∧
      0 < s.W ∧ 0 < s.H ∧ 3 ≤ s.C ∧ s.L * 8 ≤ slotCount s.W s.H ∧ s.L ≠ 0 ∧ s.inRange s.L = true ∧
      (checking .encode 0).L = 0 ∧
      State.inRange { s with platform := { s.platform with pixmemLast := 6 } } s.L = false := by decide

theorem witness_EncodeRunStep :
    let s := running .encode 0 0 0 0 0 0
    let l := running .encode 1 0 1 7 0x41 0
    s.phase = .run ∧ s.lat.op = .encode ∧ s.cursorAddr < s.platform.size .pix ∧
      s.payAddr s.lat.k.toNat < s.platform.size .pay ∧ s.lat.bit = 0 ∧ s.advance.lat.k ≠ s.lat.n ∧
      l.cursorAddr < l.platform.size .pix ∧ l.lat.bit ≠ 0 ∧ l.advance.lat.k = l.lat.n := by decide

theorem witness_EncodeKeepsHigherBits :
    (running .encode 0 0 0 0 0 0).phase = .run ∧ (running .encode 0 0 0 0 0 0).lat.op = .encode ∧
      ∃ t, engineStep (running .encode 0 0 0 0 0 0) = .next t :=
  ⟨rfl, rfl, next_exists (by decide)⟩

theorem witness_AboutToSend : (hosting [.send (encode .encode)]).AboutToSend .encode ∧
    (hosting [.send (encode .decode)]).AboutToSend .decode := ⟨⟨rfl, rfl, rfl⟩, ⟨rfl, rfl, rfl⟩⟩

theorem small_is_acceptable : small.Acceptable 1 := ⟨by decide, by decide, by decide⟩

theorem small_acceptable (ops : List HostOp) : (hosting ops).Acceptable 1 := small_is_acceptable

/-- One byte too many, and an invalid buffer. -/
theorem witness_EncodeFailsFast :
    let s := { hosting [.send (encode .encode)] with regs := { small.regs with length := 2 } }
    let u := { hosting [.send (encode .encode)] with regs := { small.regs with width := 0 } }
    s.AboutToSend .encode ∧ s.cap < s.L ∧ u.AboutToSend .encode ∧ u.invalidBuffer = true :=
  ⟨⟨rfl, rfl, rfl⟩, by decide, ⟨rfl, rfl, rfl⟩, by decide⟩

theorem witness_EncodeWritesExactlyThePayloadBits :
    (hosting [.send (encode .encode)]).AboutToSend .encode ∧
      (hosting [.send (encode .encode)]).Acceptable (hosting [.send (encode .encode)]).L :=
  ⟨witness_AboutToSend.1, small_acceptable _⟩

/-- Each clause: H = 0, a clamp, no clamp, no byte, out of range. -/
theorem witness_DecodeCheckStep :
    let s := checking .decode 4
    s.phase = .check ∧ s.lat.op = .decode ∧
      State.H { s with regs := { s.regs with height := 0 } } = 0 ∧
      0 < s.W ∧ 0 < s.H ∧ 3 ≤ s.C ∧ 1 = min s.L (slotCount s.W s.H / 8) ∧ slotCount s.W s.H < s.L * 8 ∧
      s.inRange 1 = true ∧ ¬ slotCount s.W s.H < (checking .decode 1).L * 8 ∧
      0 = min (checking .decode 0).L (slotCount s.W s.H / 8) ∧
      State.inRange { s with platform := { s.platform with paymemLast := 0x0FF } } 1 = false := by decide

theorem witness_DecodeRunStep :
    let s := running .decode 0 0 0 0 0 0
    let l := running .decode 1 0 1 7 0 0x41
    s.phase = .run ∧ s.lat.op = .decode ∧ s.cursorAddr < s.platform.size .pix ∧ s.lat.bit ≠ 7 ∧
      s.advance.lat.k ≠ s.lat.n ∧
      l.cursorAddr < l.platform.size .pix ∧ l.lat.bit = 7 ∧ l.payAddr l.lat.k.toNat < l.platform.size .pay ∧
      l.advance.lat.k = l.lat.n := by decide

theorem witness_EachCommandLeavesTheOtherMemory :
    (running .decode 0 0 0 0 0 0).lat.op = .decode ∧ (∃ t, engineStep (running .decode 0 0 0 0 0 0) = .next t) ∧
      (running .encode 0 0 0 0 0 0).lat.op = .encode ∧ ∃ t, engineStep (running .encode 0 0 0 0 0 0) = .next t :=
  ⟨rfl, next_exists (by decide), rfl, next_exists (by decide)⟩

theorem witness_DecodeRebuildsTheBytes :
    (hosting [.send (encode .decode)]).AboutToSend .decode ∧
      1 = min (hosting [.send (encode .decode)]).L (hosting [.send (encode .decode)]).cap ∧
      (hosting [.send (encode .decode)]).Acceptable 1 :=
  ⟨witness_AboutToSend.2, by decide, small_acceptable _⟩

/-- A 3×2 buffer: 18 slots, so that two bytes fit. -/
def wide (length : Word) (ops : List HostOp) : State :=
  { small with
    regs := { small.regs with width := 3, length := length }
    pix := cells 0 [0x10, 0x21, 0x32, 0x43, 0x54, 0x65, 0x76, 0x87, 0x98, 0xA9, 0xBA, 0xCB, 0xDC, 0xED, 0xFE, 0x0F, 0x1E, 0x2D]
    host := { pending := ops, replies := [] } }

/-- The state a DECODE starts from after an ENCODE that left `t`: another PAY_BASE, a length above capacity. -/
def decodingAfter (t : State) : State :=
  { wide 4 [.send (encode .decode)] with
    pix := t.pix, regs := { (wide 4 []).regs with payBase := 0x200 } }

theorem decodingAfter_ready (t : State) :
    (wide 1 []).L ≤ (decodingAfter t).L ∧ 2 = min (decodingAfter t).L (decodingAfter t).cap ∧
      (decodingAfter t).Acceptable 2 := by
  have h : (wide 1 []).L ≤ (decodingAfter small).L ∧ 2 = min (decodingAfter small).L (decodingAfter small).cap := by decide
  have h' : (decodingAfter small).Acceptable 2 := ⟨by decide, by decide, by decide⟩
  exact ⟨h.1, h.2, h'⟩

/-- One byte encoded and two decoded: byte 0 falls under the first clause, byte 1 under the second. -/
theorem witness_DecodeAfterEncodeGivesThePayload :
    ∃ t, (wide 1 [.send (encode .encode)]).AboutToSend .encode ∧ (wide 1 [.send (encode .encode)]).Acceptable 1 ∧
      Host.Core.run core (2 + 8 * 1) (wide 1 [.send (encode .encode)]) = .next t ∧
      (decodingAfter t).AboutToSend .decode ∧ (decodingAfter t).platform = (wide 1 []).platform ∧
      (decodingAfter t).W = (wide 1 []).W ∧ (decodingAfter t).H = (wide 1 []).H ∧ (decodingAfter t).C = (wide 1 []).C ∧
      (decodingAfter t).pixBase = (wide 1 []).pixBase ∧ (decodingAfter t).pix = t.pix ∧
      ((wide 1 []).L ≤ (decodingAfter t).L ∧ 2 = min (decodingAfter t).L (decodingAfter t).cap ∧
        (decodingAfter t).Acceptable 2) ∧
      0 < (wide 1 []).L ∧ (wide 1 []).L ≤ 1 ∧ 1 < 2 := by
  obtain ⟨t, ht⟩ := next_exists (o := Host.Core.run core (2 + 8 * 1) (wide 1 [.send (encode .encode)])) (by decide)
  exact ⟨t, ⟨rfl, rfl, rfl⟩, ⟨by decide, by decide, by decide⟩, ht, ⟨rfl, rfl, rfl⟩, rfl, rfl, rfl, rfl, rfl, rfl,
    decodingAfter_ready t, by decide, by decide, by decide⟩

/-- The small buffer with a command and a RESET to come, and the engine to take its CHECK and `r` RUN steps between them. -/
def resetting (i : Instr) (r : Nat) : State :=
  { hosting [.send (encode i), .reset] with sched := List.replicate (1 + r) .engine ++ [.host] }

/-- No RUN step, and all but the last. -/
theorem witness_ResetLeavesAPrefixOfEncode :
    (resetting .encode 7).host.pending = [.send (encode .encode), .reset] ∧
      (resetting .encode 7).sched = List.replicate (1 + 7) .engine ++ [.host] ∧ (resetting .encode 7).phase = .idle ∧ (resetting .encode 7).mark = { memRange := false, hostRace := false } ∧
      (resetting .encode 7).Acceptable (resetting .encode 7).L ∧ 7 < 8 * (resetting .encode 7).L ∧
      0 < 8 * (resetting .encode 0).L :=
  ⟨rfl, rfl, rfl, rfl, ⟨by decide, by decide, by decide⟩, by decide, by decide⟩

/-- Two bytes to decode and RESET after 8 and after 15 RUN steps: output byte 0 is written, byte 1 is not. -/
def resettingWide (r : Nat) : State :=
  { wide 2 [.send (encode .decode), .reset] with sched := List.replicate (1 + r) .engine ++ [.host] }

theorem witness_ResetLeavesAPrefixOfDecode :
    (resettingWide 15).host.pending = [.send (encode .decode), .reset] ∧
      (resettingWide 15).sched = List.replicate (1 + 15) .engine ++ [.host] ∧ (resettingWide 15).phase = .idle ∧
      (resettingWide 15).mark = { memRange := false, hostRace := false } ∧
      2 = min (resettingWide 15).L (resettingWide 15).cap ∧ (resettingWide 15).Acceptable 2 ∧ 15 < 8 * 2 ∧
      0 < 15 / 8 ∧ 0 < 8 / 8 ∧ 8 < 8 * 2 :=
  ⟨rfl, rfl, rfl, rfl, by decide, ⟨by decide, by decide, by decide⟩, by decide, by decide, by decide, by decide⟩

theorem witness_ResetBeforeCheckLeavesTheMemories :
    let s := { hosting [.send (encode .decode), .reset] with sched := [.host] }
    Instr.decode ∈ [Instr.encode, .decode] ∧ s.phase = .idle ∧ s.mark = { memRange := false, hostRace := false } ∧
      s.host.pending = [.send (encode .decode), .reset] ∧ s.sched = [.host] := by decide

theorem witness_CommandTakesExactlyItsSteps :
    small.L = 1 ∧ min small.L small.cap = 1 ∧ small.Acceptable 1 ∧ 8 < 1 + 8 * 1 :=
  ⟨by decide, by decide, small_is_acceptable, by decide⟩

theorem small_memInv (s : State) (hx : s.pix = small.pix) (hy : s.pay = small.pay) (hp : s.platform = small.platform) :
    s.MemInv := by
  have h : small.MemInv := ⟨by decide, by decide, by decide, by decide⟩
  exact h.of_eq hx hy hp

/-- A good state in the last RUN step of an ENCODE. -/
theorem running_inv : (running .encode 1 0 1 7 0x41 0).Inv where
  held := fun _ => rfl
  mem := small_memInv _ rfl rfl rfl
  flags := ⟨by decide, by decide, by decide, by decide⟩
  run := fun _ => ⟨by decide, by decide, by decide, by decide, by decide, by decide, by decide, by decide, by decide,
    by decide, by decide⟩

theorem witness_RegisterReadReturnsItsWord :
    (0x01 : BitVec 8).toNat % 4 ≠ 0 ∧ 0x28 ≤ (0x28 : BitVec 8).toNat ∧
      (running .encode 1 0 1 7 0x41 0).Inv ∧ (running .encode 1 0 1 7 0x41 0).phase ≠ .idle :=
  ⟨by decide, by decide, running_inv, by decide⟩

theorem witness_EveryCommandCompletes :
    (running .encode 1 0 1 7 0x41 0).Inv ∧ (running .encode 1 0 1 7 0x41 0).phase ≠ .idle ∧
      (running .encode 1 0 1 7 0x41 0).mark.memRange = false := ⟨running_inv, by decide, rfl⟩

theorem witness_StepKeepsTheInvariant :
    (running .encode 1 0 1 7 0x41 0).Inv ∧ ∃ t, step (running .encode 1 0 1 7 0x41 0) = .next t :=
  ⟨running_inv, next_exists (by decide)⟩

theorem witness_EngineNeverStops :
    (running .encode 1 0 1 7 0x41 0).Inv ∧ (running .encode 1 0 1 7 0x41 0).mark.memRange = false := ⟨running_inv, rfl⟩

/-- An engine step, and a host step whose operation is not RESET, both while busy. -/
theorem witness_ConfigurationIsFixedWhileBusy :
    (∃ t, step (running .encode 0 0 0 0 0 0) = .next t) ∧ (running .encode 0 0 0 0 0 0).phase ≠ .idle ∧
      (running .encode 0 0 0 0 0 0).host.pending = [] ∧ ∃ t, engineStep (running .encode 0 0 0 0 0 0) = .next t :=
  ⟨next_exists (by decide), by decide, rfl, next_exists (by decide)⟩

/-- The host about to send bytes while an ENCODE is in CHECK, and to move first. -/
def interrupting (ops : List HostOp) : State :=
  { checking .encode 1 with host := { pending := ops, replies := [] }, sched := [.host] }

/-- DONE, ERR and RESULT at the last slot and at a failed CHECK, DONE and ERR at an illegal word,
TRUNC at a clamp, IGN at a busy write. -/
theorem witness_FlagsAreSetOnlyByTheirWriters :
    let last := running .encode 1 0 1 7 0x41 0
    let illegal := hosting [.send (encode (.illegalCmd 7))]
    let busy := interrupting [.send (encode (.regWr 0x08 9))]
    last.regs.done = false ∧ (nextOf (step last)).map (fun t => (t.regs.done, t.regs.result)) = some (true, 1) ∧
      (nextOf (step (checking .encode 2))).map (fun t => (t.regs.done, t.regs.err)) = some (true, 2) ∧
      illegal.regs.done = false ∧ (nextOf (step illegal)).map (fun t => (t.regs.done, t.regs.err)) = some (true, 3) ∧
      (checking .decode 4).regs.trunc = false ∧ (nextOf (step (checking .decode 4))).map (·.regs.trunc) = some true ∧
      busy.regs.ign = false ∧ (nextOf (step busy)).map (·.regs.ign) = some true := by decide

/-- PIXMEM and PAYMEM each by the engine and by the idle host. -/
theorem witness_MemoryIsWrittenOnlyByItsWriters :
    (nextOf (step (running .encode 0 0 0 0 0 0))).map (fun t => decide (t.pix = small.pix)) = some false ∧
      (nextOf (step (hosting [.writeMem .pix 0 7]))).map (fun t => decide (t.pix = small.pix)) = some false ∧
      (running .decode 1 0 1 7 0 0x41).lat.bit = 7 ∧
      (nextOf (step { running .decode 1 0 1 7 0 0x41 with pay := [] })).map (fun t => decide (t.pay = [])) = some false ∧
      (nextOf (step (hosting [.writeMem .pay 0x100 7]))).map (fun t => decide (t.pay = small.pay)) = some false := by decide

/-- A state in which DONE, TRUNC, IGN and RESULT are set, and one with an error. -/
def reported (err : BitVec 4) (ops : List HostOp) : State :=
  { hosting ops with regs := { small.regs with done := true, ign := true, trunc := err == 0, err := err, result := if err = 0 then 1 else 0 } }

theorem reported_inv : (reported 0 [.reset]).Inv ∧ (reported 2 [.send (encode .encode)]).Inv :=
  ⟨⟨fun h => absurd rfl h, small_memInv _ rfl rfl rfl, ⟨by decide, by decide, by decide, by decide⟩, fun h => by cases h⟩,
    ⟨fun h => absurd rfl h, small_memInv _ rfl rfl rfl, ⟨by decide, by decide, by decide, by decide⟩, fun h => by cases h⟩⟩

/-- RESET clears DONE, TRUNC, IGN and RESULT; acceptance clears ERR. -/
theorem witness_FlagsAreClearedOnlyByAcceptanceOrReset :
    ((reported 0 [.reset]).Inv ∧ (reported 2 [.send (encode .encode)]).Inv) ∧
      (nextOf (step (reported 0 [.reset]))).map (fun t => (t.regs.done, t.regs.trunc, t.regs.ign, t.regs.result)) =
        some (false, false, false, 0) ∧
      (nextOf (step (reported 2 [.send (encode .encode)]))).map (·.regs.err) = some 0 :=
  ⟨reported_inv, by decide, by decide⟩

/-- A raced host in the last RUN step of an ENCODE: the engine goes on, the host does not. -/
theorem witness_RacedHostNeverMovesAgain :
    let s := { running .encode 1 0 1 7 0x41 0 with
      mark := { memRange := false, hostRace := true }, host := { pending := [.reset], replies := [] } }
    s.mark.hostRace = true ∧ ∃ t, Host.Core.run core 1 s = .next t := ⟨rfl, next_exists (by decide)⟩

theorem witness_FaultMarkIsNeverCleared :
    ∃ t, step { hosting [.reset] with mark := { memRange := true, hostRace := false } } = .next t :=
  next_exists (by decide)

theorem witness_FaultedAgentHasNoFurtherStep :
    State.mover { checking .encode 1 with mark := { memRange := true, hostRace := false } } = none ∧
      State.mover { hosting [.reset] with mark := { memRange := false, hostRace := true } } = none ∧
      small.mark = { memRange := false, hostRace := false } ∧ small.mover = none := by decide

theorem witness_DeadLatchesCannotBeSeen :
    State.live { small with lat := { Latches.reset with k := 5 } } = State.live small := rfl

theorem witness_AccessOrderDoesNotDependOnData :
    State.control (running .encode 0 0 0 0 0x41 0) = State.control { running .encode 0 0 0 0 0x00 9 with pix := [(0, 1)] } := rfl

theorem witness_StepRunsTheDecodedInstruction :
    let s := hosting [.send [0x02, 0x00, 0x00, 0x00, 0x08, 0x01]]
    s.host.pending = .send [0x02, 0x00, 0x00, 0x00, 0x08, 0x01] :: [] ∧
      decode [0x02, 0x00, 0x00, 0x00, 0x08, 0x01] = .ok (.regWr 0x08 2) ∧ s.mover = some .host := by decide

theorem witness_PlacedInstructionRunsNext :
    (checking .encode 1).mark.hostRace = false ∧ decodeTableWord 48 0x00400000000 = some (.regRd 0x04) := by decide

theorem witness_AnyInterleavingIsPossible :
    let s := { checking .encode 1 with host := { pending := [.reset], replies := [] }, sched := [.host] }
    (s.hostReady = true ∧ s.engineReady = true ∧ s.sched = .host :: []) ∧
      ((checking .encode 1).hostReady = false ∧ (checking .encode 1).engineReady = true) ∧
      ((hosting [.reset]).hostReady = true ∧ (hosting [.reset]).engineReady = false) := by decide

theorem witness_FinalStateStays : small.Final := ⟨rfl, rfl, rfl⟩

theorem witness_DecodeOfEncodeIsTheInstruction : (Instr.illegalCmd 0).wf = true := by decide

theorem witness_EncodeOfDecodeIsTheBytes : decode [0x00, 0x00, 0x00, 0x00, 0xFC, 0x00] = .ok (.regRd 0xFC) := by decide

theorem witness_ReadRecordWithDataIsRefused :
    (1 : Word) ≠ 0 ∧ (hosting [.send (recordBytes (record false 0x24 1))]).host.pending =
      .send (recordBytes (record false 0x24 1)) :: [] ∧
      (hosting [.send (recordBytes (record false 0x24 1))]).mover = some .host := by decide

/-- A command starts; a record, `wait` and four lanes read BUSY = 0; an access before that. -/
theorem witness_AccessIsForbiddenUntilBusyZeroIsRead :
    (hosting [.send (encode .decode)]).unpolled = false ∧
      (nextOf (step (hosting [.send (encode .decode)]))).map (·.unpolled) = some true ∧
      (unseen []).unpolled = true ∧
      (nextOf (step (unseen [.send (encode (.regRd 0x04))]))).map (·.unpolled) = some false ∧
      (nextOf (step (unseen [.wait]))).map (·.unpolled) = some false ∧
      (nextOf (step (unseen [.readLanes 0x1004 4]))).map (·.unpolled) = some false ∧
      (unseen [.writeMem .pay 0 1]).mover = some .host ∧
      (nextOf (step (unseen [.writeMem .pay 0 1]))).map (·.mark.hostRace) = some true := by decide

/-- R159: after completion, before BUSY = 0 has been read, a host access is HostRace. -/
theorem test_unseen_access_is_race :
    (nextOf (step (unseen [.readMem .pix 0]))).map (·.mark.hostRace) = some true := by decide
/-- R159: a read of another register does not end the stretch, nor does one of STATUS that returns BUSY = 1, nor a RESET. -/
theorem test_other_reads_do_not_poll :
    (nextOf (step (unseen [.send (encode (.regRd 0x20))]))).map (·.unpolled) = some true ∧
      (nextOf (hostAct (.send (encode (.regRd 0x04))) (checking .encode 1))).map (·.unpolled) = some true ∧
      (nextOf (step (unseen [.reset]))).map (·.unpolled) = some true := by decide

end Sys2Proof.Tests
end

section
/-! Whose turn a step is, and which choice it uses up (00_scope.md R12, 70_reset_and_hazards.md R170). -/

namespace Sys2Proof.Machine

/-- A step in which an agent can move is that agent's turn, after the choice taken is used up. -/
theorem step_of_mover {s : State} {a : Agent} (h : s.mover = some a) : step s = turnOf a s.spendChoice := by
  simp only [step, nextTurn, h]

/-! Both agents can move: the head of `sched` decides, and is used up. -/

theorem mover_of_both_ready {s : State} {a : Agent} {rest : List Agent} (hh : s.hostReady = true)
    (he : s.engineReady = true) (hs : s.sched = a :: rest) : s.mover = some a := by
  simp [State.mover, hh, he, hs]

theorem spendChoice_of_both_ready {s : State} {a : Agent} {rest : List Agent} (hh : s.hostReady = true)
    (he : s.engineReady = true) (hs : s.sched = a :: rest) : s.spendChoice = { s with sched := rest } := by
  simp [State.spendChoice, hh, he, hs]

/-! One agent can move: it does, and no choice is used up. -/

theorem mover_of_engine_only {s : State} (hh : s.hostReady = false) (he : s.engineReady = true) :
    s.mover = some .engine := by
  simp [State.mover, hh, he]

theorem mover_of_host_only {s : State} (hh : s.hostReady = true) (he : s.engineReady = false) :
    s.mover = some .host := by
  simp [State.mover, hh, he]

theorem spendChoice_of_host_not_ready {s : State} (hh : s.hostReady = false) : s.spendChoice = s := by
  simp [State.spendChoice, hh]

theorem spendChoice_of_engine_not_ready {s : State} (he : s.engineReady = false) : s.spendChoice = s := by
  simp [State.spendChoice, he]

/-- Settles O50, by the three cases of which agents can move. -/
theorem anyInterleavingIsPossible : Obligations.AnyInterleavingIsPossible := by
  intro s
  refine ⟨?both, ?engineOnly, ?hostOnly⟩
  case both =>
    intro a rest hh he hs
    rw [step_of_mover (mover_of_both_ready hh he hs), spendChoice_of_both_ready hh he hs]
  case engineOnly =>
    intro hh he
    rw [step_of_mover (mover_of_engine_only hh he), spendChoice_of_host_not_ready hh, turnOf]
  case hostOnly =>
    intro hh he
    rw [step_of_mover (mover_of_host_only hh he), spendChoice_of_engine_not_ready he, turnOf]

end Sys2Proof.Machine
end

section
/-! How the cursor moves (41_sequencer.md R101): one slot of the traversal and one bit of the payload, and nothing wraps. -/

namespace Sys2Proof.Machine

/-! Each half of advance() leaves the other half's latches. -/

@[simp] theorem advanceBit_row (c : Latches) : c.advanceBit.row = c.row := by
  unfold Latches.advanceBit; split <;> rfl
@[simp] theorem advanceBit_col (c : Latches) : c.advanceBit.col = c.col := by
  unfold Latches.advanceBit; split <;> rfl
@[simp] theorem advanceBit_chan (c : Latches) : c.advanceBit.chan = c.chan := by
  unfold Latches.advanceBit; split <;> rfl
@[simp] theorem advancePixel_k (c : Latches) (w : Nat) : (c.advancePixel w).k = c.k := by
  unfold Latches.advancePixel; split <;> [split <;> rfl; rfl]
@[simp] theorem advancePixel_bit (c : Latches) (w : Nat) : (c.advancePixel w).bit = c.bit := by
  unfold Latches.advancePixel; split <;> [split <;> rfl; rfl]

/-- The payload half moves to the next bit of the payload. -/
theorem advanceBit_bitIndex {c : Latches} (hk : c.k.toNat + 1 < 2 ^ 32) :
    8 * c.advanceBit.k.toNat + c.advanceBit.bit.toNat = 8 * c.k.toNat + c.bit.toNat + 1 := by
  have hbit := c.bit.isLt
  unfold Latches.advanceBit
  split
  · simp only [BitVec.toNat_ofNat, BitVec.reduceToNat]
    omega
  · simp only [BitVec.toNat_ofNat]
    omega

/-- The pixel half moves to the next slot, and stays inside its row. -/
theorem advancePixel_slotIndex {c : Latches} {w : Nat} (hrow : c.row.toNat + 1 < 65536) (hw : w < 65536)
    (hcol : c.col.toNat < w) (hchan : c.chan.toNat < 3) :
    slotIndex w (c.advancePixel w).row.toNat (c.advancePixel w).col.toNat (c.advancePixel w).chan.toNat =
      slotIndex w c.row.toNat c.col.toNat c.chan.toNat + 1 ∧
      (c.advancePixel w).col.toNat < w ∧ (c.advancePixel w).chan.toNat < 3 := by
  unfold Latches.advancePixel slotIndex
  split
  · split
    · have hsucc : (c.row.toNat + 1) * w = c.row.toNat * w + w := Nat.succ_mul _ _
      simp only [BitVec.toNat_ofNat, BitVec.reduceToNat, Nat.mod_eq_of_lt hrow, hsucc]
      omega
    · simp only [BitVec.toNat_ofNat, BitVec.reduceToNat]
      omega
  · simp only [BitVec.toNat_ofNat]
    omega

end Sys2Proof.Machine
end

section
/-! What the invariant speaks of, and the two ways a step keeps it: it changes nothing of that, or it leaves the block idle. -/

namespace Sys2Proof.Machine

/-- `t` agrees with `s` in all the flags, the cursor and the fault mark that `FlagInv` and `RunInv` speak of:
only IGN, the two data latches and what stands outside the command may differ. -/
structure State.SameCommand (s t : State) : Prop where
  regs     : ∃ ign, t.regs = { s.regs with ign := ign }
  phase    : t.phase = s.phase
  lat      : ∃ pbyte acc, t.lat = { s.lat with pbyte := pbyte, acc := acc }
  memRange : t.mark.memRange = s.mark.memRange
  platform : t.platform = s.platform

theorem State.SameCommand.sameConfig {s t : State} (h : s.SameCommand t) : t.regs.SameConfig s.regs := by
  obtain ⟨ign, hr⟩ := h.regs
  simp [Regs.SameConfig, hr]

theorem State.FlagInv.of_sameCommand {s t : State} (h : s.FlagInv) (hst : s.SameCommand t) : t.FlagInv := by
  obtain ⟨⟨ign, hr⟩, hph, -, hm, -⟩ := hst
  constructor
  · simpa [hr] using h.err_legal
  · simpa [hr] using h.trunc_clean
  · simpa [hr, State.busy, hph] using h.busy_quiet
  · simpa [hr, hph, hm] using h.check_trunc

theorem State.RunInv.of_sameCommand {s t : State} (h : s.RunInv) (hst : s.SameCommand t) : t.RunInv := by
  obtain ⟨hW, hH, -, -, -, hL, hcap, hvalid⟩ := operands_congr hst.sameConfig
  have hrange := inRange_congr hst.sameConfig hst.platform
  obtain ⟨⟨ign, hr⟩, -, ⟨pbyte, acc, hl⟩, hm, -⟩ := hst
  constructor
  · rw [hvalid]; exact h.valid
  · simpa [State.goalBytes, hl, hL, hcap] using h.n_goal
  · simpa [hl, hcap] using h.n_cap
  · simpa [hl, hrange] using h.ranged
  · simpa [hl] using h.k_lt
  · simpa [hl, hH] using h.row_lt
  · simpa [hl, hW] using h.col_lt
  · simpa [hl] using h.chan_lt
  · simpa [hl, hW] using h.cursor
  · simpa [hr, hl, hcap, hL] using h.trunc_iff
  · rw [hm]; exact h.unmarked

theorem State.Inv.of_sameCommand {s t : State} (h : s.Inv) (hst : s.SameCommand t) (hmem : t.MemInv)
    (hheld : t.phase ≠ .idle → t.unpolled = true) : t.Inv where
  held := hheld
  mem := hmem
  flags := h.flags.of_sameCommand hst
  run := fun hrun => (h.run (hst.phase ▸ hrun)).of_sameCommand hst

/-- An idle state is good when its memories are and it reports a legal outcome. -/
theorem State.Inv.of_idle {s : State} (hph : s.phase = .idle) (hmem : s.MemInv) (herr : s.regs.err.toNat ≤ 3)
    (htrunc : s.regs.trunc = true → s.regs.err = 0) : s.Inv where
  held := fun h => absurd hph h
  mem := hmem
  flags := ⟨herr, htrunc, by simp [State.busy, hph], by simp [hph]⟩
  run := by simp [hph]

/-- Completion with a code that goes with TRUNC leaves a good state. -/
theorem complete_inv {s : State} {e : ErrCode} (r : Word) (hmem : s.MemInv)
    (htrunc : s.regs.trunc = true → e = .none) : (s.complete e r).Inv := by
  refine .of_idle (by simp) (hmem.of_eq rfl rfl rfl) (errCode_le e) fun h => ?_
  rw [htrunc h]
  rfl

/-- Settles O38: the state after reset is idle, its memories are empty and its flags 0. -/
theorem invariantAtReset : Obligations.InvariantAtReset :=
  .of_idle rfl reset_memInv (Nat.zero_le 3) fun _ => rfl

end Sys2Proof.Machine
end

section
/-! The engine's steps keep the invariant (42_encode.md R107, R110; 43_decode.md R120, R122). -/

namespace Sys2Proof.Machine

@[simp] theorem advance_W (s : State) : s.advance.W = s.W := rfl
@[simp] theorem advance_L (s : State) : s.advance.L = s.L := rfl
@[simp] theorem advance_cap (s : State) : s.advance.cap = s.cap := rfl
@[simp] theorem advance_inRange (s : State) (n : Nat) : s.advance.inRange n = s.inRange n := rfl

/-- A cursor inside the buffer, of a command that has not processed its last byte, stays inside it (41_sequencer.md R101, R102). -/
theorem State.RunInv.advance {s : State} (h : s.RunInv) (hk : s.advance.lat.k ≠ s.lat.n) : s.advance.RunInv := by
  have hW := W_lt s
  have hH := H_lt s
  have hrow := h.row_lt
  have hn := s.lat.n.isLt
  have hbit := advanceBit_bitIndex (c := s.lat.advancePixel s.W) (by have := h.k_lt; simp only [advancePixel_k]; omega)
  obtain ⟨hslot, hcol, hchan⟩ := advancePixel_slotIndex (c := s.lat) (by omega) hW h.col_lt h.chan_lt
  simp only [advancePixel_k, advancePixel_bit] at hbit
  have hcursor : 8 * s.advance.lat.k.toNat + s.advance.lat.bit.toNat =
      slotIndex s.W s.advance.lat.row.toNat s.advance.lat.col.toNat s.advance.lat.chan.toNat := by
    simp only [advance_lat, advanceBit_row, advanceBit_col, advanceBit_chan, hbit, hslot, h.cursor]
    rfl
  have hk_lt : s.advance.lat.k.toNat < s.lat.n.toNat := by
    have hne : s.advance.lat.k.toNat ≠ s.lat.n.toNat := fun he => hk (BitVec.eq_of_toNat_eq he)
    have hlt := h.k_lt
    have := s.lat.bit.isLt
    simp only [advance_lat] at hne ⊢
    omega
  have hrow_lt : s.advance.lat.row.toNat < s.H := by
    by_contra hge
    have hrows : s.H * s.W ≤ s.advance.lat.row.toNat * s.W := Nat.mul_le_mul_right _ (Nat.le_of_not_lt hge)
    have hcap := h.n_cap
    have := s.advance.lat.bit.isLt
    rw [State.cap, capacityBytes, Nat.mul_comm s.W] at hcap
    unfold slotIndex at hcursor
    omega
  exact {
    valid := h.valid
    n_goal := by simpa [State.goalBytes] using h.n_goal
    n_cap := by simpa using h.n_cap
    ranged := by simpa using h.ranged
    k_lt := by simpa using hk_lt
    row_lt := hrow_lt
    col_lt := by simpa using hcol
    chan_lt := by simpa using hchan
    cursor := hcursor
    trunc_iff := by simpa using h.trunc_iff
    unmarked := h.unmarked }

/-- The end of a RUN step keeps the invariant. -/
theorem finishSlot_inv {s : State} (h : s.Inv) (hrun : s.phase = .run) : s.finishSlot.Inv := by
  obtain ⟨-, hfin⟩ | ⟨hk, hfin⟩ := finishSlot_cases s <;> rw [hfin]
  · exact complete_inv _ (h.mem.of_eq rfl rfl rfl) fun _ => rfl
  · exact {
      held := h.held
      mem := h.mem.of_eq rfl rfl rfl
      flags := ⟨h.flags.err_legal, h.flags.trunc_clean, h.flags.busy_quiet, h.flags.check_trunc⟩
      run := fun _ => (h.run hrun).advance hk }

theorem encodeRun_inv {s t : State} (h : s.Inv) (hrun : s.phase = .run) (ht : encodeRun s = .next t) : t.Inv := by
  obtain ⟨-, hpix, rfl⟩ := encodeRun_eq_next ht
  have hlat : (packed s).lat = { s.lat with pbyte := (latched s).lat.pbyte, acc := s.lat.acc } := by
    rw [packed, writeByte_lat, latched_eq]
  have hmem : (packed s).MemInv :=
    writeByte_keeps_memInv _ (h.mem.of_eq (latched_pix s) (latched_pay s) (latched_platform s)) (by simpa using hpix)
  exact finishSlot_inv
    (h.of_sameCommand ⟨⟨s.regs.ign, packed_regs s⟩, packed_phase s, ⟨_, _, hlat⟩, by simp, packed_platform s⟩ hmem
      (by simpa using h.held))
    (by simpa using hrun)

/-- What DECODE's RUN step does to the latches before the cursor moves. -/
theorem gathered_lat (s : State) : (gathered s).lat = { s.lat with acc := (gathered s).lat.acc } := by
  unfold gathered
  dsimp only
  split <;> simp

theorem gathered_memInv {s : State} (h : s.MemInv)
    (hpay : s.lat.bit = 7 → s.payAddr s.lat.k.toNat < s.platform.size .pay) : (gathered s).MemInv := by
  have hslot : (gatherSlot (s.readByte .pix s.cursorAddr) s).MemInv := h.of_eq rfl rfl rfl
  unfold gathered
  dsimp only
  split
  · exact writeByte_keeps_memInv _ hslot (hpay ‹_›)
  · exact hslot

theorem decodeRun_inv {s t : State} (h : s.Inv) (hrun : s.phase = .run) (ht : decodeRun s = .next t) : t.Inv := by
  obtain ⟨hpay, -, rfl⟩ := decodeRun_eq_next ht
  exact finishSlot_inv
    (h.of_sameCommand ⟨⟨s.regs.ign, gathered_regs s⟩, gathered_phase s, ⟨_, _, gathered_lat s⟩, by simp,
      gathered_platform s⟩ (gathered_memInv h.mem hpay) (by simpa using h.held))
    (by simpa using hrun)

/-- CHECK's range test ends in a good state: MemRange raised, no byte to process, or the first slot of a validated command. -/
theorem startRun_inv {s : State} {n : Nat} (h : s.MemInv) (hcheck : s.phase = .check) (hheld : s.unpolled = true)
    (hquiet : s.regs.done = false ∧ s.regs.err = 0 ∧ s.regs.result = 0) (hm : s.mark.memRange = false)
    (hvalid : s.invalidBuffer = false) (hgoal : n = s.goalBytes) (hcap : n ≤ s.cap)
    (htrunc : s.regs.trunc = true ↔ s.lat.op = .decode ∧ s.cap < s.L) : (s.startRun n).Inv := by
  obtain ⟨hdone, herr, hresult⟩ := hquiet
  obtain ⟨-, hst⟩ | ⟨-, -, hst⟩ | ⟨hrange, hn, hst⟩ := startRun_cases s n <;> rw [hst]
  · exact {
      held := fun _ => hheld
      mem := h.of_eq rfl rfl rfl
      flags := ⟨by simp [herr], by simp [herr], by simp [hdone, herr, hresult], by simp⟩
      run := by simp [hcheck] }
  · exact complete_inv _ (h.of_eq rfl rfl rfl) fun _ => rfl
  · have hn_nat : (BitVec.ofNat 32 n).toNat = n :=
      Nat.mod_eq_of_lt (Nat.lt_of_le_of_lt (hcap.trans (cap_bound s)) (by decide))
    obtain ⟨hW, hH, -⟩ := invalidBuffer_eq_false.1 hvalid
    exact {
      held := fun _ => hheld
      mem := h.of_eq rfl rfl rfl
      flags := ⟨by simp [herr], by simp [herr], by simp [hdone, herr, hresult], by simp⟩
      run := fun _ => {
        valid := hvalid
        n_goal := hn_nat.trans hgoal
        n_cap := hn_nat.trans_le hcap
        ranged := (congrArg s.inRange hn_nat).trans hrange
        k_lt := (Nat.pos_of_ne_zero hn).trans_eq hn_nat.symm
        row_lt := hH
        col_lt := hW
        chan_lt := by simp
        cursor := by simp
        trunc_iff := htrunc
        unmarked := hm } }

/-- ENCODE's CHECK step: TRUNC stays 0, and the range test follows a length inside the capacity (42_encode.md R107). -/
theorem encodeCheck_inv {s : State} (h : s.Inv) (hcheck : s.phase = .check) (hop : s.lat.op = .encode)
    (hm : s.mark.memRange = false) : (encodeCheck s).Inv := by
  have hbusy : s.phase ≠ .idle := by simp [hcheck]
  have htrunc : s.regs.trunc = false := h.flags.check_trunc hcheck hm
  obtain ⟨-, hst⟩ | ⟨-, -, hst⟩ | ⟨hvalid, hlen, hst⟩ := encodeCheck_cases s <;> rw [hst]
  · exact complete_inv _ h.mem (by simp [htrunc])
  · exact complete_inv _ h.mem (by simp [htrunc])
  · exact startRun_inv h.mem hcheck (h.held hbusy) (h.flags.busy_quiet (busy_eq_true.2 hbusy)) hm hvalid
      (by simp [State.goalBytes, hop]) hlen (by simp [htrunc, hop])

/-- DECODE's CHECK step: TRUNC is set exactly when the length is clamped to the capacity (43_decode.md R120, R121). -/
theorem decodeCheck_inv {s : State} (h : s.Inv) (hcheck : s.phase = .check) (hop : s.lat.op = .decode)
    (hm : s.mark.memRange = false) : (decodeCheck s).Inv := by
  have hbusy : s.phase ≠ .idle := by simp [hcheck]
  have hquiet := h.flags.busy_quiet (busy_eq_true.2 hbusy)
  have htrunc : s.regs.trunc = false := h.flags.check_trunc hcheck hm
  obtain ⟨-, hst⟩ | ⟨hvalid, hlen, hst⟩ | ⟨hvalid, hlen, hst⟩ := decodeCheck_cases s <;> rw [hst]
  · exact complete_inv _ h.mem (by simp [htrunc])
  · have hgoal : s.cap = s.setTrunc.goalBytes := by
      simp only [State.goalBytes, setTrunc_lat, hop]
      exact (Nat.min_eq_right hlen.le).symm
    exact startRun_inv (h.mem.of_eq rfl rfl rfl) hcheck (h.held hbusy) hquiet hm hvalid hgoal le_rfl
      (iff_of_true rfl ⟨hop, hlen⟩)
  · have hgoal : s.L = s.goalBytes := by
      simp only [State.goalBytes, hop]
      exact (Nat.min_eq_left hlen).symm
    exact startRun_inv h.mem hcheck (h.held hbusy) hquiet hm hvalid hgoal hlen (by simp [htrunc, hlen])

/-- Every engine step from a good state with no MemRange recorded ends in a good state. -/
theorem engineStep_inv {s t : State} (h : s.Inv) (hm : s.mark.memRange = false) (ht : engineStep s = .next t) :
    t.Inv := by
  obtain ⟨-, rfl⟩ | ⟨hcheck, hop, rfl⟩ | ⟨hcheck, hop, rfl⟩ | ⟨hrun, -, ht⟩ | ⟨hrun, -, ht⟩ := engineStep_cases ht
  · exact h
  · exact encodeCheck_inv h hcheck hop hm
  · exact decodeCheck_inv h hcheck hop hm
  · exact encodeRun_inv h hrun ht
  · exact decodeRun_inv h hrun ht

end Sys2Proof.Machine
end

section
/-! The host's actions keep the invariant (40_host_interface.md R79 to R89, 70_reset_and_hazards.md R153, R159). -/

namespace Sys2Proof.Machine

/-- A state that differs outside registers, engine, MemRange and platform alone is in the same command. -/
theorem State.SameCommand.of_eq {s t : State} (hr : t.regs = s.regs) (hph : t.phase = s.phase) (hl : t.lat = s.lat)
    (hm : t.mark.memRange = s.mark.memRange) (hp : t.platform = s.platform) : s.SameCommand t :=
  ⟨⟨_, hr⟩, hph, ⟨_, _, hl⟩, hm, hp⟩

theorem setIgn_inv {s : State} (h : s.Inv) : s.setIgn.Inv :=
  h.of_sameCommand ⟨⟨true, rfl⟩, rfl, ⟨_, _, rfl⟩, rfl, rfl⟩ (h.mem.of_eq rfl rfl rfl) h.held

theorem accept_inv {s : State} (op : Op) (h : s.MemInv) : (s.accept op).Inv where
  held := fun _ => rfl
  mem := h.of_eq rfl rfl rfl
  flags := ⟨by simp, by simp, by simp, by simp⟩
  run := by simp

theorem acceptIllegal_inv {s : State} (h : s.MemInv) : s.acceptIllegal.Inv :=
  complete_inv _ (h.of_eq rfl rfl rfl) (by simp)

theorem writeCommand_inv {s : State} (w : Word) (h : s.Inv) : (s.writeCommand w).Inv := by
  obtain ⟨-, hst⟩ | ⟨-, op, hst⟩ | ⟨-, hst⟩ := writeCommand_cases s w <;> rw [hst]
  · exact setIgn_inv h
  · exact accept_inv op h.mem
  · exact acceptIllegal_inv h.mem

/-! A write to a configuration register leaves the flags and RESULT (10_state.md R34). -/

@[simp] theorem store_done (r : Regs) (d : Word) (x : Register) : (r.store d x).done = r.done := by cases x <;> rfl
@[simp] theorem store_trunc (r : Regs) (d : Word) (x : Register) : (r.store d x).trunc = r.trunc := by cases x <;> rfl
@[simp] theorem store_ign (r : Regs) (d : Word) (x : Register) : (r.store d x).ign = r.ign := by cases x <;> rfl
@[simp] theorem store_err (r : Regs) (d : Word) (x : Register) : (r.store d x).err = r.err := by cases x <;> rfl
@[simp] theorem store_result (r : Regs) (d : Word) (x : Register) : (r.store d x).result = r.result := by cases x <;> rfl

theorem writeOffset_inv {s : State} (o : BitVec 8) (d : Word) (h : s.Inv) : (s.writeOffset o d).Inv := by
  obtain hst | hst | ⟨-, hst⟩ | ⟨hidle, r, -, hst⟩ := writeOffset_cases s o d <;> rw [hst]
  · exact h
  · exact writeCommand_inv d h
  · exact setIgn_inv h
  · exact .of_idle (busy_eq_false.1 hidle) (h.mem.of_eq rfl rfl rfl) (by simpa using h.flags.err_legal)
      (by simpa using h.flags.trunc_clean)

theorem reply_inv {s : State} (r : Reply) (h : s.Inv) : (s.reply r).Inv :=
  h.of_sameCommand (.of_eq rfl rfl rfl rfl rfl) (h.mem.of_eq rfl rfl rfl) h.held

/-- A read of STATUS takes the record of R159 back only while idle. -/
theorem polled_inv {s : State} (o : BitVec 8) (h : s.Inv) : (s.polled o).Inv :=
  h.of_sameCommand (.of_eq rfl rfl rfl rfl rfl) (h.mem.of_eq rfl rfl rfl) fun hbusy => by
    have hb : s.busy = true := busy_eq_true.2 hbusy
    simp [h.held hbusy, hb]

theorem raiseHostRace_inv {s : State} (h : s.Inv) : s.raiseHostRace.Inv :=
  h.of_sameCommand (.of_eq rfl rfl rfl rfl rfl) (h.mem.of_eq rfl rfl rfl) h.held

theorem writeByte_inv {s : State} {sp : Space} {a : Nat} (v : Byte) (h : s.Inv) (ha : a < s.platform.size sp) :
    (s.writeByte sp a v).Inv :=
  h.of_sameCommand (.of_eq (by simp) (by simp) (by simp) (by simp) (by simp)) (writeByte_keeps_memInv v h.mem ha)
    (by simpa using h.held)

theorem doReset_inv {s : State} (h : s.MemInv) : s.doReset.Inv :=
  .of_idle rfl (h.of_eq rfl rfl rfl) (Nat.zero_le 3) fun _ => rfl

/-- Every host action that answers a next state keeps the invariant. -/
theorem hostAct_inv {op : HostOp} {s t : State} (h : s.Inv) (ht : hostAct op s = .next t) : t.Inv := by
  obtain rfl | ⟨r, rfl | ⟨o, rfl⟩⟩ | ⟨o, d, rfl⟩ | ⟨w, rfl⟩ | ⟨-, rfl⟩ | ⟨-, sp, a, v, -, ha, rfl⟩ | ⟨-, rfl⟩ :=
    hostAct_cases ht
  · exact h
  · exact reply_inv r h
  · exact polled_inv o (reply_inv r h)
  · exact writeOffset_inv o d h
  · exact writeCommand_inv w h
  · exact raiseHostRace_inv h
  · exact writeByte_inv v h ha
  · exact doReset_inv h.mem

theorem spendChoice_inv {s : State} (h : s.Inv) : s.spendChoice.Inv :=
  h.of_sameCommand (.of_eq (by simp) (by simp) (by simp) (by simp) (by simp)) (h.mem.of_eq (by simp) (by simp) (by simp))
    (by simpa using h.held)

theorem taken_inv {s : State} (rest : List HostOp) (h : s.Inv) : (taken s rest).Inv :=
  h.of_sameCommand (.of_eq rfl rfl rfl rfl rfl) (h.mem.of_eq rfl rfl rfl) h.held

/-- An engine that can move is busy and has raised no model fault (60_exceptions.md R141). -/
theorem engineReady_eq_true {s : State} : s.engineReady = true ↔ s.phase ≠ .idle ∧ s.mark.memRange = false := by
  simp [State.engineReady, State.busy]

/-- Settles O39, by whose turn the step is. -/
theorem stepKeepsTheInvariant : Obligations.StepKeepsTheInvariant := by
  intro s t h hst
  obtain ⟨-, -, -, rfl⟩ | ⟨-, op, rest, -, hact⟩ | ⟨hready, heng⟩ := step_cases hst
  · exact h
  · exact hostAct_inv (taken_inv rest (spendChoice_inv h)) hact
  · obtain ⟨-, hm⟩ := engineReady_eq_true.1 hready
    exact engineStep_inv (spendChoice_inv h) (by simpa using hm) heng

end Sys2Proof.Machine
end

section
/-! The live view of a state (10_state.md R38, R42): what it leaves, and which operations commute with it. -/

namespace Sys2Proof.Machine

@[simp] theorem outcomeMap_next (f : State → State) (s : State) : outcomeMap f (.next s) = .next (f s) := rfl
@[simp] theorem outcomeMap_fault (f : State → State) (r : Fault) : outcomeMap f (.fault r) = .fault r := rfl
@[simp] theorem outcomeMap_refused (f : State → State) (r : Refusal) : outcomeMap f (.refused r) = .refused r := rfl

/-! Only the latches are looked at. -/

@[simp] theorem live_regs (s : State) : s.live.regs = s.regs := rfl
@[simp] theorem live_phase (s : State) : s.live.phase = s.phase := rfl
@[simp] theorem live_mark (s : State) : s.live.mark = s.mark := rfl
@[simp] theorem live_platform (s : State) : s.live.platform = s.platform := rfl
@[simp] theorem live_host (s : State) : s.live.host = s.host := rfl
@[simp] theorem live_sched (s : State) : s.live.sched = s.sched := rfl
@[simp] theorem live_draws (s : State) : s.live.draws = s.draws := rfl
@[simp] theorem live_busy (s : State) : s.live.busy = s.busy := rfl
@[simp] theorem live_mustNotAccess (s : State) : s.live.mustNotAccess = s.mustNotAccess := rfl
@[simp] theorem live_hostReady (s : State) : s.live.hostReady = s.hostReady := rfl
@[simp] theorem live_engineReady (s : State) : s.live.engineReady = s.engineReady := rfl
@[simp] theorem live_mover (s : State) : s.live.mover = s.mover := rfl
@[simp] theorem live_windowOffset (s : State) (a : Nat) : s.live.windowOffset a = s.windowOffset a := rfl
@[simp] theorem live_readOffset (s : State) (o : BitVec 8) : s.live.readOffset o = s.readOffset o := rfl
@[simp] theorem live_readByte (s : State) (sp : Space) (a : Nat) : s.live.readByte sp a = s.readByte sp a := by
  cases sp <;> rfl
@[simp] theorem live_invalidBuffer (s : State) : s.live.invalidBuffer = s.invalidBuffer := rfl
@[simp] theorem live_L (s : State) : s.live.L = s.L := rfl
@[simp] theorem live_cap (s : State) : s.live.cap = s.cap := rfl
@[simp] theorem live_inRange (s : State) (n : Nat) : s.live.inRange n = s.inRange n := rfl

/-! Which latches are live, phase by phase. -/

theorem live_of_check {s : State} (h : s.phase = .check) :
    s.live = { s with lat := { Latches.reset with op := s.lat.op } } := by
  simp [State.live, State.liveLatches, h]

theorem live_of_encodeRun {s : State} (h : s.phase = .run) (hop : s.lat.op = .encode) :
    s.live = { s with lat := { s.lat with acc := 0, pbyte := if s.lat.bit = 0 then 0 else s.lat.pbyte } } := by
  simp [State.live, State.liveLatches, h, hop]

theorem live_of_decodeRun {s : State} (h : s.phase = .run) (hop : s.lat.op = .decode) :
    s.live = { s with lat := { s.lat with pbyte := 0, acc := if s.lat.bit = 0 then 0 else s.lat.acc } } := by
  simp [State.live, State.liveLatches, h, hop]

/-- The command is live while one is under way. -/
theorem live_op {s : State} (h : s.phase ≠ .idle) : s.live.lat.op = s.lat.op := by
  unfold State.live State.liveLatches
  split
  · exact absurd ‹_› h
  · rfl
  · rfl
  · rfl

/-- Nothing dead is left in the live view. -/
@[simp] theorem live_live (s : State) : s.live.live = s.live := by
  have h : s.live.liveLatches = s.liveLatches := by
    cases hp : s.phase with
    | idle => simp [State.live, State.liveLatches, hp]
    | check => simp [State.live, State.liveLatches, hp]
    | run =>
      cases hop : s.lat.op with
      | encode => simp +contextual [State.live, State.liveLatches, hp, hop]
      | decode => simp +contextual [State.live, State.liveLatches, hp, hop]
  rw [State.live, h]
  rfl

/-! An operation that neither reads nor writes the engine's state commutes with the live view. -/

@[simp] theorem live_setIgn (s : State) : s.setIgn.live = s.live.setIgn := rfl
@[simp] theorem live_setTrunc (s : State) : s.setTrunc.live = s.live.setTrunc := rfl
@[simp] theorem live_reply (s : State) (r : Reply) : (s.reply r).live = s.live.reply r := rfl
@[simp] theorem live_polled (s : State) (o : BitVec 8) : (s.polled o).live = s.live.polled o := rfl
@[simp] theorem live_raiseMemRange (s : State) : s.raiseMemRange.live = s.live.raiseMemRange := rfl
@[simp] theorem live_raiseHostRace (s : State) : s.raiseHostRace.live = s.live.raiseHostRace := rfl
@[simp] theorem live_taken (s : State) (rest : List HostOp) : (taken s rest).live = taken s.live rest := rfl
@[simp] theorem live_writeByte (s : State) (sp : Space) (a : Nat) (v : Byte) :
    (s.writeByte sp a v).live = s.live.writeByte sp a v := by
  cases sp <;> rfl
@[simp] theorem live_writeConfig (s : State) (r : Register) (d : Word) :
    (s.writeConfig r d).live = s.live.writeConfig r d := by
  unfold State.writeConfig
  rw [live_busy]
  split <;> rfl
@[simp] theorem live_spendChoice (s : State) : s.spendChoice.live = s.live.spendChoice := by
  by_cases h : (s.hostReady && s.engineReady) = true
  · have hlive : (s.live.hostReady && s.live.engineReady) = true := h
    rw [State.spendChoice, State.spendChoice, if_pos h, if_pos hlive, live_sched]
    split <;> rfl
  · have hlive : ¬ (s.live.hostReady && s.live.engineReady) = true := h
    rw [State.spendChoice, State.spendChoice, if_neg h, if_neg hlive]

/-! An operation that ends or starts a command writes every latch that is live after it. -/

@[simp] theorem complete_live (s : State) (e : ErrCode) (r : Word) : (s.live.complete e r).live = (s.complete e r).live := rfl
@[simp] theorem accept_live (s : State) (op : Op) : (s.live.accept op).live = (s.accept op).live := rfl
@[simp] theorem acceptIllegal_live (s : State) : s.live.acceptIllegal.live = s.acceptIllegal.live := rfl
@[simp] theorem doReset_live (s : State) : s.live.doReset.live = s.doReset.live := rfl

end Sys2Proof.Machine
end

section
/-! The host's turn cannot tell a state from its live view. -/

namespace Sys2Proof.Machine

@[simp] theorem writeCommand_live (s : State) (w : Word) : (s.live.writeCommand w).live = (s.writeCommand w).live := by
  cases hb : s.busy
  · simp [State.writeCommand, State.acceptWord, apply_ite State.live, hb]
  · simp [State.writeCommand, hb]

@[simp] theorem writeOffset_live (s : State) (o : BitVec 8) (d : Word) :
    (s.live.writeOffset o d).live = (s.writeOffset o d).live := by
  unfold State.writeOffset
  split
  · simp
  · simp
  · simp [apply_ite State.live]

theorem withByte_live {sp : Space} {a : Nat} {s : State} {f g : Byte → Host.Outcome State Fault Refusal}
    (h : ∀ v, outcomeMap State.live (f v) = outcomeMap State.live (g v)) :
    outcomeMap State.live (withByte sp a s.live f) = outcomeMap State.live (withByte sp a s g) := by
  by_cases ha : a < s.platform.size sp <;> simp [withByte, ha, h]

theorem storeByte_live (sp : Space) (a : Nat) (v : Byte) (s : State) :
    outcomeMap State.live (storeByte sp a v s.live) = outcomeMap State.live (storeByte sp a v s) := by
  by_cases ha : a < s.platform.size sp <;> simp [storeByte, ha]

theorem exec_live (i : Instr) (s : State) : outcomeMap State.live (exec i s.live) = outcomeMap State.live (exec i s) := by
  cases i with
  | encode => simp [exec, execEncode]
  | decode => simp [exec, execDecode]
  | illegalCmd w => simp [exec, execIllegalCmd]
  | regWr o d => simp [exec, execRegWr]
  | regRd o => simp [exec, execRegRd]

theorem hostAct_live (op : HostOp) (s : State) :
    outcomeMap State.live (hostAct op s.live) = outcomeMap State.live (hostAct op s) := by
  cases op with
  | send bytes =>
    simp only [hostAct, hostSend]
    split
    · exact exec_live _ s
    · rfl
  | wait => exact exec_live (.regRd 0x04) s
  | readMem sp a =>
    cases hb : s.mustNotAccess
    · simpa [hostAct, hostRead, hb] using withByte_live (fun v => by simp)
    · simp [hostAct, hostRead, hb]
  | writeMem sp a v =>
    cases hb : s.mustNotAccess
    · simpa [hostAct, hostWrite, hb] using storeByte_live sp a v s
    · simp [hostAct, hostWrite, hb]
  | readLanes a count =>
    simp only [hostAct, platformRead, live_windowOffset, live_readOffset]
    split
    · rfl
    · split <;> simp
  | writeLanes a lanes =>
    simp only [hostAct, platformWrite, live_windowOffset]
    split
    · rfl
    · split <;> simp
  | reset => simp [hostAct]

/-- The host's turn by its oldest operation (40_host_interface.md R87). -/
theorem hostTurn_of_pending {s : State} {op : HostOp} {rest : List HostOp} (h : s.host.pending = op :: rest) :
    hostTurn s = hostAct op (taken s rest) := by
  simp only [hostTurn, h, taken]

theorem hostTurn_of_empty {s : State} (h : s.host.pending = []) : hostTurn s = .next s := by
  simp only [hostTurn, h]

theorem hostTurn_live (s : State) : outcomeMap State.live (hostTurn s.live) = outcomeMap State.live (hostTurn s) := by
  cases hp : s.host.pending with
  | nil => simp [hostTurn_of_empty hp, hostTurn_of_empty (s := s.live) hp]
  | cons op rest => rw [hostTurn_of_pending hp, hostTurn_of_pending (s := s.live) hp, ← live_taken, hostAct_live]

end Sys2Proof.Machine
end

section
/-! The engine's turn cannot tell a state from its live view (41_sequencer.md R105). -/

namespace Sys2Proof.Machine

theorem engineStep_of_idle {s : State} (h : s.phase = .idle) : engineStep s = .next s := by
  unfold engineStep; rw [h]
theorem engineStep_of_encodeCheck {s : State} (h : s.phase = .check) (hop : s.lat.op = .encode) :
    engineStep s = .next (encodeCheck s) := by
  unfold engineStep; rw [h, hop]
theorem engineStep_of_decodeCheck {s : State} (h : s.phase = .check) (hop : s.lat.op = .decode) :
    engineStep s = .next (decodeCheck s) := by
  unfold engineStep; rw [h, hop]
theorem engineStep_of_encodeRun {s : State} (h : s.phase = .run) (hop : s.lat.op = .encode) :
    engineStep s = encodeRun s := by
  unfold engineStep; rw [h, hop]
theorem engineStep_of_decodeRun {s : State} (h : s.phase = .run) (hop : s.lat.op = .decode) :
    engineStep s = decodeRun s := by
  unfold engineStep; rw [h, hop]

/-- The latches of a command's first slot: what an earlier command left in eng.pbyte and eng.acc is dead. -/
theorem startRun_live {s : State} (n : Nat) (h : s.phase = .check) : (s.live.startRun n).live = (s.startRun n).live := by
  unfold State.startRun
  simp only [live_inRange]
  split
  · simp
  · split
    · rfl
    · rw [live_of_check h]
      cases hop : s.lat.op <;> simp [State.initCursor, State.live, State.liveLatches, hop]

theorem encodeCheck_live {s : State} (h : s.phase = .check) : (encodeCheck s.live).live = (encodeCheck s).live := by
  cases hv : s.invalidBuffer
  · by_cases hlen : s.cap < s.L <;> simp [encodeCheck, hv, hlen, startRun_live _ h]
  · simp [encodeCheck, hv]

theorem decodeCheck_live {s : State} (h : s.phase = .check) : (decodeCheck s.live).live = (decodeCheck s).live := by
  cases hv : s.invalidBuffer
  · by_cases hlen : s.cap < s.L
    · simpa [decodeCheck, hv, hlen] using startRun_live (s := s.setTrunc) (min s.L s.cap) h
    · simp [decodeCheck, hv, hlen, startRun_live _ h]
  · simp [decodeCheck, hv]

/-- The end of a RUN step neither reads eng.pbyte and eng.acc nor makes the other command's byte live. -/
theorem finishSlot_live_of_data {s : State} {p a : Byte} (hrun : s.phase = .run)
    (hp : s.lat.op = .encode → p = s.lat.pbyte) (ha : s.lat.op = .decode → a = s.lat.acc) :
    (State.finishSlot { s with lat := { s.lat with pbyte := p, acc := a } }).live = s.finishSlot.live := by
  have hadv : State.advance { s with lat := { s.lat with pbyte := p, acc := a } } =
      { s.advance with lat := { s.advance.lat with pbyte := p, acc := a } } := by
    unfold State.advance
    rw [← advance_data]
    rfl
  unfold State.finishSlot
  rw [hadv]
  dsimp only
  split
  · rfl
  · cases hop : s.lat.op with
    | encode => simp [live_of_encodeRun, hrun, hop, hp hop]
    | decode => simp [live_of_decodeRun, hrun, hop, ha hop]

/-! A RUN step without its addresses stops (log 11). -/

theorem encodeRun_payload_outside {s : State} (hb : s.lat.bit = 0)
    (hpay : ¬ s.payAddr s.lat.k.toNat < s.platform.size .pay) :
    encodeRun s = .fault (.outsideMemory .pay (s.payAddr s.lat.k.toNat)) := by
  simp [encodeRun, latchPayload, withByte, hb, hpay]

theorem encodeRun_slot_outside {s : State} (hpay : s.lat.bit = 0 → s.payAddr s.lat.k.toNat < s.platform.size .pay)
    (hpix : ¬ s.cursorAddr < s.platform.size .pix) :
    encodeRun s = .fault (.outsideMemory .pix s.cursorAddr) := by
  simp [encodeRun, latchPayload_inside hpay, packSlot, withByte, hpix]

theorem decodeRun_slot_outside {s : State} (hpix : ¬ s.cursorAddr < s.platform.size .pix) :
    decodeRun s = .fault (.outsideMemory .pix s.cursorAddr) := by
  simp [decodeRun, withByte, hpix]

@[simp] theorem gatherSlot_payAddr (s : State) (v : Byte) (k : Nat) : (gatherSlot v s).payAddr k = s.payAddr k := rfl

theorem decodeRun_output_outside {s : State} (hpix : s.cursorAddr < s.platform.size .pix) (hb : s.lat.bit = 7)
    (hpay : ¬ s.payAddr s.lat.k.toNat < s.platform.size .pay) :
    decodeRun s = .fault (.outsideMemory .pay (s.payAddr s.lat.k.toNat)) := by
  rw [decodeRun, withByte_inside _ hpix]
  simp [emitByte, storeByte, hb, hpay]

/-! The addresses of a RUN step and what it latches and writes depend on live latches alone. -/

theorem live_bit {s : State} (hrun : s.phase = .run) : s.live.lat.bit = s.lat.bit := by
  cases hop : s.lat.op with
  | encode => rw [live_of_encodeRun hrun hop]
  | decode => rw [live_of_decodeRun hrun hop]

theorem live_cursorAddr {s : State} (hrun : s.phase = .run) : s.live.cursorAddr = s.cursorAddr := by
  cases hop : s.lat.op with
  | encode => rw [live_of_encodeRun hrun hop]; rfl
  | decode => rw [live_of_decodeRun hrun hop]; rfl

theorem live_payAddr {s : State} (hrun : s.phase = .run) :
    s.live.payAddr s.live.lat.k.toNat = s.payAddr s.lat.k.toNat := by
  cases hop : s.lat.op with
  | encode => rw [live_of_encodeRun hrun hop]; rfl
  | decode => rw [live_of_decodeRun hrun hop]; rfl

theorem latched_live {s : State} (hrun : s.phase = .run) (hop : s.lat.op = .encode) :
    latched s.live = { latched s with lat := { (latched s).lat with acc := 0 } } := by
  rw [live_of_encodeRun hrun hop]
  unfold latched
  dsimp only
  by_cases hb : s.lat.bit = 0
  · simp only [if_pos hb]
    rfl
  · simp only [if_neg hb]

theorem packed_live {s : State} (hrun : s.phase = .run) (hop : s.lat.op = .encode) :
    packed s.live = { packed s with lat := { (packed s).lat with acc := 0 } } := by
  unfold packed
  rw [latched_live hrun hop, live_cursorAddr hrun, live_bit hrun, live_readByte]
  rfl

theorem gatherSlot_live {s : State} (v : Byte) (hrun : s.phase = .run) (hop : s.lat.op = .decode) :
    gatherSlot v s.live = { gatherSlot v s with lat := { (gatherSlot v s).lat with pbyte := 0 } } := by
  rw [live_of_decodeRun hrun hop]
  unfold gatherSlot
  dsimp only
  by_cases hb : s.lat.bit = 0
  · simp only [if_pos hb]
  · simp only [if_neg hb]

theorem gathered_live {s : State} (hrun : s.phase = .run) (hop : s.lat.op = .decode) :
    gathered s.live = { gathered s with lat := { (gathered s).lat with pbyte := 0 } } := by
  unfold gathered
  rw [live_payAddr hrun, live_cursorAddr hrun, live_bit hrun, live_readByte, gatherSlot_live _ hrun hop]
  dsimp only
  split <;> rfl

theorem encodeRun_live {s : State} (hrun : s.phase = .run) (hop : s.lat.op = .encode) :
    outcomeMap State.live (encodeRun s.live) = outcomeMap State.live (encodeRun s) := by
  have hk := live_payAddr hrun
  have hbit := live_bit hrun
  have hcursor := live_cursorAddr hrun
  by_cases hpay : s.lat.bit = 0 → s.payAddr s.lat.k.toNat < s.platform.size .pay
  · have hpay' : s.live.lat.bit = 0 → s.live.payAddr s.live.lat.k.toNat < s.live.platform.size .pay := by
      rwa [hk, hbit]
    by_cases hpix : s.cursorAddr < s.platform.size .pix
    · have hpix' : s.live.cursorAddr < s.live.platform.size .pix := by rwa [hcursor]
      have hfin := finishSlot_live_of_data (s := packed s) (p := (packed s).lat.pbyte) (a := 0) (by simpa using hrun)
        (fun _ => rfl) (by simp [hop])
      rw [encodeRun_inside hpix hpay, encodeRun_inside hpix' hpay', packed_live hrun hop]
      exact congrArg Host.Outcome.next hfin
    · have hpix' : ¬ s.live.cursorAddr < s.live.platform.size .pix := by rwa [hcursor]
      rw [encodeRun_slot_outside hpay hpix, encodeRun_slot_outside hpay' hpix', hcursor]
  · obtain ⟨hb, hpay⟩ := Classical.not_imp.1 hpay
    rw [encodeRun_payload_outside hb hpay, encodeRun_payload_outside (s := s.live) (by rwa [hbit]) (by rwa [hk]), hk]

theorem decodeRun_live {s : State} (hrun : s.phase = .run) (hop : s.lat.op = .decode) :
    outcomeMap State.live (decodeRun s.live) = outcomeMap State.live (decodeRun s) := by
  have hk := live_payAddr hrun
  have hbit := live_bit hrun
  have hcursor := live_cursorAddr hrun
  by_cases hpix : s.cursorAddr < s.platform.size .pix
  · have hpix' : s.live.cursorAddr < s.live.platform.size .pix := by rwa [hcursor]
    by_cases hpay : s.lat.bit = 7 → s.payAddr s.lat.k.toNat < s.platform.size .pay
    · have hpay' : s.live.lat.bit = 7 → s.live.payAddr s.live.lat.k.toNat < s.live.platform.size .pay := by
        rwa [hk, hbit]
      have hfin := finishSlot_live_of_data (s := gathered s) (p := 0) (a := (gathered s).lat.acc) (by simpa using hrun)
        (by simp [hop]) (fun _ => rfl)
      rw [decodeRun_inside hpix hpay, decodeRun_inside hpix' hpay', gathered_live hrun hop]
      exact congrArg Host.Outcome.next hfin
    · obtain ⟨hb, hpay⟩ := Classical.not_imp.1 hpay
      rw [decodeRun_output_outside hpix hb hpay,
        decodeRun_output_outside (s := s.live) hpix' (by rwa [hbit]) (by rwa [hk]), hk]
  · have hpix' : ¬ s.live.cursorAddr < s.live.platform.size .pix := by rwa [hcursor]
    rw [decodeRun_slot_outside hpix, decodeRun_slot_outside hpix', hcursor]

theorem engineStep_live (s : State) :
    outcomeMap State.live (engineStep s.live) = outcomeMap State.live (engineStep s) := by
  cases hph : s.phase with
  | idle => rw [engineStep_of_idle hph, engineStep_of_idle (s := s.live) hph]; simp
  | check =>
    have hlive : s.live.lat.op = s.lat.op := live_op (by simp [hph])
    cases hop : s.lat.op with
    | encode =>
      rw [engineStep_of_encodeCheck hph hop, engineStep_of_encodeCheck (s := s.live) hph (hlive.trans hop)]
      simp [encodeCheck_live hph]
    | decode =>
      rw [engineStep_of_decodeCheck hph hop, engineStep_of_decodeCheck (s := s.live) hph (hlive.trans hop)]
      simp [decodeCheck_live hph]
  | run =>
    have hlive : s.live.lat.op = s.lat.op := live_op (by simp [hph])
    cases hop : s.lat.op with
    | encode =>
      rw [engineStep_of_encodeRun hph hop, engineStep_of_encodeRun (s := s.live) hph (hlive.trans hop),
        encodeRun_live hph hop]
    | decode =>
      rw [engineStep_of_decodeRun hph hop, engineStep_of_decodeRun (s := s.live) hph (hlive.trans hop),
        decodeRun_live hph hop]

end Sys2Proof.Machine
end

section
/-! A step of the machine cannot tell a state from its live view (10_state.md R38, R42). -/

namespace Sys2Proof.Machine

/-- A step in which no agent can move. -/
theorem step_of_no_mover {s : State} (h : s.mover = none) : step s = stalled s := by
  simp only [step, nextTurn, h]

/-- A step of the live view is, but for dead latches, the step of the state. -/
theorem step_live (s : State) : outcomeMap State.live (step s.live) = outcomeMap State.live (step s) := by
  cases hm : s.mover with
  | none =>
    rw [step_of_no_mover hm, step_of_no_mover (s := s.live) hm, stalled, stalled, live_mark]
    split
    · rfl
    · split <;> simp
  | some a =>
    rw [step_of_mover hm, step_of_mover (s := s.live) hm, ← live_spendChoice]
    cases a with
    | host => exact hostTurn_live _
    | engine => exact engineStep_live _

/-- Settles O46: each of the two steps is, but for dead latches, the step of the one live view. -/
theorem deadLatchesCannotBeSeen : Obligations.DeadLatchesCannotBeSeen := by
  intro s t h
  rw [← step_live s, h, step_live t]

end Sys2Proof.Machine
end

section
/-! What a step does to the registers, said once for each agent (10_state.md R34, 40_host_interface.md R86). -/

namespace Sys2Proof.Machine

/-! ## The engine -/

/-- The registers `r` are those of `s` but for TRUNC, which the CHECK step of a DECODE sets where it clamps (43_decode.md R121). -/
def State.Clamps (s : State) (r : Regs) : Prop :=
  r = s.regs ∨ (s.phase = .check ∧ s.lat.op = .decode ∧ s.cap < s.L ∧ r = { s.regs with trunc := true })

/-- The step from `s` leaves the registers at `r`, or it ends the running command there: in CHECK with result 0,
in RUN with eng.n and no error (R86, 41_sequencer.md R102). -/
def State.Reports (s t : State) (r : Regs) : Prop :=
  t.regs = r ∨ (s.phase ≠ .idle ∧ t.phase = .idle ∧ ∃ e w, t.regs = r.completed e w ∧
    (w = 0 ∨ (s.phase = .run ∧ e = .none ∧ w = s.lat.n)))

theorem State.Clamps.flags {s : State} {r : Regs} (h : s.Clamps r) :
    r.done = s.regs.done ∧ r.ign = s.regs.ign ∧ r.err = s.regs.err ∧ r.result = s.regs.result ∧
      (s.regs.trunc = true → r.trunc = true) := by
  obtain rfl | ⟨-, -, -, rfl⟩ := h
  · exact ⟨rfl, rfl, rfl, rfl, id⟩
  · exact ⟨rfl, rfl, rfl, rfl, fun _ => rfl⟩

theorem State.Clamps.sameConfig {s : State} {r : Regs} (h : s.Clamps r) : s.regs.SameConfig r := by
  obtain rfl | ⟨-, -, -, rfl⟩ := h <;> exact ⟨rfl, rfl, rfl, rfl, rfl, rfl⟩

theorem State.Reports.sameConfig {s t : State} {r : Regs} (h : s.Reports t r) (hr : s.regs.SameConfig r) :
    s.regs.SameConfig t.regs := by
  obtain ht | ⟨-, -, e, w, ht, -⟩ := h <;> rw [ht] <;> exact hr

/-- CHECK's range test leaves the registers, or it completes a command of no bytes. -/
theorem startRun_reports {s u : State} (n : Nat) (h : s.phase ≠ .idle) : s.Reports (u.startRun n) u.regs := by
  obtain ⟨-, hst⟩ | ⟨-, -, hst⟩ | ⟨-, -, hst⟩ := startRun_cases u n <;> rw [hst]
  · exact .inl rfl
  · exact .inr ⟨h, rfl, .none, 0, rfl, .inl rfl⟩
  · exact .inl rfl

theorem complete_reports {s : State} (e : ErrCode) (h : s.phase ≠ .idle) : s.Reports (s.complete e 0) s.regs :=
  .inr ⟨h, rfl, e, 0, rfl, .inl rfl⟩

theorem encodeCheck_reports {s : State} (h : s.phase ≠ .idle) : s.Reports (encodeCheck s) s.regs := by
  obtain ⟨-, hst⟩ | ⟨-, -, hst⟩ | ⟨-, -, hst⟩ := encodeCheck_cases s <;> rw [hst]
  · exact complete_reports _ h
  · exact complete_reports _ h
  · exact startRun_reports _ h

theorem decodeCheck_reports {s : State} (h : s.phase = .check) (hop : s.lat.op = .decode) :
    ∃ r, s.Clamps r ∧ s.Reports (decodeCheck s) r := by
  have hbusy : s.phase ≠ .idle := by simp [h]
  obtain ⟨-, hst⟩ | ⟨-, hlen, hst⟩ | ⟨-, -, hst⟩ := decodeCheck_cases s <;> rw [hst]
  · exact ⟨_, .inl rfl, complete_reports _ hbusy⟩
  · exact ⟨_, .inr ⟨h, hop, hlen, rfl⟩, startRun_reports _ hbusy⟩
  · exact ⟨_, .inl rfl, startRun_reports _ hbusy⟩

theorem finishSlot_reports {s u : State} (hrun : s.phase = .run) (hr : u.regs = s.regs) (hn : u.lat.n = s.lat.n) :
    s.Reports u.finishSlot s.regs := by
  obtain ⟨-, hst⟩ | ⟨-, hst⟩ := finishSlot_cases u <;> rw [hst]
  · exact .inr ⟨by simp [hrun], rfl, .none, s.lat.n, by simp [hr, hn], .inr ⟨hrun, rfl, rfl⟩⟩
  · exact .inl hr

/-- What an engine step does to the registers. -/
theorem engineStep_regs {s t : State} (h : engineStep s = .next t) : ∃ r, s.Clamps r ∧ s.Reports t r := by
  obtain ⟨-, rfl⟩ | ⟨hph, -, rfl⟩ | ⟨hph, hop, rfl⟩ | ⟨hrun, -, h⟩ | ⟨hrun, -, h⟩ := engineStep_cases h
  · exact ⟨_, .inl rfl, .inl rfl⟩
  · exact ⟨_, .inl rfl, encodeCheck_reports (by simp [hph])⟩
  · exact decodeCheck_reports hph hop
  · obtain ⟨-, -, rfl⟩ := encodeRun_eq_next h
    exact ⟨_, .inl rfl, finishSlot_reports hrun (packed_regs s) (packed_n s)⟩
  · obtain ⟨-, -, rfl⟩ := decodeRun_eq_next h
    exact ⟨_, .inl rfl, finishSlot_reports hrun (gathered_regs s) (gathered_n s)⟩

theorem engineStep_sameConfig {s t : State} (h : engineStep s = .next t) : s.regs.SameConfig t.regs := by
  obtain ⟨r, hclamp, hreport⟩ := engineStep_regs h
  exact hreport.sameConfig hclamp.sameConfig

/-! ## The host -/

/-- The flags, ERR and RESULT of two register files agree (10_state.md R34). -/
def Regs.SameFlags (r q : Regs) : Prop :=
  q.done = r.done ∧ q.trunc = r.trunc ∧ q.ign = r.ign ∧ q.err = r.err ∧ q.result = r.result

theorem Regs.sameFlags_refl (r : Regs) : r.SameFlags r := ⟨rfl, rfl, rfl, rfl, rfl⟩

/-- The offsets at which a busy block drops a write (40_host_interface.md R81). -/
def droppedOffsets : List (BitVec 8) := [0x00, 0x08, 0x0C, 0x10, 0x14, 0x18, 0x1C]

theorem config_offset_dropped {r : Register} : r.isConfig = true → r.offset ∈ droppedOffsets := by
  cases r <;> decide

theorem store_sameFlags (r : Regs) (d : Word) (x : Register) : r.SameFlags (r.store d x) := by
  simp [Regs.SameFlags]

/-! A REG_WR by the register at its offset (R79 to R82). -/

theorem writeOffset_of_none {o : BitVec 8} (s : State) (d : Word) (h : Register.ofOffset o = none) :
    s.writeOffset o d = s := by
  simp only [State.writeOffset, h]

theorem writeOffset_of_cmd {o : BitVec 8} (s : State) (d : Word) (h : Register.ofOffset o = some .cmd) :
    s.writeOffset o d = s.writeCommand d := by
  simp only [State.writeOffset, h]

theorem writeOffset_of_config {o : BitVec 8} {r : Register} (s : State) (d : Word) (h : Register.ofOffset o = some r)
    (hc : r.isConfig = true) : s.writeOffset o d = s.writeConfig r d := by
  unfold State.writeOffset
  rw [h]
  cases r <;> simp_all [Register.isConfig]

theorem writeOffset_of_readOnly {o : BitVec 8} {r : Register} (s : State) (d : Word) (h : Register.ofOffset o = some r)
    (hcmd : r ≠ .cmd) (hc : r.isConfig = false) : s.writeOffset o d = s := by
  unfold State.writeOffset
  rw [h]
  cases r <;> simp_all

/-- What a REG_WR does to the registers, by the state and the offset (R79 to R84). -/
theorem writeOffset_outcome (s : State) (o : BitVec 8) (d : Word) :
    (s.regs.SameFlags (s.writeOffset o d).regs ∧ (s.phase ≠ .idle → (s.writeOffset o d).regs = s.regs)) ∨
      (s.phase ≠ .idle ∧ o ∈ droppedOffsets ∧ s.writeOffset o d = s.setIgn) ∨
      (s.phase = .idle ∧ o = 0x00 ∧ s.writeOffset o d = s.acceptWord d) := by
  have hsame : s.regs.SameFlags s.regs ∧ (s.phase ≠ .idle → s.regs = s.regs) := ⟨Regs.sameFlags_refl _, fun _ => rfl⟩
  cases hr : Register.ofOffset o with
  | none => rw [writeOffset_of_none s d hr]; exact .inl hsame
  | some r =>
    have ho : r.offset = o := offset_of_ofOffset hr
    by_cases hcmd : r = .cmd
    · subst hcmd
      rw [writeOffset_of_cmd s d hr, State.writeCommand]
      cases hb : s.busy
      · exact .inr (.inr ⟨busy_eq_false.1 hb, ho.symm, by simp⟩)
      · exact .inr (.inl ⟨busy_eq_true.1 hb, ho ▸ by decide, by simp⟩)
    cases hc : r.isConfig
    · rw [writeOffset_of_readOnly s d hr hcmd hc]
      exact .inl hsame
    · rw [writeOffset_of_config s d hr hc, State.writeConfig]
      cases hb : s.busy
      · exact .inl ⟨store_sameFlags s.regs d r, fun h => absurd (busy_eq_false.1 hb) h⟩
      · exact .inr (.inl ⟨busy_eq_true.1 hb, ho ▸ config_offset_dropped hc, by simp⟩)

/-- What a host action does to the registers. -/
theorem hostAct_regs {s u t : State} {op : HostOp} (hu : u.platform = s.platform) (h : hostAct op u = .next t) :
    (u.regs.SameFlags t.regs ∧ (u.phase ≠ .idle → t.regs = u.regs)) ∨
      (op = .reset ∧ t = u.doReset) ∨
      (u.phase ≠ .idle ∧ ∃ o d, s.writeOf op = some (o, d) ∧ o ∈ droppedOffsets ∧ t = u.setIgn) ∨
      (u.phase = .idle ∧ ∃ w, s.writeOf op = some (0x00, w) ∧ t = u.acceptWord w) := by
  by_cases hreset : op = .reset
  · subst hreset
    cases h
    exact .inr (.inl ⟨rfl, rfl⟩)
  cases hw : s.writeOf op with
  | none =>
    rw [hostAct_keeps_regs hu hw hreset h]
    exact .inl ⟨Regs.sameFlags_refl _, fun _ => rfl⟩
  | some write =>
    obtain ⟨o, d⟩ := write
    have ht := hostAct_of_writeOf hu hw h
    obtain hsame | ⟨hbusy, ho, hst⟩ | ⟨hidle, rfl, hst⟩ := writeOffset_outcome u o d
    · exact .inl (ht ▸ hsame)
    · exact .inr (.inr (.inl ⟨hbusy, o, d, rfl, ho, ht.trans hst⟩))
    · exact .inr (.inr (.inr ⟨hidle, d, rfl, ht.trans hst⟩))

/-! ## The machine -/

/-- What a step does to the registers: it leaves the flags, or it is the host's RESET, its write that a busy block drops,
its word written to CMD while idle, or a step of the busy engine. -/
theorem step_regs {s t : State} (h : step s = .next t) :
    (s.regs.SameFlags t.regs ∧ (s.phase ≠ .idle → t.regs = s.regs)) ∨
      (∃ rest, s.host.pending = .reset :: rest ∧ t = (s.afterTaking rest).doReset) ∨
      (s.phase ≠ .idle ∧ ∃ o d rest, s.HostWrites o d rest ∧ o ∈ droppedOffsets ∧ t = (s.afterTaking rest).setIgn) ∨
      (s.phase = .idle ∧ ∃ w rest, s.HostWrites 0x00 w rest ∧ t = (s.afterTaking rest).acceptWord w) ∨
      (s.phase ≠ .idle ∧ engineStep s.spendChoice = .next t) := by
  obtain ⟨-, -, -, rfl⟩ | ⟨-, op, rest, hp, hact⟩ | ⟨hready, heng⟩ := step_cases h
  · exact .inl ⟨Regs.sameFlags_refl _, fun _ => rfl⟩
  · rw [taken_spendChoice] at hact
    have hcases := hostAct_regs (s := s) (afterTaking_platform s rest) hact
    rw [afterTaking_regs, afterTaking_phase] at hcases
    obtain hsame | ⟨rfl, ht⟩ | ⟨hbusy, o, d, hw, ho, ht⟩ | ⟨hidle, w, hw, ht⟩ := hcases
    · exact .inl hsame
    · exact .inr (.inl ⟨rest, hp, ht⟩)
    · exact .inr (.inr (.inl ⟨hbusy, o, d, rest, ⟨op, hp, hw⟩, ho, ht⟩))
    · exact .inr (.inr (.inr (.inl ⟨hidle, w, rest, ⟨op, hp, hw⟩, ht⟩)))
  · exact .inr (.inr (.inr (.inr ⟨(engineReady_eq_true.1 hready).1, heng⟩)))

end Sys2Proof.Machine
end

section
/-! The statements about registers: the configuration while busy, and who sets and clears a flag. -/

namespace Sys2Proof.Machine

theorem Regs.sameConfig_refl (r : Regs) : r.SameConfig r := ⟨rfl, rfl, rfl, rfl, rfl, rfl⟩

/-- Settles O41: of the steps from a busy state, RESET apart, a host step changes at most IGN,
and an engine step at most the flags and RESULT. -/
theorem configurationIsFixedWhileBusy : Obligations.ConfigurationIsFixedWhileBusy := by
  refine ⟨fun s t h hbusy hreset => ?_, fun s t => engineStep_sameConfig⟩
  obtain ⟨-, hsame⟩ | ⟨rest, hp, -⟩ | ⟨-, o, d, rest, -, -, rfl⟩ | ⟨hidle, -⟩ | ⟨-, heng⟩ := step_regs h
  · rw [hsame hbusy]
    exact Regs.sameConfig_refl _
  · exact absurd hp (hreset rest)
  · rw [setIgn_regs, afterTaking_regs]
    exact Regs.sameConfig_refl _
  · exact absurd hidle hbusy
  · simpa using engineStep_sameConfig heng

/-- An engine step of the busy block sets a flag, ERR or RESULT only as CHECK or the end of the command does. -/
theorem engine_sets_flags {s t : State} (hbusy : s.phase ≠ .idle) (h : engineStep s.spendChoice = .next t) :
    (s.regs.done = false → t.regs.done = true → s.EngineCompletes t) ∧
      (t.regs.err ≠ 0 → t.regs.err ≠ s.regs.err → t.regs.done = true ∧ s.EngineCompletes t) ∧
      (t.regs.result ≠ 0 → t.regs.result ≠ s.regs.result →
        s.EngineCompletes t ∧ s.phase = .run ∧ t.regs.result = s.lat.n ∧ t.regs.done = true ∧ t.regs.err = 0) ∧
      (s.regs.trunc = false → t.regs.trunc = true → s.phase = .check ∧ s.lat.op = .decode ∧ s.cap < s.L) ∧
      t.regs.ign = s.regs.ign := by
  obtain ⟨r, hclamp, hreport⟩ := engineStep_regs h
  obtain ⟨hdone, hign, herr, hresult, -⟩ := hclamp.flags
  rw [spendChoice_regs] at hdone hign herr hresult
  have htrunc : s.regs.trunc = false → r.trunc = true → s.phase = .check ∧ s.lat.op = .decode ∧ s.cap < s.L := by
    obtain rfl | ⟨hph, hop, hlen, -⟩ := hclamp
    · intro h0 h1
      simp [h0] at h1
    · exact fun _ _ => ⟨by simpa using hph, by simpa using hop, by simpa [State.cap, State.W, State.H, State.L] using hlen⟩
  obtain ht | ⟨-, hidle, e, w, ht, hw⟩ := hreport
  · rw [ht, hdone, herr, hresult, hign]
    exact ⟨fun h0 h1 => by simp [h0] at h1, fun _ h1 => absurd rfl h1, fun _ h1 => absurd rfl h1, htrunc, rfl⟩
  · have hends : s.EngineCompletes t := ⟨hbusy, h, hidle⟩
    rw [ht]
    refine ⟨fun _ _ => hends, fun _ _ => ⟨rfl, hends⟩, fun hne _ => ⟨hends, ?_⟩, htrunc, hign⟩
    obtain rfl | ⟨hrun, rfl, rfl⟩ := hw
    · exact absurd rfl hne
    · exact ⟨by simpa using hrun, by simp, rfl, rfl⟩

/-- The acceptance of a word sets DONE and an error code only as the illegal word does (40_host_interface.md R84). -/
theorem acceptWord_sets_flags {s t : State} {w : Word} {rest : List HostOp} (hidle : s.phase = .idle)
    (hw : s.HostWrites 0x00 w rest) (ht : t = (s.afterTaking rest).acceptWord w) :
    (t.regs.done = true → s.HostSendsIllegal t) ∧
      (t.regs.err ≠ 0 → t.regs.done = true ∧ s.HostSendsIllegal t) ∧
      t.regs.result = 0 ∧ t.regs.trunc = false ∧ t.regs.ign = false := by
  obtain ⟨-, hst⟩ | ⟨-, hst⟩ | ⟨h1, h2, hst⟩ := acceptWord_cases (s.afterTaking rest) w
  · simp [ht, hst]
  · simp [ht, hst]
  · have hillegal : s.HostSendsIllegal t := ⟨hidle, w, rest, hw, h1, h2, ht.trans hst⟩
    rw [ht.trans hst] at hillegal ⊢
    exact ⟨fun _ => hillegal, fun _ => ⟨rfl, hillegal⟩, rfl, rfl, rfl⟩

/-- Settles O42, by the five kinds of step. -/
theorem flagsAreSetOnlyByTheirWriters : Obligations.FlagsAreSetOnlyByTheirWriters := by
  intro s t h
  obtain ⟨⟨hdone, htrunc, hign, herr, hresult⟩, -⟩ | ⟨rest, -, rfl⟩ | ⟨hbusy, o, d, rest, hw, ho, rfl⟩ |
    ⟨hidle, w, rest, hw, ht⟩ | ⟨hbusy, heng⟩ := step_regs h
  · simp +contextual [hdone, htrunc, hign, herr, hresult]
  · simp [Regs.reset]
  · exact ⟨by simp +contextual, by simp +contextual, by simp +contextual, by simp +contextual,
      fun _ _ => ⟨hbusy, o, d, rest, hw, ho, rfl⟩⟩
  · obtain ⟨hdone, herr, hresult, htrunc, hign⟩ := acceptWord_sets_flags hidle hw ht
    exact ⟨fun _ h1 => .inr (hdone h1), fun h1 _ => (herr h1).imp id .inr, fun h1 => absurd hresult h1,
      fun _ h1 => by simp [htrunc] at h1, fun _ h1 => by simp [hign] at h1⟩
  · obtain ⟨hdone, herr, hresult, htrunc, hign⟩ := engine_sets_flags hbusy heng
    exact ⟨fun h0 h1 => .inl (hdone h0 h1), fun h1 hne => (herr h1 hne).imp id .inl, hresult,
      fun h0 h1 => ⟨heng, htrunc h0 h1⟩, fun h0 h1 => by simp [hign, h0] at h1⟩

/-- An engine step of a good busy block takes back no flag, and finds ERR and RESULT at 0 (10_state.md R31). -/
theorem engine_clears_nothing {s t : State} (hs : s.Inv) (hbusy : s.phase ≠ .idle)
    (h : engineStep s.spendChoice = .next t) :
    (s.regs.done = true → t.regs.done = true) ∧ (s.regs.trunc = true → t.regs.trunc = true) ∧
      (s.regs.ign = true → t.regs.ign = true) ∧ s.regs.err = 0 ∧ s.regs.result = 0 := by
  obtain ⟨r, hclamp, hreport⟩ := engineStep_regs h
  obtain ⟨hdone, hign, -, -, htrunc⟩ := hclamp.flags
  rw [spendChoice_regs] at hdone hign htrunc
  obtain ⟨-, herr, hresult⟩ := hs.flags.busy_quiet (busy_eq_true.2 hbusy)
  obtain ht | ⟨-, -, e, w, ht, -⟩ := hreport <;> rw [ht]
  · exact ⟨hdone.trans, htrunc, hign.trans, herr, hresult⟩
  · exact ⟨fun _ => rfl, htrunc, hign.trans, herr, hresult⟩

/-- Settles O56, by the five kinds of step. -/
theorem flagsAreClearedOnlyByAcceptanceOrReset : Obligations.FlagsAreClearedOnlyByAcceptanceOrReset := by
  intro s t hs h hclear
  obtain ⟨⟨hdone, htrunc, hign, herr, hresult⟩, -⟩ | hreset | ⟨-, o, d, rest, -, -, rfl⟩ | haccept | ⟨hbusy, heng⟩ :=
    step_regs h
  · simp [hdone, htrunc, hign, herr, hresult] at hclear
  · exact .inl hreset
  · simp at hclear
  · exact .inr haccept
  · obtain ⟨hdone, htrunc, hign, herr, hresult⟩ := engine_clears_nothing hs hbusy heng
    obtain ⟨h1, h0⟩ | ⟨h1, h0⟩ | ⟨h1, h0⟩ | ⟨h1, -⟩ | ⟨h1, -⟩ := hclear
    · simp [hdone h1] at h0
    · simp [htrunc h1] at h0
    · simp [hign h1] at h0
    · exact absurd herr h1
    · exact absurd hresult h1

end Sys2Proof.Machine
end

section
/-! The fault mark (10_state.md R40, 60_exceptions.md R141). -/

namespace Sys2Proof.Machine

@[simp] theorem writeCommand_mark (s : State) (w : Word) : (s.writeCommand w).mark = s.mark := by
  obtain ⟨-, h⟩ | ⟨-, op, h⟩ | ⟨-, h⟩ := writeCommand_cases s w <;> simp [h]

@[simp] theorem writeOffset_mark (s : State) (o : BitVec 8) (d : Word) : (s.writeOffset o d).mark = s.mark := by
  obtain h | h | ⟨-, h⟩ | ⟨-, r, -, h⟩ := writeOffset_cases s o d <;> simp [h]

/-- A host action adds nothing to the mark but HostRace. -/
theorem hostAct_mark {op : HostOp} {s t : State} (h : hostAct op s = .next t) :
    t.mark = s.mark ∨ t.mark = { s.mark with hostRace := true } := by
  obtain rfl | ⟨r, rfl | ⟨o, rfl⟩⟩ | ⟨o, d, rfl⟩ | ⟨w, rfl⟩ | ⟨-, rfl⟩ | ⟨-, sp, a, v, -, -, rfl⟩ | ⟨-, rfl⟩ :=
    hostAct_cases h <;> simp

theorem startRun_mark (s : State) (n : Nat) :
    (s.startRun n).mark = s.mark ∨ (s.startRun n).mark = { s.mark with memRange := true } := by
  obtain ⟨-, h⟩ | ⟨-, -, h⟩ | ⟨-, -, h⟩ := startRun_cases s n <;> simp [h]

/-- An engine step adds nothing to the mark but MemRange. -/
theorem engineStep_mark {s t : State} (h : engineStep s = .next t) :
    t.mark = s.mark ∨ t.mark = { s.mark with memRange := true } := by
  obtain ⟨-, rfl⟩ | ⟨-, -, rfl⟩ | ⟨-, -, rfl⟩ | ⟨-, -, h⟩ | ⟨-, -, h⟩ := engineStep_cases h
  · exact .inl rfl
  · obtain ⟨-, h⟩ | ⟨-, -, h⟩ | ⟨-, -, h⟩ := encodeCheck_cases s <;> rw [h]
    · exact .inl rfl
    · exact .inl rfl
    · exact startRun_mark s s.L
  · obtain ⟨-, h⟩ | ⟨-, -, h⟩ | ⟨-, -, h⟩ := decodeCheck_cases s <;> rw [h]
    · exact .inl rfl
    · exact startRun_mark s.setTrunc s.cap
    · exact startRun_mark s s.L
  · obtain ⟨-, -, rfl⟩ := encodeRun_eq_next h
    simp
  · obtain ⟨-, -, rfl⟩ := decodeRun_eq_next h
    simp

/-- Settles O44: each agent's turn adds at most its own fault to the mark. -/
theorem faultMarkIsNeverCleared : Obligations.FaultMarkIsNeverCleared := by
  refine ⟨rfl, fun s t h => ?_⟩
  obtain ⟨-, -, -, rfl⟩ | ⟨-, op, rest, -, hact⟩ | ⟨-, heng⟩ := step_cases h
  · exact ⟨id, id⟩
  · rw [taken_spendChoice] at hact
    obtain hm | hm := hostAct_mark hact <;> simp [hm]
  · obtain hm | hm := engineStep_mark heng <;> simp [hm]

end Sys2Proof.Machine
end

section
/-! A command word as a register write, and the register window at platform addresses
(10_state.md R17, R18; 20_memory.md R44, R45; 30_encoding.md R65). -/

namespace Sys2Proof.Machine

/-- Settles O12: offset 0x00 is CMD, and each of the three command words is executed as the write of that word. -/
theorem commandWordIsRegisterWriteToCmd : Obligations.CommandWordIsRegisterWriteToCmd := by
  intro s w
  have hcmd : exec (.regWr 0x00 w) s = .next (s.writeCommand w) := rfl
  rw [hcmd]
  unfold decodeCommand
  split
  · subst w; rfl
  · split
    · subst w; rfl
    · rfl

/-- Four byte lanes, lowest first, are the word they concatenate to (20_memory.md R44). -/
theorem word_of_lanes (b₀ b₁ b₂ b₃ : Byte) : BitVec.ofNat 32 (leNat [b₀, b₁, b₂, b₃]) = b₃ ++ b₂ ++ b₁ ++ b₀ := by
  apply BitVec.eq_of_toNat_eq
  have h₀ := b₀.isLt
  have h₁ := b₁.isLt
  have h₂ := b₂.isLt
  have h₃ := b₃.isLt
  simp only [BitVec.toNat_append, BitVec.toNat_ofNat, leNat]
  rw [← Nat.shiftLeft_add_eq_or_of_lt h₂, ← Nat.shiftLeft_add_eq_or_of_lt h₁, ← Nat.shiftLeft_add_eq_or_of_lt h₀]
  simp only [Nat.shiftLeft_eq]
  omega

/-- The four byte lanes of a word. -/
theorem lanes_of_word (w : Word) :
    ∃ b₀ b₁ b₂ b₃ : Byte, leBytes 4 w.toNat = [b₀, b₁, b₂, b₃] ∧ w = b₃ ++ b₂ ++ b₁ ++ b₀ := by
  refine ⟨_, _, _, _, rfl, ?_⟩
  rw [← word_of_lanes]
  change w = BitVec.ofNat 32 (leNat (commandBytes w))
  rw [leNat_commandBytes]
  simp

/-- The window holds each of its 256 offsets (10_state.md R17). -/
theorem windowOffset_inside (s : State) (o : BitVec 8) : s.windowOffset (s.platform.regBase + o.toNat) = some o := by
  have ho := o.isLt
  simp [State.windowOffset, ho]

/-- Settles O15: inside the window the width alone decides, and four lanes are the word of the register access. -/
theorem platformAccessReachesTheWindow : Obligations.PlatformAccessReachesTheWindow := by
  intro s o
  have hwin := windowOffset_inside s o
  refine ⟨fun b₀ b₁ b₂ b₃ => ?_, ?_, fun lanes hl => ?_, fun count hc => ?_⟩
  · simp only [hostAct, platformWrite, hwin, word_of_lanes]
    rfl
  · obtain ⟨b₀, b₁, b₂, b₃, hlanes, hword⟩ := lanes_of_word (s.readOffset o)
    refine ⟨b₀, b₁, b₂, b₃, hword ▸ regRd_returns s o, ?_⟩
    simp only [hostAct, platformRead, hwin, hlanes, polled_eq]
    rfl
  · simp only [hostAct, platformWrite, hwin, if_neg hl]
  · simp only [hostAct, platformRead, hwin, if_neg hc]
    rfl

end Sys2Proof.Machine
end

section
/-! What a command's addresses are, and what the host's memory access does
(20_memory.md R49, R50, R53, R58; 40_host_interface.md R88; 70_reset_and_hazards.md R159). -/

namespace Sys2Proof.Machine

/-- Slot addresses rise strictly, since they rise and no two are the same (R50). -/
theorem slotAddr_strictMono {s : State} (hc : 3 ≤ s.C) {i j : Nat} (h : i < j) : s.slotAddr i < s.slotAddr j :=
  Nat.lt_of_le_of_ne (slotAddr_mono s hc h.le) fun he => h.ne (slotAddr_inj s hc he)

/-- The last slot and the last payload byte of a command are all that inRange looks at. -/
theorem inRange_of_covers {s : State} {n : Nat} (hpix : ∀ i, i < 8 * n → s.slotAddr i < s.platform.size .pix)
    (hpay : ∀ k, k < n → s.payAddr k < s.platform.size .pay) : s.inRange n = true := by
  cases n with
  | zero => rfl
  | succ m =>
    have hslot : s.slotAddr (8 * (m + 1) - 1) < s.platform.size .pix := hpix _ (by omega)
    have hbyte : s.payBase + m < s.platform.size .pay := hpay m (Nat.lt_succ_self m)
    simp [State.inRange, hslot, hbyte]

/-- Settles O20: with a pixel stride of at least three bytes slot addresses rise strictly, so the last ones bound the others. -/
theorem inRangeCoversEverySlot : Obligations.InRangeCoversEverySlot := by
  intro s n hvalid
  obtain ⟨-, -, hc⟩ := invalidBuffer_eq_false.1 hvalid
  exact ⟨fun i j => slotAddr_strictMono hc, inRange_covers hc, fun ⟨hpix, hpay⟩ => inRange_of_covers hpix hpay⟩

/-! An access where the host may access the memories, and one where it must not. -/

theorem hostAct_readMem_allowed {s : State} {sp : Space} {a : Nat} (hm : s.mustNotAccess = false)
    (ha : a < s.platform.size sp) : hostAct (.readMem sp a) s = .next (s.reply (.byte (s.readByte sp a))) := by
  simp [hostAct, hostRead, hm, withByte_inside _ ha]

theorem hostAct_writeMem_allowed {s : State} {sp : Space} {a : Nat} (v : Byte) (hm : s.mustNotAccess = false)
    (ha : a < s.platform.size sp) : hostAct (.writeMem sp a v) s = .next (s.writeByte sp a v) := by
  simp [hostAct, hostWrite, hm, storeByte_inside _ ha]

theorem hostAct_readMem_forbidden {s : State} (sp : Space) (a : Nat) (hm : s.mustNotAccess = true) :
    hostAct (.readMem sp a) s = .next s.raiseHostRace := by
  simp [hostAct, hostRead, hm]

theorem hostAct_writeMem_forbidden {s : State} (sp : Space) (a : Nat) (v : Byte) (hm : s.mustNotAccess = true) :
    hostAct (.writeMem sp a v) s = .next s.raiseHostRace := by
  simp [hostAct, hostWrite, hm]

/-- A write changes one byte of the two memories (R53). -/
theorem readByte_writeByte_ne {s : State} {sp sq : Space} {a b : Nat} (v : Byte) (h : (sq, b) ≠ (sp, a)) :
    (s.writeByte sp a v).readByte sq b = s.readByte sq b := by
  by_cases hsp : sq = sp
  · subst hsp
    exact readByte_writeByte_other s sq a b v fun hb => h (by rw [hb])
  · exact readByte_writeByte_space s sp sq a b v hsp

/-- Settles O16: inside the memory and outside R159's stretch an access is a reply, or the write of its byte. -/
theorem hostMemoryAccessWhileIdle : Obligations.HostMemoryAccessWhileIdle := by
  intro s sp a v hidle hpolled ha
  have hm : s.mustNotAccess = false := mustNotAccess_eq_false.2 ⟨hidle, hpolled⟩
  refine ⟨hostAct_readMem_allowed hm ha, s.writeByte sp a v, hostAct_writeMem_allowed v hm ha,
    readByte_writeByte_same s sp a v, fun _ _ => readByte_writeByte_ne v, ?_⟩
  simp [State.SameSurroundings]

/-- A host that has raced is not ready, whatever it has to do (60_exceptions.md R141). -/
theorem hostReady_raiseHostRace (s : State) : s.raiseHostRace.hostReady = false := by
  unfold State.hostReady
  split <;> simp

/-- Settles O17: an access where the host must not access the memories raises HostRace alone. -/
theorem hostAccessWhileBusyIsRace : Obligations.HostAccessWhileBusyIsRace := by
  intro s sp a v hwhen op hop
  have hm : s.mustNotAccess = true := mustNotAccess_eq_true.2 hwhen
  have hact : hostAct op s = .next s.raiseHostRace := by
    obtain rfl | rfl : op = .readMem sp a ∨ op = .writeMem sp a v := by simpa using hop
    · exact hostAct_readMem_forbidden sp a hm
    · exact hostAct_writeMem_forbidden sp a v hm
  exact ⟨hact, hostReady_raiseHostRace s⟩

end Sys2Proof.Machine
end

section
/-! Who writes the memories (20_memory.md R49, R56; 40_host_interface.md R88). -/

namespace Sys2Proof.Machine

theorem bank_of_eq {s t : State} (hpix : t.pix = s.pix) (hpay : t.pay = s.pay) (sp : Space) : t.bank sp = s.bank sp := by
  cases sp
  · exact hpix
  · exact hpay

/-- A state with the same two memories reads the same bytes. -/
theorem sameMemory_of_eq {s t : State} (hpix : t.pix = s.pix) (hpay : t.pay = s.pay) : s.SameMemory t :=
  fun sp => readByte_congr (bank_of_eq hpix hpay sp)

@[simp] theorem spendChoice_readByte (s : State) (sp : Space) (a : Nat) : s.spendChoice.readByte sp a = s.readByte sp a :=
  sameMemory_of_eq (spendChoice_pix s) (spendChoice_pay s) sp a
@[simp] theorem afterTaking_readByte (s : State) (rest : List HostOp) (sp : Space) (a : Nat) :
    (s.afterTaking rest).readByte sp a = s.readByte sp a :=
  sameMemory_of_eq (afterTaking_pix s rest) (afterTaking_pay s rest) sp a
@[simp] theorem finishSlot_readByte (s : State) (sp : Space) (a : Nat) : s.finishSlot.readByte sp a = s.readByte sp a :=
  sameMemory_of_eq (finishSlot_pix s) (finishSlot_pay s) sp a

@[simp] theorem spendChoice_cursorAddr (s : State) : s.spendChoice.cursorAddr = s.cursorAddr := by
  rw [spendChoice_eq]; rfl
@[simp] theorem spendChoice_payAddr (s : State) (k : Nat) : s.spendChoice.payAddr k = s.payAddr k := by
  rw [spendChoice_eq]; rfl

/-! ## The host -/

theorem writeCommand_bank (s : State) (w : Word) (sp : Space) : (s.writeCommand w).bank sp = s.bank sp := by
  obtain ⟨-, h⟩ | ⟨-, op, h⟩ | ⟨-, h⟩ := writeCommand_cases s w <;> rw [h] <;> exact bank_of_eq rfl rfl sp

theorem writeOffset_bank (s : State) (o : BitVec 8) (d : Word) (sp : Space) : (s.writeOffset o d).bank sp = s.bank sp := by
  obtain h | h | ⟨-, h⟩ | ⟨-, r, -, h⟩ := writeOffset_cases s o d <;> rw [h]
  · exact writeCommand_bank s d sp
  · exact bank_of_eq rfl rfl sp
  · exact bank_of_eq rfl rfl sp

theorem writeByte_bank_of_ne {s : State} {sp sq : Space} (a : Nat) (v : Byte) (h : sq ≠ sp) :
    (s.writeByte sp a v).bank sq = s.bank sq := by
  cases sp <;> cases sq
  · exact absurd rfl h
  · rfl
  · rfl
  · exact absurd rfl h

/-- A host action that changes a memory is the write of one of its bytes, where the host may access it (R88, R159). -/
theorem hostAct_changes_bank {op : HostOp} {s t : State} {sp : Space} (h : hostAct op s = .next t)
    (hne : t.bank sp ≠ s.bank sp) :
    s.phase = .idle ∧ s.unpolled = false ∧ ∃ a v, op = .writeMem sp a v ∧ t = s.writeByte sp a v := by
  obtain rfl | ⟨r, rfl | ⟨o, rfl⟩⟩ | ⟨o, d, rfl⟩ | ⟨w, rfl⟩ | ⟨-, rfl⟩ | ⟨hm, sq, a, v, hop, -, rfl⟩ | ⟨-, rfl⟩ :=
    hostAct_cases h
  · exact absurd rfl hne
  · exact absurd (bank_of_eq rfl rfl sp) hne
  · exact absurd (bank_of_eq rfl rfl sp) hne
  · exact absurd (writeOffset_bank s o d sp) hne
  · exact absurd (writeCommand_bank s w sp) hne
  · exact absurd (bank_of_eq rfl rfl sp) hne
  · obtain ⟨hidle, hpolled⟩ := mustNotAccess_eq_false.1 hm
    have hsp : sp = sq := by
      by_contra hsp
      exact hne (writeByte_bank_of_ne a v hsp)
    subst hsp
    exact ⟨hidle, hpolled, a, v, hop, rfl⟩
  · exact absurd (bank_of_eq rfl rfl sp) hne

/-! ## The engine -/

theorem startRun_bank (s : State) (n : Nat) (sp : Space) : (s.startRun n).bank sp = s.bank sp := by
  obtain ⟨-, h⟩ | ⟨-, -, h⟩ | ⟨-, -, h⟩ := startRun_cases s n <;> rw [h] <;> exact bank_of_eq rfl rfl sp

theorem encodeCheck_bank (s : State) (sp : Space) : (encodeCheck s).bank sp = s.bank sp := by
  obtain ⟨-, h⟩ | ⟨-, -, h⟩ | ⟨-, -, h⟩ := encodeCheck_cases s <;> rw [h]
  · exact bank_of_eq rfl rfl sp
  · exact bank_of_eq rfl rfl sp
  · exact startRun_bank s s.L sp

theorem decodeCheck_bank (s : State) (sp : Space) : (decodeCheck s).bank sp = s.bank sp := by
  obtain ⟨-, h⟩ | ⟨-, -, h⟩ | ⟨-, -, h⟩ := decodeCheck_cases s <;> rw [h]
  · exact bank_of_eq rfl rfl sp
  · exact (startRun_bank s.setTrunc s.cap sp).trans (bank_of_eq rfl rfl sp)
  · exact startRun_bank s s.L sp

/-- ENCODE's RUN step writes the slot the cursor names and no other byte of PIXMEM (42_encode.md R110). -/
theorem packed_readByte_other {s : State} {b : Nat} (h : b ≠ s.cursorAddr) :
    (packed s).readByte .pix b = s.readByte .pix b := by
  rw [packed, readByte_writeByte_other _ _ _ _ _ h, latched_readByte]

/-- Below bit 7 DECODE's RUN step writes nothing (43_decode.md R122). -/
theorem gathered_pay_of_bit_ne {s : State} (h : s.lat.bit ≠ 7) : (gathered s).pay = s.pay := by
  unfold gathered
  dsimp only
  rw [if_neg h, gatherSlot_pay]

/-- At bit 7 DECODE's RUN step writes its output byte and no other byte of PAYMEM (R122). -/
theorem gathered_readByte_other {s : State} {b : Nat} (h : b ≠ s.payAddr s.lat.k.toNat) :
    (gathered s).readByte .pay b = s.readByte .pay b := by
  unfold gathered
  dsimp only
  split
  · rw [readByte_writeByte_other _ _ _ _ _ h]
    rfl
  · rfl

theorem engineStep_changes_pix {s t : State} (h : engineStep s = .next t) (hne : t.pix ≠ s.pix) :
    s.phase = .run ∧ s.lat.op = .encode ∧ ∀ b, b ≠ s.cursorAddr → t.readByte .pix b = s.readByte .pix b := by
  obtain ⟨-, rfl⟩ | ⟨-, -, rfl⟩ | ⟨-, -, rfl⟩ | ⟨hrun, hop, h⟩ | ⟨-, -, h⟩ := engineStep_cases h
  · exact absurd rfl hne
  · exact absurd (encodeCheck_bank s .pix) hne
  · exact absurd (decodeCheck_bank s .pix) hne
  · obtain ⟨-, -, rfl⟩ := encodeRun_eq_next h
    exact ⟨hrun, hop, fun b hb => (finishSlot_readByte _ _ _).trans (packed_readByte_other hb)⟩
  · obtain ⟨-, -, rfl⟩ := decodeRun_eq_next h
    exact absurd (by simp) hne

theorem engineStep_changes_pay {s t : State} (h : engineStep s = .next t) (hne : t.pay ≠ s.pay) :
    s.phase = .run ∧ s.lat.op = .decode ∧ s.lat.bit = 7 ∧
      ∀ b, b ≠ s.payAddr s.lat.k.toNat → t.readByte .pay b = s.readByte .pay b := by
  obtain ⟨-, rfl⟩ | ⟨-, -, rfl⟩ | ⟨-, -, rfl⟩ | ⟨-, -, h⟩ | ⟨hrun, hop, h⟩ := engineStep_cases h
  · exact absurd rfl hne
  · exact absurd (encodeCheck_bank s .pay) hne
  · exact absurd (decodeCheck_bank s .pay) hne
  · obtain ⟨-, -, rfl⟩ := encodeRun_eq_next h
    exact absurd (by simp) hne
  · obtain ⟨-, -, rfl⟩ := decodeRun_eq_next h
    have hbit : s.lat.bit = 7 := by
      by_contra hbit
      exact hne ((finishSlot_pay _).trans (gathered_pay_of_bit_ne hbit))
    exact ⟨hrun, hop, hbit, fun b hb => (finishSlot_readByte _ _ _).trans (gathered_readByte_other hb)⟩

/-! ## The machine -/

/-- A step that changes a memory is the engine's, or it is the host's write of one of its bytes. -/
theorem step_changes_bank {s t : State} {sp : Space} (h : step s = .next t) (hne : t.bank sp ≠ s.bank sp) :
    engineStep s.spendChoice = .next t ∨
      (s.phase = .idle ∧ s.unpolled = false ∧ ∃ a v rest, s.host.pending = .writeMem sp a v :: rest ∧
        t.readByte sp a = v ∧ ∀ b, b ≠ a → t.readByte sp b = s.readByte sp b) := by
  obtain ⟨-, -, -, rfl⟩ | ⟨-, op, rest, hp, hact⟩ | ⟨-, heng⟩ := step_cases h
  · exact absurd rfl hne
  · rw [taken_spendChoice] at hact
    have hbank : (s.afterTaking rest).bank sp = s.bank sp := bank_of_eq (by simp) (by simp) sp
    obtain ⟨hidle, hpolled, a, v, rfl, rfl⟩ := hostAct_changes_bank hact (hbank ▸ hne)
    refine .inr ⟨by simpa using hidle, by simpa using hpolled, a, v, rest, hp, readByte_writeByte_same _ _ _ _,
      fun b hb => ?_⟩
    rw [readByte_writeByte_other _ _ _ _ _ hb, afterTaking_readByte]
  · exact .inl heng

/-- Settles O43, by which agent's step it is that changes the memory. -/
theorem memoryIsWrittenOnlyByItsWriters : Obligations.MemoryIsWrittenOnlyByItsWriters := by
  intro s t h
  refine ⟨fun hne => ?_, fun hne => ?_⟩
  · obtain heng | hhost := step_changes_bank (sp := .pix) h hne
    · exact .inl ⟨heng, by simpa using engineStep_changes_pix heng (by simpa using hne)⟩
    · exact .inr hhost
  · obtain heng | hhost := step_changes_bank (sp := .pay) h hne
    · exact .inl ⟨heng, by simpa using engineStep_changes_pay heng (by simpa using hne)⟩
    · exact .inr hhost

end Sys2Proof.Machine
end

section
/-! The stretch in which the host must not access the memories (20_memory.md R60, 70_reset_and_hazards.md R159):
what begins it, what ends it, and an access within it. -/

namespace Sys2Proof.Machine

/-! ## The engine neither begins nor ends it -/

theorem startRun_unpolled (s : State) (n : Nat) : (s.startRun n).unpolled = s.unpolled := by
  obtain ⟨-, h⟩ | ⟨-, -, h⟩ | ⟨-, -, h⟩ := startRun_cases s n <;> rw [h] <;> rfl

theorem encodeCheck_unpolled (s : State) : (encodeCheck s).unpolled = s.unpolled := by
  obtain ⟨-, h⟩ | ⟨-, -, h⟩ | ⟨-, -, h⟩ := encodeCheck_cases s <;> rw [h]
  · rfl
  · rfl
  · exact startRun_unpolled s s.L

theorem decodeCheck_unpolled (s : State) : (decodeCheck s).unpolled = s.unpolled := by
  obtain ⟨-, h⟩ | ⟨-, -, h⟩ | ⟨-, -, h⟩ := decodeCheck_cases s <;> rw [h]
  · rfl
  · exact startRun_unpolled s.setTrunc s.cap
  · exact startRun_unpolled s s.L

theorem engineStep_unpolled {s t : State} (h : engineStep s = .next t) : t.unpolled = s.unpolled := by
  obtain ⟨-, rfl⟩ | ⟨-, -, rfl⟩ | ⟨-, -, rfl⟩ | ⟨-, -, h⟩ | ⟨-, -, h⟩ := engineStep_cases h
  · rfl
  · exact encodeCheck_unpolled s
  · exact decodeCheck_unpolled s
  · obtain ⟨-, -, rfl⟩ := encodeRun_eq_next h
    simp
  · obtain ⟨-, -, rfl⟩ := decodeRun_eq_next h
    simp

/-! ## The host begins it with a command and ends it with a read of STATUS -/

/-- A host operation of the state `s` that starts ENCODE or DECODE: its word is written to CMD while idle (R83), and `t` follows. -/
def State.StartsCommand (s : State) (op : HostOp) (t : State) : Prop :=
  s.phase = .idle ∧ ∃ c : Op, s.writeOf op = some (0x00, if c = .encode then 0x00000001 else 0x00000002) ∧ t = s.accept c

/-- A host operation of the state `s` that reads STATUS while idle, which shows the host BUSY = 0, and `t` follows. -/
def State.SeesIdle (s : State) (op : HostOp) (t : State) : Prop :=
  s.phase = .idle ∧ s.readsStatus op = true ∧ ∃ r, t = (s.reply r).polled 0x04

/-- A word written to CMD starts no command, or it is the word of one and the block is idle (40_host_interface.md R81 to R84). -/
theorem writeCommand_unpolled (s : State) (w : Word) :
    (s.writeCommand w).unpolled = s.unpolled ∨
      (s.phase = .idle ∧ ∃ c : Op, w = (if c = .encode then 0x00000001 else 0x00000002) ∧ s.writeCommand w = s.accept c) := by
  unfold State.writeCommand
  cases hb : s.busy
  · have hidle := busy_eq_false.1 hb
    obtain ⟨rfl, h⟩ | ⟨rfl, h⟩ | ⟨-, -, h⟩ := acceptWord_cases s w
    · exact .inr ⟨hidle, .encode, rfl, h⟩
    · exact .inr ⟨hidle, .decode, rfl, h⟩
    · exact .inl (by simp [h])
  · exact .inl rfl

/-- A register write starts no command, or it writes the word of one to CMD while idle. -/
theorem writeOffset_unpolled (s : State) (o : BitVec 8) (d : Word) :
    (s.writeOffset o d).unpolled = s.unpolled ∨
      (s.phase = .idle ∧ ∃ c : Op, (o, d) = (0x00, if c = .encode then 0x00000001 else 0x00000002) ∧
        s.writeOffset o d = s.accept c) := by
  cases hr : Register.ofOffset o with
  | none => exact .inl (congrArg State.unpolled (writeOffset_of_none s d hr))
  | some r =>
    by_cases hcmd : r = .cmd
    · subst hcmd
      have ho : o = 0x00 := (offset_of_ofOffset hr).symm
      rw [writeOffset_of_cmd s d hr]
      obtain hsame | ⟨hidle, c, rfl, hst⟩ := writeCommand_unpolled s d
      · exact .inl hsame
      · exact .inr ⟨hidle, c, by rw [ho], hst⟩
    cases hc : r.isConfig
    · exact .inl (congrArg State.unpolled (writeOffset_of_readOnly s d hr hcmd hc))
    · rw [writeOffset_of_config s d hr hc, State.writeConfig]
      split <;> exact .inl rfl

/-- A register read leaves the stretch as it is, or the operation that makes it reads STATUS while idle. -/
theorem read_unpolled {s t : State} {op : HostOp} {r : Reply} {o : BitVec 8} (hstatus : o = 0x04 → s.readsStatus op = true)
    (ht : t = (s.reply r).polled o) : t.unpolled = s.unpolled ∨ s.SeesIdle op t := by
  subst ht
  by_cases ho : o = 0x04
  · cases hb : s.busy
    · exact .inr ⟨busy_eq_false.1 hb, hstatus ho, r, by rw [ho]⟩
    · have hb' : (s.reply r).busy = true := hb
      exact .inl (by simp [hb'])
  · exact .inl (by rw [polled_other ho, reply_unpolled])

/-- A host operation that writes no register leaves the stretch as it is, or it reads STATUS while idle. -/
theorem hostAct_unpolled_of_no_write {op : HostOp} {s t : State} (hw : s.writeOf op = none) (h : hostAct op s = .next t) :
    t.unpolled = s.unpolled ∨ s.SeesIdle op t := by
  cases op with
  | send bytes =>
    simp only [hostAct, hostSend] at h
    simp only [State.writeOf] at hw
    split at h
    · rename_i i hd
      rw [hd] at hw
      cases i <;> simp [regWriteOf] at hw
      cases h
      exact read_unpolled (fun ho => by simp [State.readsStatus, hd, ho]) rfl
    · cases h
  | wait =>
    cases h
    exact read_unpolled (fun _ => rfl) rfl
  | readMem sp a =>
    simp only [hostAct, hostRead] at h
    split at h
    · cases h; exact .inl rfl
    · obtain ⟨-, h⟩ := withByte_eq_next h
      cases h; exact .inl rfl
  | writeMem sp a v =>
    simp only [hostAct, hostWrite] at h
    split at h
    · cases h; exact .inl rfl
    · obtain ⟨-, rfl⟩ := storeByte_eq_next h
      exact .inl (by simp)
  | readLanes addr count =>
    simp only [hostAct, platformRead] at h
    split at h
    · cases h
    · rename_i o ho
      by_cases hc : count = 4
      · rw [if_pos hc] at h
        cases h
        exact read_unpolled (fun h4 => by simp [State.readsStatus, hc, ho, h4]) rfl
      · rw [if_neg hc] at h
        cases h; exact .inl rfl
  | writeLanes addr lanes =>
    simp only [hostAct, platformWrite] at h
    simp only [State.writeOf] at hw
    split at h
    · cases h
    · rename_i o ho
      by_cases hl : lanes.length = 4
      · simp [hl, ho] at hw
      · rw [if_neg hl] at h
        cases h; exact .inl rfl
  | reset => cases h; exact .inl rfl

/-- A host operation leaves the stretch as it is, or it starts a command, or it reads STATUS while idle. -/
theorem hostAct_unpolled {op : HostOp} {s t : State} (h : hostAct op s = .next t) :
    t.unpolled = s.unpolled ∨ s.StartsCommand op t ∨ s.SeesIdle op t := by
  cases hw : s.writeOf op with
  | none =>
    obtain hsame | hsees := hostAct_unpolled_of_no_write hw h
    · exact .inl hsame
    · exact .inr (.inr hsees)
  | some write =>
    obtain ⟨o, d⟩ := write
    have ht := hostAct_of_writeOf rfl hw h
    obtain hsame | ⟨hidle, c, hod, hst⟩ := writeOffset_unpolled s o d
    · exact .inl (ht ▸ hsame)
    · exact .inr (.inl ⟨hidle, c, hw.trans (congrArg some hod), ht.trans hst⟩)

/-! ## The machine -/

@[simp] theorem afterTaking_pending (s : State) (rest : List HostOp) : (s.afterTaking rest).host.pending = rest := rfl
@[simp] theorem afterTaking_replies (s : State) (rest : List HostOp) :
    (s.afterTaking rest).host.replies = s.host.replies := by
  simp [State.afterTaking]

theorem afterTaking_windowOffset (s : State) (rest : List HostOp) (addr : Nat) :
    (s.afterTaking rest).windowOffset addr = s.windowOffset addr := by
  simp [State.windowOffset]

@[simp] theorem afterTaking_writeOf (s : State) (rest : List HostOp) (op : HostOp) :
    (s.afterTaking rest).writeOf op = s.writeOf op := by
  cases op <;> simp [State.writeOf, afterTaking_windowOffset]
@[simp] theorem afterTaking_readsStatus (s : State) (rest : List HostOp) (op : HostOp) :
    (s.afterTaking rest).readsStatus op = s.readsStatus op := by
  cases op <;> simp [State.readsStatus, afterTaking_windowOffset]

/-- A step leaves the stretch as it is, or the host's oldest operation starts a command or reads STATUS while idle. -/
theorem step_unpolled {s t : State} (h : step s = .next t) :
    t.unpolled = s.unpolled ∨ ∃ op rest, s.host.pending = op :: rest ∧
      ((s.afterTaking rest).StartsCommand op t ∨ (s.afterTaking rest).SeesIdle op t) := by
  obtain ⟨-, -, -, rfl⟩ | ⟨-, op, rest, hp, hact⟩ | ⟨-, heng⟩ := step_cases h
  · exact .inl rfl
  · rw [taken_spendChoice] at hact
    obtain hsame | hchange := hostAct_unpolled hact
    · exact .inl (by simpa using hsame)
    · exact .inr ⟨op, rest, hp, hchange⟩
  · exact .inl (by simpa using engineStep_unpolled heng)

/-- When the host moves, the step is its oldest operation (40_host_interface.md R87). -/
theorem step_of_host_mover {s : State} {op : HostOp} {rest : List HostOp} (hm : s.mover = some .host)
    (hp : s.host.pending = op :: rest) : step s = hostAct op (s.afterTaking rest) := by
  have hp' : s.spendChoice.host.pending = op :: rest := by rw [spendChoice_host, hp]
  rw [step_of_mover hm, turnOf, hostTurn_of_pending hp', taken_spendChoice]

/-- Within the stretch a host memory access raises HostRace and does nothing else (R159, log 10). -/
theorem step_of_forbidden_access {s : State} {sp : Space} {a : Nat} {rest : List HostOp} (hu : s.unpolled = true)
    (hm : s.mover = some .host)
    (hp : s.host.pending = .readMem sp a :: rest ∨ ∃ v, s.host.pending = .writeMem sp a v :: rest) :
    step s = .next (s.afterTaking rest).raiseHostRace := by
  have hnot : (s.afterTaking rest).mustNotAccess = true := mustNotAccess_eq_true.2 (.inr (by simpa using hu))
  obtain hp | ⟨v, hp⟩ := hp
  · rw [step_of_host_mover hm hp, hostAct_readMem_forbidden sp a hnot]
  · rw [step_of_host_mover hm hp, hostAct_writeMem_forbidden sp a v hnot]

/-- Settles O59: the two kinds of step that change the record, and the access within the stretch. -/
theorem accessIsForbiddenUntilBusyZeroIsRead : Obligations.AccessIsForbiddenUntilBusyZeroIsRead := by
  intro s t h
  refine ⟨?begins, ?ends, ?within⟩
  case begins =>
    intro hs ht
    obtain hsame | ⟨op, rest, hp, ⟨hidle, c, hw, rfl⟩ | ⟨-, -, r, rfl⟩⟩ := step_unpolled h
    · simp [hs, ht] at hsame
    · exact ⟨by simpa using hidle, c, rest, ⟨op, hp, by simpa using hw⟩, rfl⟩
    · simp [hs] at ht
  case ends =>
    intro hs ht
    obtain hsame | ⟨op, rest, hp, ⟨-, c, -, rfl⟩ | ⟨hidle, hstatus, r, rfl⟩⟩ := step_unpolled h
    · simp [hs, ht] at hsame
    · simp at ht
    · exact ⟨by simpa using hidle, op, rest, hp, by simpa using hstatus, by simp, by simp, by simp, by simp,
        sameMemory_of_eq (by simp) (by simp), r, by simp⟩
  case within =>
    intro hs hm sp a rest hp
    obtain rfl : (s.afterTaking rest).raiseHostRace = t :=
      Host.Outcome.next.inj ((step_of_forbidden_access hs hm hp).symm.trans h)
    exact ⟨rfl, by simpa using hs, sameMemory_of_eq (by simp) (by simp)⟩

end Sys2Proof.Machine
end

section
/-! The encoder and the decoder are inverse to each other (30_encoding.md R65 to R72). -/

namespace Sys2Proof

theorem wf_illegalCmd {w : Word} : (Instr.illegalCmd w).wf = true ↔ w ≠ 0x00000001 ∧ w ≠ 0x00000002 := by
  simp [Instr.wf]

/-! Format CMD (R66 to R69). -/

theorem decodeCommand_of_illegal {w : Word} (h₁ : w ≠ 0x00000001) (h₂ : w ≠ 0x00000002) :
    decodeCommand w = .illegalCmd w := by
  rw [decodeCommand, if_neg h₁, if_neg h₂]

/-- A CMD word is one of the two commands or illegal, and encodes to its own bytes. -/
theorem encode_decodeCommand (w : Word) :
    encode (decodeCommand w) = commandBytes w ∧ (decodeCommand w).wf = true := by
  by_cases h₁ : w = 0x00000001
  · subst h₁; exact ⟨rfl, rfl⟩
  · by_cases h₂ : w = 0x00000002
    · subst h₂; exact ⟨rfl, rfl⟩
    · rw [decodeCommand_of_illegal h₁ h₂]
      exact ⟨rfl, wf_illegalCmd.2 ⟨h₁, h₂⟩⟩

/-! Format BUS (R70 to R72). -/

theorem decodeRecord_write (o : BitVec 8) (d : Word) : decodeRecord (record true o d) = .ok (.regWr o d) := by
  simp [decodeRecord]

theorem decodeRecord_read (o : BitVec 8) : decodeRecord (record false o 0) = .ok (.regRd o) := by
  simp [decodeRecord]

theorem decodeRecord_readWithData (o : BitVec 8) {d : Word} (h : d ≠ 0) :
    decodeRecord (record false o d) = .reject .readWithData := by
  rw [decodeRecord, recordIsWrite_record, if_neg Bool.false_ne_true, recordData_record, if_neg h]

/-- A record that decodes is a write of its DATA, or a read without DATA, and encodes to its own bytes. -/
theorem encode_of_decodeRecord {r : BitVec 41} {i : Instr} (h : decodeRecord r = .ok i) :
    encode i = recordBytes r ∧ i.wf = true := by
  obtain ⟨b, o, d, rfl⟩ : ∃ b o d, r = record b o d := ⟨_, _, _, (record_fields r).symm⟩
  cases b with
  | true =>
    rw [decodeRecord_write] at h
    cases h
    exact ⟨rfl, rfl⟩
  | false =>
    by_cases hd : d = 0
    · subst hd
      rw [decodeRecord_read] at h
      cases h
      exact ⟨rfl, rfl⟩
    · rw [decodeRecord_readWithData o hd] at h
      cases h

/-! Either format, as bytes. -/

/-- Four bytes are the CMD word whose number they are. -/
theorem commandBytes_leNat {bytes : List Byte} (h : bytes.length = 4) :
    commandBytes (BitVec.ofNat 32 (leNat bytes)) = bytes := by
  have hlt : leNat bytes < 2 ^ 32 := by simpa [h] using leNat_lt bytes
  have hback := leBytes_leNat bytes
  rw [h] at hback
  rw [commandBytes, BitVec.toNat_ofNat, Nat.mod_eq_of_lt hlt, hback]

/-- Six bytes of which no bit above bit 40 is set are the BUS record whose number they are. -/
theorem recordBytes_leNat {bytes : List Byte} (h : bytes.length = 6) (hlt : leNat bytes < 2 ^ 41) :
    recordBytes (BitVec.ofNat 41 (leNat bytes)) = bytes := by
  have hback := leBytes_leNat bytes
  rw [h] at hback
  rw [recordBytes, BitVec.toNat_ofNat, Nat.mod_eq_of_lt hlt, hback]

/-- Bytes that decode are those of a CMD word or of a well-formed BUS record. -/
theorem decode_eq_ok {bytes : List Byte} {i : Instr} (h : decode bytes = .ok i) :
    (∃ w, bytes = commandBytes w ∧ i = decodeCommand w) ∨ ∃ r, bytes = recordBytes r ∧ decodeRecord r = .ok i := by
  unfold decode at h
  split at h
  · rename_i h4
    cases h
    exact .inl ⟨_, (commandBytes_leNat h4).symm, rfl⟩
  · split at h
    · rename_i h6
      split at h
      · rename_i hlt
        exact .inr ⟨_, (recordBytes_leNat h6 hlt).symm, h⟩
      · cases h
    · cases h

theorem decode_encode {i : Instr} (h : i.wf = true) : decode (encode i) = .ok i := by
  cases i with
  | encode => exact decode_commandBytes 0x00000001
  | decode => exact decode_commandBytes 0x00000002
  | illegalCmd w =>
    obtain ⟨h₁, h₂⟩ := wf_illegalCmd.1 h
    rw [encode, decode_commandBytes, decodeCommand_of_illegal h₁ h₂]
  | regWr o d => rw [encode, decode_recordBytes, decodeRecord_write]
  | regRd o => rw [encode, decode_recordBytes, decodeRecord_read]

/-- Settles O52: each format's decoder gives back the fields its encoder put in. -/
theorem decodeOfEncodeIsTheInstruction : Obligations.DecodeOfEncodeIsTheInstruction := fun _ => decode_encode

/-- Settles O53: bytes that decode are a CMD word or a record, and each is the encoding of what it decodes to. -/
theorem encodeOfDecodeIsTheBytes : Obligations.EncodeOfDecodeIsTheBytes := by
  intro bytes i h
  obtain ⟨w, rfl, rfl⟩ | ⟨r, rfl, hr⟩ := decode_eq_ok h
  · exact encode_decodeCommand w
  · exact encode_of_decodeRecord hr

/-- Settles O55: each string is the encoding of its instruction, in the byte form of logs 7 and 8. -/
theorem specWordsDecode : Obligations.SpecWordsDecode :=
  ⟨decode_encode (i := .encode) rfl, decode_encode (i := .decode) rfl, decode_encode (i := .illegalCmd 3) rfl,
    decode_encode (i := .regWr 0x08 2) rfl, decode_encode (i := .regRd 0x24) rfl⟩

end Sys2Proof
end

section
/-! The step in which the host sends an instruction (30_encoding.md R65, R72; 40_host_interface.md R87). -/

namespace Sys2Proof.Machine

/-! Bytes sent are the instruction they decode to, or are refused by the decoder's reason. -/

theorem hostAct_send_of_ok {bytes : List Byte} {i : Instr} (s : State) (h : decode bytes = .ok i) :
    hostAct (.send bytes) s = exec i s := by
  simp only [hostAct, hostSend, h]

theorem hostAct_send_of_reject {bytes : List Byte} {why : DecodeError} (s : State) (h : decode bytes = .reject why) :
    hostAct (.send bytes) s = .refused (.malformed why) := by
  simp only [hostAct, hostSend, h]

/-- Settles O48: the host's turn is its oldest operation, which is the decoded instruction. -/
theorem stepRunsTheDecodedInstruction : Obligations.StepRunsTheDecodedInstruction := by
  intro s bytes rest i hp hd hm
  rw [step_of_host_mover hm hp, hostAct_send_of_ok _ hd, State.afterTaking]

/-- Settles O54: the record decodes to the refusal by name (R72), and the host's turn is to send it. -/
theorem readRecordWithDataIsRefused : Obligations.ReadRecordWithDataIsRefused := by
  intro offset data rest s hdata hp hm
  have hd : decode (recordBytes (record false offset data)) = .reject .readWithData := by
    rw [decode_recordBytes, decodeRecord_readWithData offset hdata]
  rw [step_of_host_mover hm hp, hostAct_send_of_reject _ hd]

/-! Placing a send puts the host next, and taking it off gives the state back. -/

theorem hostReady_withSend {s : State} (bytes : List Byte) (h : s.mark.hostRace = false) :
    (s.withSend bytes).hostReady = true := by
  simp [State.hostReady, State.withSend, h]

@[simp] theorem withSend_engineReady (s : State) (bytes : List Byte) : (s.withSend bytes).engineReady = s.engineReady := rfl

theorem withSend_sched_of_engine_ready {s : State} (bytes : List Byte) (he : s.engineReady = true) :
    (s.withSend bytes).sched = .host :: s.sched := by
  simp [State.withSend, he]

theorem mover_withSend {s : State} (bytes : List Byte) (h : s.mark.hostRace = false) :
    (s.withSend bytes).mover = some .host := by
  have hh := hostReady_withSend bytes h
  cases he : s.engineReady with
  | false => exact mover_of_host_only hh he
  | true => exact mover_of_both_ready hh he (withSend_sched_of_engine_ready bytes he)

theorem afterTaking_withSend {s : State} (bytes : List Byte) (h : s.mark.hostRace = false) :
    (s.withSend bytes).afterTaking s.host.pending = s := by
  have hh := hostReady_withSend bytes h
  cases he : s.engineReady with
  | false =>
    rw [State.afterTaking, spendChoice_of_engine_not_ready (s := s.withSend bytes) he]
    simp [State.withSend, he]
  | true =>
    rw [State.afterTaking,
      spendChoice_of_both_ready (s := s.withSend bytes) hh he (withSend_sched_of_engine_ready bytes he)]
    simp [State.withSend]

theorem decodeTableWord_eq_some {nbits w : Nat} {i : Instr} (h : decodeTableWord nbits w = some i) :
    decode (tableWordBytes nbits w) = .ok i := by
  unfold decodeTableWord at h
  split at h
  · cases h; assumption
  · cases h

/-- Settles O49: the host moves, its oldest operation is the placed one, and taking it off leaves the state as it was. -/
theorem placedInstructionRunsNext : Obligations.PlacedInstructionRunsNext := by
  intro s nbits w i hrace hw
  rw [State.withFetchWord, step_of_host_mover (mover_withSend _ hrace) rfl,
    hostAct_send_of_ok _ (decodeTableWord_eq_some hw), afterTaking_withSend _ hrace]

end Sys2Proof.Machine
end

section
/-! What the host sees of BUSY: a command starts, and `wait` holds until it has ended
(30_encoding.md R67, R68, R77; 40_host_interface.md R83). -/

namespace Sys2Proof.Machine

/-- Bit 0 of STATUS is BUSY (10_state.md R24). -/
theorem readOffset_status_bit0 (s : State) : (s.readOffset 0x04).getLsbD 0 = s.busy := by
  change s.statusWord.getLsbD 0 = s.busy
  have hodd : ∀ e i t d b : Nat, (16 * e + 8 * i + 4 * t + 2 * d + b) % 2 = b % 2 := by omega
  rw [statusWord_eq, BitVec.getLsbD_ofNat, Nat.testBit_zero, hodd]
  cases s.busy <;> rfl

@[simp] theorem accept_busy (s : State) (op : Op) : (s.accept op).busy = true := rfl

/-- Right after acceptance STATUS reads BUSY alone (R83). -/
theorem accept_readOffset_status (s : State) (op : Op) : (s.accept op).readOffset 0x04 = 1 := by
  change (s.accept op).statusWord = 1
  simp [statusWord_eq]

/-- A CMD word written while idle is accepted (R83). -/
theorem writeCommand_of_idle {s : State} (w : Word) (h : s.phase = .idle) : s.writeCommand w = s.acceptWord w := by
  simp [State.writeCommand, busy_eq_false.2 h]

/-- While idle the two command words start their command (R83). -/
theorem exec_command_of_idle {s : State} {i : Instr} {op : Op} (hidle : s.phase = .idle)
    (hi : (i, op) ∈ [(Instr.encode, Op.encode), (Instr.decode, Op.decode)]) : exec i s = .next (s.accept op) := by
  obtain ⟨rfl, rfl⟩ | ⟨rfl, rfl⟩ : (i = .encode ∧ op = .encode) ∨ (i = .decode ∧ op = .decode) := by simpa using hi
  · exact congrArg Host.Outcome.next (writeCommand_of_idle 0x00000001 hidle)
  · exact congrArg Host.Outcome.next (writeCommand_of_idle 0x00000002 hidle)

/-- Settles O10: the command is accepted, and acceptance changes the flags, RESULT, the phase and eng.op alone. -/
theorem encodeAndDecodeStartTheirCommand : Obligations.EncodeAndDecodeStartTheirCommand := by
  intro s hidle i op hi
  exact ⟨s.accept op, exec_command_of_idle hidle hi, rfl, rfl, accept_readOffset_status s op, rfl,
    ⟨rfl, rfl, rfl, rfl, rfl, rfl⟩, rfl, rfl, rfl, rfl, rfl, rfl, rfl⟩

theorem hostReady_of_wait {s : State} {rest : List HostOp} (hp : s.host.pending = .wait :: rest) :
    s.hostReady = (!s.mark.hostRace && !s.busy) := by
  simp only [State.hostReady, hp]

/-- An agent that cannot move is not the mover. -/
theorem mover_ne_host_of_not_ready {s : State} (h : s.hostReady = false) : s.mover ≠ some .host := by
  cases he : s.engineReady <;> simp [State.mover, h, he]

/-- Settles O18: a busy engine keeps the waiting host from moving; at an idle one `wait` is the REG_RD of STATUS. -/
theorem waitHoldsUntilIdle : Obligations.WaitHoldsUntilIdle := by
  intro s rest hp
  refine ⟨fun hbusy => ?busy, fun hidle hrace => ⟨?bit, ?step⟩⟩
  case busy =>
    have hb : s.busy = true := busy_eq_true.2 hbusy
    exact mover_ne_host_of_not_ready (by simp [hostReady_of_wait hp, hb])
  case bit => rw [readOffset_status_bit0, busy_eq_false.2 hidle]
  case step =>
    have hb : s.busy = false := busy_eq_false.2 hidle
    have hh : s.hostReady = true := by simp [hostReady_of_wait hp, hrace, hb]
    have he : s.engineReady = false := by simp [State.engineReady, hb]
    have htaken : s.afterTaking rest = taken s rest := by
      rw [← taken_spendChoice, spendChoice_of_engine_not_ready he]
    have hseen : (taken s rest).unpolledAfter 0x04 = false := if_pos ⟨rfl, hidle⟩
    have hread : hostAct .wait (taken s rest) = _ := regRd_returns (taken s rest) 0x04
    rw [step_of_host_mover (mover_of_host_only hh he) hp, htaken, hread, hseen]
    rfl

end Sys2Proof.Machine
end

section
/-! The five instructions as register accesses: each is a register write but REG_RD (30_encoding.md R65, 40_host_interface.md R79 to R85). -/

namespace Sys2Proof.Machine

/-- An instruction that is a register write performs it: a CMD word is the write to offset 0x00 (10_state.md R18). -/
theorem exec_of_regWriteOf {i : Instr} {o : BitVec 8} {d : Word} (s : State) (h : regWriteOf i = some (o, d)) :
    exec i s = .next (s.writeOffset o d) := by
  cases i <;> cases h <;> rfl

theorem regWriteOf_eq_none {i : Instr} (h : regWriteOf i = none) : ∃ o, i = .regRd o := by
  cases i with
  | regRd o => exact ⟨o, rfl⟩
  | _ => cases h

/-- What an instruction does: its register write, or the answer of its register read. -/
theorem exec_cases (i : Instr) (s : State) :
    (∃ o d, regWriteOf i = some (o, d) ∧ exec i s = .next (s.writeOffset o d)) ∨
      ∃ o, i = .regRd o ∧ s.Returns o (s.readOffset o) := by
  cases h : regWriteOf i with
  | none =>
    obtain ⟨o, rfl⟩ := regWriteOf_eq_none h
    exact .inr ⟨o, rfl, regRd_returns s o⟩
  | some write => exact .inl ⟨write.1, write.2, rfl, exec_of_regWriteOf s h⟩

/-- Settles O13: a register write and a register read each answer a next state. -/
theorem everyInstructionAnswersNext : Obligations.EveryInstructionAnswersNext := by
  intro i s
  obtain ⟨o, d, -, h⟩ | ⟨o, rfl, h⟩ := exec_cases i s
  · exact ⟨_, h⟩
  · exact ⟨_, h⟩

end Sys2Proof.Machine
end

section
/-! REG_WR by its offset: what is stored, what is dropped, and what changes nothing (40_host_interface.md R79 to R82). -/

namespace Sys2Proof.Machine

theorem writeConfig_of_idle {s : State} (r : Register) (d : Word) (h : s.phase = .idle) :
    s.writeConfig r d = { s with regs := s.regs.store d r } := by
  simp [State.writeConfig, busy_eq_false.2 h]

theorem writeConfig_of_busy {s : State} (r : Register) (d : Word) (h : s.phase ≠ .idle) :
    s.writeConfig r d = s.setIgn := by
  simp [State.writeConfig, busy_eq_true.2 h]

theorem writeCommand_of_busy {s : State} (w : Word) (h : s.phase ≠ .idle) : s.writeCommand w = s.setIgn := by
  simp [State.writeCommand, busy_eq_true.2 h]

/-- While idle a REG_WR at a configuration register's offset stores into that register (R80). -/
theorem writeOffset_config_of_idle {s : State} {r : Register} (d : Word) (hc : r.isConfig = true) (h : s.phase = .idle) :
    s.writeOffset r.offset d = { s with regs := s.regs.store d r } := by
  rw [writeOffset_of_config s d (ofOffset_offset r) hc, writeConfig_of_idle r d h]

/-- Settles O3: each configuration register stores the low bits of its field's width. -/
theorem configWriteWhileIdleStores : Obligations.ConfigWriteWhileIdleStores := by
  intro s d hidle
  have hstore : ∀ r : Register, r.isConfig = true →
      exec (.regWr r.offset d) s = .next { s with regs := s.regs.store d r } := fun r hc =>
    congrArg Host.Outcome.next (writeOffset_config_of_idle d hc hidle)
  rw [← BitVec.setWidth_eq_extractLsb' (w := 16) (by decide), ← BitVec.setWidth_eq_extractLsb' (w := 8) (by decide)]
  exact ⟨hstore .width rfl, hstore .height rfl, hstore .channels rfl, hstore .pixBase rfl, hstore .payBase rfl,
    hstore .length rfl⟩

/-- The offsets R81 speaks of are those of CMD and of the configuration registers. -/
theorem register_of_droppedOffset {o : BitVec 8} (h : o ∈ droppedOffsets) :
    ∃ r : Register, r.offset = o ∧ (r = .cmd ∨ r.isConfig = true) := by
  have h' : o ∈ [Register.cmd, .width, .height, .channels, .pixBase, .payBase, .length].map Register.offset := h
  obtain ⟨r, hr, rfl⟩ := List.mem_map.1 h'
  refine ⟨r, rfl, ?_⟩
  revert hr
  cases r <;> decide

/-- While busy a REG_WR to CMD or to a configuration register sets IGN alone (R81). -/
theorem writeOffset_of_busy {s : State} {o : BitVec 8} (d : Word) (ho : o ∈ droppedOffsets) (h : s.phase ≠ .idle) :
    s.writeOffset o d = s.setIgn := by
  obtain ⟨r, rfl, rfl | hc⟩ := register_of_droppedOffset ho
  · rw [writeOffset_of_cmd s d (ofOffset_offset .cmd), writeCommand_of_busy d h]
  · rw [writeOffset_of_config s d (ofOffset_offset r) hc, writeConfig_of_busy r d h]

/-- Settles O4: a CMD word is a write to offset 0x00, and that is one of the offsets at which a busy block drops a write. -/
theorem busyWritesAreDroppedAndSetIgn : Obligations.BusyWritesAreDroppedAndSetIgn := by
  intro s d hbusy
  refine ⟨fun o ho => congrArg Host.Outcome.next (writeOffset_of_busy d ho hbusy), fun i hi => ?_⟩
  have hcmd : ∃ w, regWriteOf i = some (0x00, w) := by
    obtain rfl | rfl | rfl : i = .encode ∨ i = .decode ∨ i = .illegalCmd d := by simpa using hi
    · exact ⟨_, rfl⟩
    · exact ⟨_, rfl⟩
    · exact ⟨_, rfl⟩
  obtain ⟨w, hw⟩ := hcmd
  rw [exec_of_regWriteOf s hw, writeOffset_of_busy w (by decide) hbusy, State.setIgn]

/-- Settles O5: the three offsets are those of the read-only registers. -/
theorem readOnlyRegisterWritesChangeNothing : Obligations.ReadOnlyRegisterWritesChangeNothing := by
  intro s d o ho
  have hkeep : ∀ r : Register, r ≠ .cmd → r.isConfig = false → exec (.regWr r.offset d) s = .next s := fun r hcmd hc =>
    congrArg Host.Outcome.next (writeOffset_of_readOnly s d (ofOffset_offset r) hcmd hc)
  obtain rfl | rfl | rfl : o = 0x04 ∨ o = 0x20 ∨ o = 0x24 := by simpa using ho
  · exact hkeep .status (by decide) rfl
  · exact hkeep .result (by decide) rfl
  · exact hkeep .cap (by decide) rfl

/-- Settles O6: no register stands at such an offset. -/
theorem reservedOffsetWritesChangeNothing : Obligations.ReservedOffsetWritesChangeNothing := fun s d _ ho =>
  congrArg Host.Outcome.next (writeOffset_of_none s d (ofOffset_reserved ho))

end Sys2Proof.Machine
end

section
/-! REG_RD: the word at each offset (40_host_interface.md R85). -/

namespace Sys2Proof.Machine

theorem readOffset_of_none {o : BitVec 8} (s : State) (h : Register.ofOffset o = none) : s.readOffset o = 0 := by
  simp only [State.readOffset, h]

/-- A REG_RD at a register's offset answers the register's word. -/
theorem regRd_returns_register (s : State) (r : Register) : s.Returns r.offset (s.readRegister r) := by
  have h := regRd_returns s r.offset
  rwa [State.readOffset, ofOffset_offset] at h

/-- BUSY as a number (10_state.md R19). -/
theorem busy_toNat (s : State) : s.busy.toNat = if s.phase = .idle then 0 else 1 := by
  cases h : s.busy
  · rw [if_pos (busy_eq_false.1 h)]; rfl
  · rw [if_neg (busy_eq_true.1 h)]; rfl

/-- Settles O7, offset by offset; RESULT is 0 while busy by the invariant. -/
theorem registerReadReturnsItsWord : Obligations.RegisterReadReturnsItsWord := by
  intro s
  have hreg := regRd_returns_register s
  have hresult : s.Inv → s.phase ≠ .idle → s.regs.result = 0 := fun hs hbusy => by
    obtain ⟨-, -, h⟩ := hs.flags.busy_quiet (busy_eq_true.2 hbusy)
    exact h
  rw [← busy_toNat, ← statusWord_eq]
  simp only [BitVec.ofNat_toNat]
  exact ⟨fun o ho => readOffset_of_none s (ofOffset_reserved ho) ▸ regRd_returns s o, hreg .cmd, hreg .status, hreg .width,
    hreg .height, hreg .channels, hreg .pixBase, hreg .payBase, hreg .length, hreg .result,
    fun hs hbusy => hresult hs hbusy ▸ hreg .result, hreg .cap⟩

end Sys2Proof.Machine
end

section
/-! A CMD word while idle (40_host_interface.md R83, R84). -/

namespace Sys2Proof.Machine

theorem writeCommand_of_idle_of_illegal {s : State} {w : Word} (hidle : s.phase = .idle) (h₁ : w ≠ 0x00000001)
    (h₂ : w ≠ 0x00000002) : s.writeCommand w = s.acceptIllegal := by
  rw [writeCommand_of_idle w hidle, State.acceptWord, if_neg h₁, if_neg h₂]

theorem acceptIllegal_sameSurroundings (s : State) : s.SameSurroundings s.acceptIllegal := ⟨rfl, rfl, rfl, rfl, rfl⟩

/-- An illegal word leaves STATUS at ERR = 3 and DONE = 1 alone (R84, 10_state.md R24). -/
theorem acceptIllegal_readOffset_status (s : State) : s.acceptIllegal.readOffset 0x04 = 0x32 := by
  change s.acceptIllegal.statusWord = 0x32
  simp [statusWord_eq, ErrCode.code, State.busy]

/-- Settles O9, by the three kinds of word. -/
theorem commandWordIsAcceptedWhileIdle : Obligations.CommandWordIsAcceptedWhileIdle := by
  intro s hidle
  refine ⟨congrArg Host.Outcome.next (writeCommand_of_idle 0x00000001 hidle),
    congrArg Host.Outcome.next (writeCommand_of_idle 0x00000002 hidle), fun w h₁ h₂ => ?_⟩
  exact ⟨s.acceptIllegal, congrArg Host.Outcome.next (writeCommand_of_idle_of_illegal hidle h₁ h₂), rfl, rfl, rfl, rfl,
    acceptIllegal_sameSurroundings s⟩

/-- Settles O11: a well-formed illegal word is neither command's, and its acceptance completes. -/
theorem illegalCommandCompletesAtOnce : Obligations.IllegalCommandCompletesAtOnce := by
  intro s w hidle hwf
  obtain ⟨h₁, h₂⟩ := wf_illegalCmd.1 hwf
  exact ⟨s.acceptIllegal, congrArg Host.Outcome.next (writeCommand_of_idle_of_illegal hidle h₁ h₂), rfl,
    acceptIllegal_readOffset_status s, rfl, ⟨rfl, rfl, rfl, rfl, rfl, rfl⟩, rfl, rfl, acceptIllegal_sameSurroundings s⟩

end Sys2Proof.Machine
end

section
/-! The frame of the five instructions (40_host_interface.md R79 to R85, 70_reset_and_hazards.md R159). -/

namespace Sys2Proof.Machine

/-- A CMD word changes the registers, the engine, the record of R159 and the draw counter alone. -/
theorem writeCommand_eq (s : State) (w : Word) :
    s.writeCommand w = { s with
      regs := (s.writeCommand w).regs, phase := (s.writeCommand w).phase, lat := (s.writeCommand w).lat
      unpolled := (s.writeCommand w).unpolled, draws := (s.writeCommand w).draws } := by
  obtain ⟨-, h⟩ | ⟨-, op, h⟩ | ⟨-, h⟩ := writeCommand_cases s w <;> rw [h] <;> rfl

/-- A REG_WR changes no more than a CMD word can. -/
theorem writeOffset_eq (s : State) (o : BitVec 8) (d : Word) :
    s.writeOffset o d = { s with
      regs := (s.writeOffset o d).regs, phase := (s.writeOffset o d).phase, lat := (s.writeOffset o d).lat
      unpolled := (s.writeOffset o d).unpolled, draws := (s.writeOffset o d).draws } := by
  obtain h | h | ⟨-, h⟩ | ⟨-, r, -, h⟩ := writeOffset_cases s o d <;> rw [h]
  · exact writeCommand_eq s d
  · rfl

/-- A CMD word leaves the configuration (R83, R84). -/
theorem writeCommand_sameConfig (s : State) (w : Word) : s.regs.SameConfig (s.writeCommand w).regs := by
  obtain ⟨-, h⟩ | ⟨-, op, h⟩ | ⟨-, h⟩ := writeCommand_cases s w <;> rw [h] <;> exact ⟨rfl, rfl, rfl, rfl, rfl, rfl⟩

/-- The stretch of R159 begins with a CMD word that leaves the idle block busy, and with nothing else the word can do. -/
theorem writeCommand_unpolled_eq (s : State) (w : Word) :
    (s.writeCommand w).unpolled =
      (s.unpolled || (decide (s.phase = .idle) && decide ((s.writeCommand w).phase ≠ .idle))) := by
  obtain ⟨hb, h⟩ | ⟨hb, op, h⟩ | ⟨hb, h⟩ := writeCommand_cases s w <;> rw [h]
  · simp [busy_eq_true.1 hb]
  · simp [busy_eq_false.1 hb]
  · simp

theorem writeOffset_unpolled_eq (s : State) (o : BitVec 8) (d : Word) :
    (s.writeOffset o d).unpolled =
      (s.unpolled || (decide (s.phase = .idle) && decide ((s.writeOffset o d).phase ≠ .idle))) := by
  obtain h | h | ⟨hb, h⟩ | ⟨-, r, -, h⟩ := writeOffset_cases s o d <;> rw [h]
  · simp
  · exact writeCommand_unpolled_eq s d
  · simp [busy_eq_true.1 hb]
  · simp

/-- A REG_WR to another offset than CMD changes nothing, sets IGN while busy, or stores into the register at its offset. -/
theorem writeOffset_cases_of_ne_cmd (s : State) {o : BitVec 8} (d : Word) (ho : o ≠ 0x00) :
    s.writeOffset o d = s ∨ (s.phase ≠ .idle ∧ s.writeOffset o d = s.setIgn) ∨
      ∃ r : Register, r.offset = o ∧ s.writeOffset o d = { s with regs := s.regs.store d r } := by
  cases hr : Register.ofOffset o with
  | none => exact .inl (writeOffset_of_none s d hr)
  | some r =>
    have hoff : r.offset = o := offset_of_ofOffset hr
    have hcmd : r ≠ .cmd := fun h => ho (by rw [← hoff, h]; rfl)
    cases hc : r.isConfig
    · exact .inl (writeOffset_of_readOnly s d hr hcmd hc)
    · rw [writeOffset_of_config s d hr hc]
      by_cases hidle : s.phase = .idle
      · exact .inr (.inr ⟨r, hoff, writeConfig_of_idle r d hidle⟩)
      · exact .inr (.inl ⟨hidle, writeConfig_of_busy r d hidle⟩)

/-- The configuration registers of two register files agree but for the one at the offset. -/
def Regs.SameConfigBut (r : Regs) (o : BitVec 8) (q : Regs) : Prop :=
  (o ≠ 0x08 → q.width = r.width) ∧ (o ≠ 0x0C → q.height = r.height) ∧ (o ≠ 0x10 → q.channels = r.channels) ∧
    (o ≠ 0x14 → q.pixBase = r.pixBase) ∧ (o ≠ 0x18 → q.payBase = r.payBase) ∧ (o ≠ 0x1C → q.length = r.length)

theorem Regs.SameConfig.but {r q : Regs} (h : q.SameConfig r) (o : BitVec 8) : r.SameConfigBut o q := by
  obtain ⟨hw, hh, hc, hx, hy, hl⟩ := h
  exact ⟨fun _ => hw, fun _ => hh, fun _ => hc, fun _ => hx, fun _ => hy, fun _ => hl⟩

theorem store_sameConfigBut (r : Regs) (d : Word) (x : Register) : r.SameConfigBut x.offset (r.store d x) := by
  cases x <;> simp [Regs.SameConfigBut, Regs.store, Register.offset]

/-- A REG_WR to another offset than CMD leaves the engine, the outcome flags and the record of R159, IGN while idle,
and every configuration register but the one at its offset (R79 to R82). -/
theorem writeOffset_frame_of_ne_cmd (s : State) {o : BitVec 8} (d : Word) (ho : o ≠ 0x00) {t : State}
    (ht : s.writeOffset o d = t) :
    t.phase = s.phase ∧ t.lat = s.lat ∧ t.unpolled = s.unpolled ∧ t.regs.done = s.regs.done ∧
      t.regs.trunc = s.regs.trunc ∧ t.regs.err = s.regs.err ∧ t.regs.result = s.regs.result ∧
      (s.phase = .idle → t.regs.ign = s.regs.ign) ∧ s.regs.SameConfigBut o t.regs := by
  obtain h | ⟨hbusy, h⟩ | ⟨r, rfl, h⟩ := writeOffset_cases_of_ne_cmd s d ho <;> obtain rfl := ht.symm.trans h
  · exact ⟨rfl, rfl, rfl, rfl, rfl, rfl, rfl, fun _ => rfl, (Regs.sameConfig_refl _).but o⟩
  · exact ⟨rfl, rfl, rfl, rfl, rfl, rfl, rfl, fun hidle => absurd hidle hbusy, (Regs.sameConfig_refl _).but o⟩
  · obtain ⟨hdone, htrunc, hign, herr, hresult⟩ := store_sameFlags s.regs d r
    exact ⟨rfl, rfl, rfl, hdone, htrunc, herr, hresult, fun _ => hign, store_sameConfigBut s.regs d r⟩

theorem offset_of_regWriteOf {i : Instr} {o : BitVec 8} {d : Word} (h : regWriteOf i = some (o, d))
    (hi : ∀ offset data, i ≠ .regWr offset data) : o = 0x00 := by
  cases i with
  | regWr offset data => exact absurd rfl (hi offset data)
  | regRd offset => cases h
  | _ => cases h; rfl

/-- Settles O14: an instruction is a register write, whose frame its offset decides, or a register read. -/
theorem instructionFrame : Obligations.InstructionFrame := by
  intro i s t h
  obtain ⟨o, d, hi, hst⟩ | ⟨o, rfl, hst⟩ := exec_cases i s
  · have ht : s.writeOffset o d = t := Host.Outcome.next.inj (hst.symm.trans h)
    have hother := ht ▸ writeOffset_eq s o d
    refine ⟨?memory, ?_, ?_, ?_, ?_, fun _ => ?_, ?notRegWr, ?notCmd, ?cmd, fun _ => ht ▸ writeOffset_unpolled_eq s o d,
      ?regRd⟩
    case memory => rw [hother]; exact sameMemory_of_eq rfl rfl
    case notRegWr =>
      intro hne
      obtain rfl := offset_of_regWriteOf hi hne
      exact ht ▸ writeCommand_sameConfig s d
    case notCmd =>
      rintro offset data rfl hne
      cases hi
      exact writeOffset_frame_of_ne_cmd s d hne ht
    case cmd =>
      rintro data rfl
      cases hi
      exact ht ▸ writeCommand_sameConfig s d
    case regRd =>
      rintro offset rfl
      cases hi
    all_goals rw [hother]
  · obtain rfl := Host.Outcome.next.inj (hst.symm.trans h)
    refine ⟨sameMemory_of_eq rfl rfl, rfl, rfl, rfl, rfl, fun hne => absurd rfl (hne o), fun _ => Regs.sameConfig_refl _,
      ?_, ?_, fun hne => absurd rfl (hne o), ?_⟩
    · rintro offset data ⟨⟩
    · rintro data ⟨⟩
    · rintro offset ⟨⟩
      exact ⟨rfl, rfl, rfl, rfl⟩

end Sys2Proof.Machine
end

section
/-! The end of a run (40_host_interface.md R90, 60_exceptions.md R152). -/

namespace Sys2Proof.Machine

theorem hostReady_of_empty {s : State} (h : s.host.pending = []) : s.hostReady = false := by
  simp only [State.hostReady, h]

theorem engineReady_of_idle {s : State} (h : s.phase = .idle) : s.engineReady = false := by
  simp [State.engineReady, busy_eq_false.2 h]

/-- With an empty mark a machine in which no agent can move stays as it is (log 16). -/
theorem stalled_of_unmarked {s : State} (h : s.mark = { memRange := false, hostRace := false }) : stalled s = .next s := by
  simp [stalled, h]

/-- Settles O51: neither agent can move, and no model fault is recorded. -/
theorem finalStateStays : Obligations.FinalStateStays := by
  rintro s ⟨hpending, hidle, hmark⟩
  have hmover : s.mover = none := by simp [State.mover, hostReady_of_empty hpending, engineReady_of_idle hidle]
  rw [step_of_no_mover hmover, stalled_of_unmarked hmark]

end Sys2Proof.Machine
end

section
/-! The slot index and its row, column and channel (41_sequencer.md R94 to R96). -/

namespace Sys2Proof.Machine

/-- A slot's pixel, read in row-major order, is its row and column. -/
theorem slot_div_three (w i : Nat) : i / 3 = i / (3 * w) * w + i % (3 * w) / 3 := by
  rw [← Nat.div_div_eq_div_mul, Nat.mod_mul_right_div_self, Nat.div_add_mod']

/-- Settles O19: the pixel index i / 3 is row * W + column, and the channel is what is left of i. -/
theorem slotIndexInverse : Obligations.SlotIndexInverse := by
  intro s i hi
  have hslots : i < 3 * s.W * s.H := by unfold slotCount at hi; rwa [Nat.mul_assoc, Nat.mul_comm]
  have hpixels : 0 < 3 * s.W := Nat.pos_of_mul_pos_right (Nat.zero_lt_of_lt hslots)
  have hchan : i % 3 < 3 := Nat.mod_lt _ (by decide)
  have hindex : slotIndex s.W (i / (3 * s.W)) (i % (3 * s.W) / 3) (i % 3) = i := by
    rw [slotIndex, ← slot_div_three, Nat.div_add_mod']
  exact ⟨Nat.div_lt_of_lt_mul hslots, Nat.div_lt_of_lt_mul (Nat.mod_lt i hpixels), hchan, hindex,
    slot_div_three s.W i, pixAddr_eq_slotAddr s hchan hindex.symm⟩

/-- The pixel half goes down at most one row. -/
theorem advancePixel_row_le (c : Latches) (w : Nat) : (c.advancePixel w).row.toNat ≤ c.row.toNat + 1 := by
  unfold Latches.advancePixel
  split
  · split
    · exact (BitVec.toNat_ofNat _ _).trans_le (Nat.mod_le _ _)
    · exact Nat.le_succ _
  · exact Nat.le_succ _

/-- Settles O23: the pixel half moves the slot index, the payload half the bit index, and both leave the other latches. -/
theorem advanceMovesToTheNextSlot : Obligations.AdvanceMovesToTheNextSlot := by
  intro s hrow hcol hchan hk
  have hH := H_lt s
  have hbit := advanceBit_bitIndex (c := s.lat.advancePixel s.W) (by rwa [advancePixel_k])
  rw [advancePixel_k, advancePixel_bit] at hbit
  obtain ⟨hslot, hcol', hchan'⟩ := advancePixel_slotIndex (c := s.lat) (by omega) (W_lt s) hcol hchan
  have hrow' : (s.lat.advancePixel s.W).row.toNat ≤ s.H := (advancePixel_row_le _ _).trans hrow
  simp only [advance_lat, advanceBit_row, advanceBit_col, advanceBit_chan]
  exact ⟨hslot, hbit, hchan', hcol', hrow', advance_op _ _, advance_n _ _, advance_pbyte _ _, advance_acc _ _⟩

end Sys2Proof.Machine
end

section
/-! How long a command runs (41_sequencer.md R102, 70_reset_and_hazards.md R167): one CHECK step, and one RUN step a slot. -/

namespace Sys2Proof.Machine

/-- The engine's next step is the RUN step of slot `i` of an acceptable command of `n` bytes.
Unlike `RunInv` it says nothing of the flags and the fault mark, on which no engine step depends. -/
structure State.AtSlot (s : State) (n i : Nat) : Prop where
  running    : s.phase = .run
  acceptable : s.Acceptable n
  count      : s.lat.n.toNat = n
  more       : i < 8 * n
  payload    : 8 * s.lat.k.toNat + s.lat.bit.toNat = i
  slot       : slotIndex s.W s.lat.row.toNat s.lat.col.toNat s.lat.chan.toNat = i
  col_lt     : s.lat.col.toNat < s.W
  chan_lt    : s.lat.chan.toNat < 3

/-- What a command's acceptability depends on. -/
theorem State.Acceptable.congr {s t : State} {n : Nat} (h : s.Acceptable n) (hr : t.regs.SameConfig s.regs)
    (hp : t.platform = s.platform) : t.Acceptable n := by
  obtain ⟨hvalid, hcap, hrange⟩ := h
  obtain ⟨-, -, -, -, -, -, hcap_eq, hvalid_eq⟩ := operands_congr hr
  exact ⟨hvalid_eq.trans hvalid, hcap.trans_eq hcap_eq.symm, (inRange_congr hr hp n).trans hrange⟩

theorem State.AtSlot.of_sameCommand {s t : State} {n i : Nat} (h : s.AtSlot n i) (hst : s.SameCommand t) :
    t.AtSlot n i := by
  obtain ⟨hW, -⟩ := operands_congr hst.sameConfig
  have hacc := h.acceptable.congr hst.sameConfig hst.platform
  obtain ⟨-, hph, ⟨pbyte, acc, hl⟩, -, -⟩ := hst
  exact {
    running := hph.trans h.running
    acceptable := hacc
    count := by simpa [hl] using h.count
    more := h.more
    payload := by simpa [hl] using h.payload
    slot := by simpa [hl, hW] using h.slot
    col_lt := by simpa [hl, hW] using h.col_lt
    chan_lt := by simpa [hl] using h.chan_lt }

/-- The cursor of a slot inside the capacity is in one of the buffer's rows. -/
theorem State.AtSlot.row_lt {s : State} {n i : Nat} (h : s.AtSlot n i) : s.lat.row.toNat < s.H := by
  by_contra hge
  have hrows : s.H * s.W ≤ s.lat.row.toNat * s.W := Nat.mul_le_mul_right _ (Nat.le_of_not_lt hge)
  obtain ⟨-, hcap, -⟩ := h.acceptable
  rw [State.cap, capacityBytes, Nat.mul_comm s.W] at hcap
  have hslot := h.slot
  have hmore := h.more
  unfold slotIndex at hslot
  omega

theorem State.AtSlot.k_lt {s : State} {n i : Nat} (h : s.AtSlot n i) : s.lat.k.toNat < n := by
  have hpayload := h.payload
  have hmore := h.more
  omega

/-- Both bytes a RUN step accesses are in their memories (42_encode.md R110, 43_decode.md R122). -/
theorem State.AtSlot.addresses {s : State} {n i : Nat} (h : s.AtSlot n i) :
    s.cursorAddr < s.platform.size .pix ∧ s.payAddr s.lat.k.toNat < s.platform.size .pay := by
  obtain ⟨hvalid, -, hrange⟩ := h.acceptable
  obtain ⟨-, -, hc⟩ := invalidBuffer_eq_false.1 hvalid
  obtain ⟨hpix, hpay⟩ := inRange_covers hc hrange
  have hcursor : s.cursorAddr = s.slotAddr i := pixAddr_eq_slotAddr s h.chan_lt h.slot.symm
  exact ⟨hcursor ▸ hpix i h.more, hpay _ h.k_lt⟩

theorem packed_sameCommand (s : State) : s.SameCommand (packed s) :=
  ⟨⟨s.regs.ign, packed_regs s⟩, packed_phase s, ⟨_, _, by rw [packed, writeByte_lat, latched_eq]⟩, by simp,
    packed_platform s⟩

theorem gathered_sameCommand (s : State) : s.SameCommand (gathered s) :=
  ⟨⟨s.regs.ign, gathered_regs s⟩, gathered_phase s, ⟨_, _, gathered_lat s⟩, by simp, gathered_platform s⟩

/-- A RUN step does its access, which leaves the cursor, and then ends its slot. -/
theorem State.AtSlot.engineStep_eq {s : State} {n i : Nat} (h : s.AtSlot n i) :
    ∃ u : State, engineStep s = .next u.finishSlot ∧ u.AtSlot n i := by
  obtain ⟨hpix, hpay⟩ := h.addresses
  cases hop : s.lat.op with
  | encode =>
    rw [engineStep_of_encodeRun h.running hop, encodeRun_inside hpix fun _ => hpay]
    exact ⟨_, rfl, h.of_sameCommand (packed_sameCommand s)⟩
  | decode =>
    rw [engineStep_of_decodeRun h.running hop, decodeRun_inside hpix fun _ => hpay]
    exact ⟨_, rfl, h.of_sameCommand (gathered_sameCommand s)⟩

/-- The cursor moves to slot i + 1 (41_sequencer.md R101): nothing wraps, since it stands inside the buffer. -/
theorem State.AtSlot.advance {s : State} {n i : Nat} (h : s.AtSlot n i) :
    slotIndex s.W s.advance.lat.row.toNat s.advance.lat.col.toNat s.advance.lat.chan.toNat = i + 1 ∧
      8 * s.advance.lat.k.toNat + s.advance.lat.bit.toNat = i + 1 ∧
      s.advance.lat.chan.toNat < 3 ∧ s.advance.lat.col.toNat < s.W := by
  have hk : s.lat.k.toNat + 1 < 2 ^ 32 := by
    have hn := s.lat.n.isLt
    have hlt := h.k_lt
    rw [← h.count] at hlt
    omega
  obtain ⟨hslot, hbits, hchan, hcol, -⟩ := advanceMovesToTheNextSlot s h.row_lt h.col_lt h.chan_lt hk
  exact ⟨hslot.trans (congrArg (· + 1) h.slot), hbits.trans (congrArg (· + 1) h.payload), hchan, hcol⟩

/-- A RUN step completes the command exactly at the last bit of its last byte (R102). -/
theorem State.AtSlot.last_iff {s : State} {n i : Nat} (h : s.AtSlot n i) :
    s.advance.lat.k = s.lat.n ↔ i + 1 = 8 * n := by
  obtain ⟨-, hbits, -⟩ := h.advance
  have hmore := h.more
  have hbit := s.advance.lat.bit.isLt
  rw [← BitVec.toNat_inj, h.count]
  omega

/-- The slot after one that is not the last. -/
theorem State.AtSlot.finishSlot {s : State} {n i : Nat} (h : s.AtSlot n i) (hi : i + 1 < 8 * n) :
    s.finishSlot.AtSlot n (i + 1) := by
  obtain ⟨hslot, hbits, hchan, hcol⟩ := h.advance
  obtain ⟨hlast, -⟩ | ⟨-, hst⟩ := finishSlot_cases s
  · exact absurd (h.last_iff.1 hlast) hi.ne
  · rw [hst]
    exact {
      running := h.running
      acceptable := h.acceptable
      count := by simpa using h.count
      more := hi
      payload := hbits
      slot := hslot
      col_lt := hcol
      chan_lt := hchan }

/-- The last slot ends the command. -/
theorem State.AtSlot.finishSlot_last {s : State} {n i : Nat} (h : s.AtSlot n i) (hi : i + 1 = 8 * n) :
    s.finishSlot.phase = .idle := by
  obtain ⟨-, hst⟩ | ⟨hmore, -⟩ := finishSlot_cases s
  · rw [hst, complete_phase]
  · exact absurd (h.last_iff.2 hi) hmore

/-- As many RUN steps later the engine is as many slots further. -/
theorem State.AtSlot.after_engineSteps {s : State} {n i j : Nat} (h : s.AtSlot n i) (hj : i + j < 8 * n) :
    ∃ t : State, engineSteps j s = .next t ∧ t.AtSlot n (i + j) := by
  induction j generalizing s i with
  | zero => exact ⟨s, rfl, h⟩
  | succ j ih =>
    obtain ⟨u, hstep, hu⟩ := h.engineStep_eq
    obtain ⟨t, hsteps, ht⟩ := ih (hu.finishSlot (by omega)) (by omega)
    refine ⟨t, ?_, by rwa [Nat.add_assoc, Nat.add_comm 1] at ht⟩
    rw [engineSteps, hstep, andThen_next, hsteps]

/-- From its first slot on a command of `n` bytes ends after exactly 8n RUN steps (R102). -/
theorem State.AtSlot.completes {s : State} {n : Nat} (h : s.AtSlot n 0) :
    ∃ t, engineSteps (8 * n) s = .next t ∧ t.phase = .idle := by
  have hmore := h.more
  obtain ⟨t, hsteps, ht⟩ := h.after_engineSteps (j := 8 * n - 1) (by omega)
  obtain ⟨u, hstep, hu⟩ := ht.engineStep_eq
  refine ⟨u.finishSlot, ?_, hu.finishSlot_last (by omega)⟩
  rw [show 8 * n = 8 * n - 1 + 1 by omega, engineSteps_add, hsteps, andThen_next, engineSteps, hstep]
  rfl

/-- The CHECK step of an acceptable command starts its RUN phase (42_encode.md R107, 43_decode.md R120). -/
theorem engineStep_check_of_acceptable {s : State} (hcheck : s.phase = .check) (h : s.Acceptable s.goalBytes) :
    ∃ u : State, engineStep s = .next (u.startRun s.goalBytes) ∧ u.Acceptable s.goalBytes := by
  have ⟨hvalid, hcap, _⟩ := h
  cases hop : s.lat.op with
  | encode =>
    have hgoal : s.goalBytes = s.L := by simp [State.goalBytes, hop]
    rw [engineStep_of_encodeCheck hcheck hop, encodeCheck, if_neg (by simp [hvalid]), if_neg (by omega), ← hgoal]
    exact ⟨s, rfl, h⟩
  | decode =>
    have hgoal : s.goalBytes = min s.L s.cap := by simp [State.goalBytes, hop]
    rw [engineStep_of_decodeCheck hcheck hop, decodeCheck, if_neg (by simp [hvalid]), ← hgoal]
    refine ⟨_, rfl, ?_⟩
    split
    · exact h
    · exact h

/-- A RUN phase with a byte to process starts at slot 0. -/
theorem startRun_atSlot {s : State} {n : Nat} (h : s.Acceptable n) (hn : n ≠ 0) : (s.startRun n).AtSlot n 0 := by
  have ⟨hvalid, hcap, hrange⟩ := h
  obtain ⟨hW, -, -⟩ := invalidBuffer_eq_false.1 hvalid
  have hcount : (BitVec.ofNat 32 n).toNat = n :=
    Nat.mod_eq_of_lt (Nat.lt_of_le_of_lt (hcap.trans (cap_bound s)) (by decide))
  rw [State.startRun, if_neg (by simp [hrange]), if_neg hn]
  exact {
    running := rfl
    acceptable := h
    count := hcount
    more := by omega
    payload := rfl
    slot := by simp [slotIndex]
    col_lt := hW
    chan_lt := by simp }

/-- A command of no bytes ends in CHECK. -/
theorem startRun_zero_phase (s : State) : (s.startRun 0).phase = .idle := rfl

/-- Settles O36: one CHECK step, then one RUN step for each of the 8n slots. -/
theorem commandTakesExactlyItsSteps : Obligations.CommandTakesExactlyItsSteps := by
  intro s op n hn hacc
  have hgoal : (s.accept op).goalBytes = n := by rw [hn]; cases op <;> rfl
  obtain ⟨u, hcheck, hu⟩ := engineStep_check_of_acceptable (s := s.accept op) rfl (by rw [hgoal]; exact hacc)
  rw [hgoal] at hcheck hu
  have hsteps (j : Nat) : engineSteps (j + 1) (s.accept op) = engineSteps j (u.startRun n) := by
    rw [engineSteps, hcheck, andThen_next]
  constructor
  · intro j hj
    cases j with
    | zero => exact ⟨s.accept op, rfl, by simp⟩
    | succ j =>
      obtain ⟨t, hrun, ht⟩ := (startRun_atSlot hu (by omega)).after_engineSteps (j := j) (by omega)
      exact ⟨t, (hsteps j).trans hrun, by simp [ht.running]⟩
  · rw [Nat.add_comm, hsteps]
    by_cases hzero : n = 0
    · subst hzero
      exact ⟨_, rfl, startRun_zero_phase u⟩
    · exact (startRun_atSlot hu hzero).completes

end Sys2Proof.Machine
end

section
/-! No engine step's accesses depend on what the memories hold (41_sequencer.md R104): each part of a step, from states of
one control view, ends in such states or in the same stop. -/

namespace Sys2Proof.Machine

/-! ## Which addresses an access has, and whether the memory has them, does not depend on data. -/

theorem hasAddress_of_control {s t : State} (h : s.control = t.control) (sp : Space) (a : Nat) :
    s.hasAddress sp a = t.hasAddress sp a :=
  show s.control.hasAddress sp a = t.control.hasAddress sp a by rw [h]

theorem cursorAddr_of_control {s t : State} (h : s.control = t.control) : s.cursorAddr = t.cursorAddr :=
  show s.control.cursorAddr = t.control.cursorAddr by rw [h]

theorem payAddr_of_control {s t : State} (h : s.control = t.control) :
    s.payAddr s.lat.k.toNat = t.payAddr t.lat.k.toNat :=
  show s.control.payAddr s.control.lat.k.toNat = t.control.payAddr t.control.lat.k.toNat by rw [h]

/-! ## Accesses -/

/-- Both chains stop in the same way, or both go on from states of one control view. -/
theorem andThen_control {o p : Host.Outcome State Fault Refusal} {f g : State → Host.Outcome State Fault Refusal}
    (h : outcomeMap State.control o = outcomeMap State.control p)
    (hfg : ∀ s t : State, s.control = t.control → outcomeMap State.control (f s) = outcomeMap State.control (g t)) :
    outcomeMap State.control (andThen o f) = outcomeMap State.control (andThen p g) := by
  match o, p, h with
  | .next s, .next t, h => exact hfg s t (Host.Outcome.next.inj h)
  | .fault _, .fault _, h => exact h
  | .refused _, .refused _, h => exact h

/-- An access is made by both or by neither; where `f` and `g` answer one control view whatever is read, so do the accesses. -/
theorem withByte_control {s t : State} (h : s.control = t.control) (sp : Space) (a : Nat)
    {f g : Byte → Host.Outcome State Fault Refusal}
    (hfg : ∀ v w, outcomeMap State.control (f v) = outcomeMap State.control (g w)) :
    outcomeMap State.control (withByte sp a s f) = outcomeMap State.control (withByte sp a t g) := by
  unfold withByte
  rw [hasAddress_of_control h]
  split
  · exact hfg _ _
  · rfl

@[simp] theorem control_writeByte (s : State) (sp : Space) (a : Nat) (v : Byte) :
    (s.writeByte sp a v).control = s.control := by
  cases sp <;> rfl

theorem storeByte_control {s t : State} (h : s.control = t.control) (sp : Space) (a : Nat) (v w : Byte) :
    outcomeMap State.control (storeByte sp a v s) = outcomeMap State.control (storeByte sp a w t) := by
  unfold storeByte
  rw [hasAddress_of_control h]
  split
  · simp [h]
  · rfl

/-! ## RUN -/

/-- The end of a RUN step looks at the cursor alone. -/
theorem control_finishSlot (s : State) : s.control.finishSlot.control = s.finishSlot.control := by
  have hadv : s.control.advance = s.advance.control := by
    simp only [State.advance, State.control, ← advance_data]
    rfl
  unfold State.finishSlot
  rw [hadv]
  dsimp only [State.control]
  split <;> rfl

theorem finishSlot_control {s t : State} (h : s.control = t.control) : s.finishSlot.control = t.finishSlot.control := by
  rw [← control_finishSlot s, h, control_finishSlot]

theorem latchPayload_control {s t : State} (h : s.control = t.control) :
    outcomeMap State.control (latchPayload s) = outcomeMap State.control (latchPayload t) := by
  have hbit : s.lat.bit = t.lat.bit := congrArg (·.lat.bit) h
  unfold latchPayload
  rw [hbit, payAddr_of_control h]
  split
  · exact withByte_control h _ _ fun _ _ => congrArg Host.Outcome.next h
  · exact congrArg Host.Outcome.next h

theorem packSlot_control {s t : State} (h : s.control = t.control) :
    outcomeMap State.control (packSlot s) = outcomeMap State.control (packSlot t) := by
  unfold packSlot
  rw [cursorAddr_of_control h]
  exact withByte_control h _ _ fun _ _ => storeByte_control h _ _ _ _

theorem encodeRun_control {s t : State} (h : s.control = t.control) :
    outcomeMap State.control (encodeRun s) = outcomeMap State.control (encodeRun t) :=
  andThen_control (latchPayload_control h) fun _ _ h₁ =>
    andThen_control (packSlot_control h₁) fun _ _ h₂ => congrArg Host.Outcome.next (finishSlot_control h₂)

theorem emitByte_control {s t : State} (h : s.control = t.control) :
    outcomeMap State.control (emitByte s) = outcomeMap State.control (emitByte t) := by
  have hbit : s.lat.bit = t.lat.bit := congrArg (·.lat.bit) h
  unfold emitByte
  rw [hbit, payAddr_of_control h]
  split
  · exact storeByte_control h _ _ _ _
  · exact congrArg Host.Outcome.next h

@[simp] theorem control_gatherSlot (s : State) (v : Byte) : (gatherSlot v s).control = s.control := rfl

theorem decodeRun_control {s t : State} (h : s.control = t.control) :
    outcomeMap State.control (decodeRun s) = outcomeMap State.control (decodeRun t) := by
  unfold decodeRun
  rw [cursorAddr_of_control h]
  refine withByte_control h _ _ fun v w => ?_
  have hgather : (gatherSlot v s).control = (gatherSlot w t).control := by simpa using h
  exact andThen_control (emitByte_control hgather) fun _ _ h₁ => congrArg Host.Outcome.next (finishSlot_control h₁)

/-! ## CHECK reads the registers and the platform alone. -/

theorem control_startRun (s : State) (n : Nat) : (s.control.startRun n).control = (s.startRun n).control := by
  have hrange : s.control.inRange n = s.inRange n := rfl
  unfold State.startRun
  rw [hrange]
  split
  · rfl
  · split <;> rfl

@[simp] theorem control_invalidBuffer (s : State) : s.control.invalidBuffer = s.invalidBuffer := rfl
@[simp] theorem control_L (s : State) : s.control.L = s.L := rfl
@[simp] theorem control_cap (s : State) : s.control.cap = s.cap := rfl

theorem control_encodeCheck (s : State) : (encodeCheck s.control).control = (encodeCheck s).control := by
  unfold encodeCheck
  rw [control_invalidBuffer, control_L, control_cap]
  split
  · rfl
  · split
    · rfl
    · exact control_startRun s _

theorem control_decodeCheck (s : State) : (decodeCheck s.control).control = (decodeCheck s).control := by
  unfold decodeCheck
  rw [control_invalidBuffer, control_L, control_cap]
  split
  · rfl
  · split
    · exact control_startRun s.setTrunc _
    · exact control_startRun s _

/-- Settles O47, by the phase and the command: from states of one control view each part of the step keeps to one. -/
theorem accessOrderDoesNotDependOnData : Obligations.AccessOrderDoesNotDependOnData := by
  intro s t h
  have hph : t.phase = s.phase := (congrArg State.phase h).symm
  have hop : t.lat.op = s.lat.op := (congrArg (·.lat.op) h).symm
  cases hs : s.phase with
  | idle =>
    rw [engineStep_of_idle hs, engineStep_of_idle (hph.trans hs), outcomeMap_next, h, outcomeMap_next]
  | check =>
    cases ho : s.lat.op with
    | encode =>
      rw [engineStep_of_encodeCheck hs ho, engineStep_of_encodeCheck (hph.trans hs) (hop.trans ho), outcomeMap_next,
        outcomeMap_next, ← control_encodeCheck s, h, control_encodeCheck]
    | decode =>
      rw [engineStep_of_decodeCheck hs ho, engineStep_of_decodeCheck (hph.trans hs) (hop.trans ho), outcomeMap_next,
        outcomeMap_next, ← control_decodeCheck s, h, control_decodeCheck]
  | run =>
    cases ho : s.lat.op with
    | encode =>
      rw [engineStep_of_encodeRun hs ho, engineStep_of_encodeRun (hph.trans hs) (hop.trans ho), encodeRun_control h]
    | decode =>
      rw [engineStep_of_decodeRun hs ho, engineStep_of_decodeRun (hph.trans hs) (hop.trans ho), decodeRun_control h]

end Sys2Proof.Machine
end

section
/-! A RUN phase cannot fail: CHECK has put every address of the command inside its memory
(20_memory.md R50, 42_encode.md R110, 43_decode.md R122). -/

namespace Sys2Proof.Machine

/-- A good RUN phase is at the slot that its payload cursor names. -/
theorem State.RunInv.atSlot {s : State} (h : s.RunInv) (hrun : s.phase = .run) :
    s.AtSlot s.lat.n.toNat (8 * s.lat.k.toNat + s.lat.bit.toNat) where
  running := hrun
  acceptable := ⟨h.valid, h.n_cap, h.ranged⟩
  count := rfl
  more := by
    have hk := h.k_lt
    have hbit := s.lat.bit.isLt
    omega
  payload := rfl
  slot := h.cursor.symm
  col_lt := h.col_lt
  chan_lt := h.chan_lt

/-- A CHECK step always answers a next state. -/
theorem engineStep_check_next {s : State} (h : s.phase = .check) : ∃ t, engineStep s = .next t := by
  cases hop : s.lat.op with
  | encode => exact ⟨_, engineStep_of_encodeCheck h hop⟩
  | decode => exact ⟨_, engineStep_of_decodeCheck h hop⟩

/-- Every engine step from a good state answers a next state: a RUN step's addresses are in range. -/
theorem State.Inv.engineStep_next {s : State} (h : s.Inv) : ∃ t, engineStep s = .next t := by
  cases hph : s.phase with
  | idle => exact ⟨s, engineStep_of_idle hph⟩
  | check => exact engineStep_check_next hph
  | run =>
    obtain ⟨u, hstep, -⟩ := ((h.run hph).atSlot hph).engineStep_eq
    exact ⟨_, hstep⟩

/-- Settles O40: the step answers a next state, and every engine step keeps the invariant. -/
theorem engineNeverStops : Obligations.EngineNeverStops := by
  intro s h hm
  obtain ⟨t, hstep⟩ := h.engineStep_next
  exact ⟨t, hstep, engineStep_inv h hm hstep⟩

end Sys2Proof.Machine
end

section
/-! ENCODE's CHECK step (42_encode.md R107). -/

namespace Sys2Proof.Machine

/-- The capacity in bytes is exceeded exactly when the slots for the bits are (R107: the comparison is exact). -/
theorem cap_lt_L_iff (s : State) : s.cap < s.L ↔ slotCount s.W s.H < s.L * 8 :=
  Nat.div_lt_iff_lt_mul (by decide)

theorem invalidBuffer_eq_true {s : State} : s.invalidBuffer = true ↔ s.W = 0 ∨ s.H = 0 ∨ s.C < 3 := by
  simp [State.invalidBuffer, or_assoc]

theorem complete_sameSurroundings (s : State) (e : ErrCode) (r : Word) : s.SameSurroundings (s.complete e r) :=
  ⟨rfl, rfl, rfl, rfl, rfl⟩

/-! The three outcomes of the range test (20_memory.md R50). -/

theorem startRun_of_outOfRange {s : State} {n : Nat} (h : s.inRange n = false) : s.startRun n = s.raiseMemRange := by
  rw [State.startRun, if_pos (by simp [h])]

theorem startRun_zero (s : State) : s.startRun 0 = (s.initCursor 0).complete .none 0 := rfl

theorem startRun_of_inRange {s : State} {n : Nat} (h : s.inRange n = true) (hn : n ≠ 0) :
    s.startRun n = { s.initCursor n with phase := .run } := by
  rw [State.startRun, if_neg (by simp [h]), if_neg hn]

/-- A CHECK step that records MemRange is the engine's last (60_exceptions.md R141). -/
theorem engineReady_raiseMemRange (s : State) : s.raiseMemRange.engineReady = false := by
  simp [State.engineReady]

/-! ENCODE's validation (R107). -/

theorem encodeCheck_of_invalid {s : State} (h : s.invalidBuffer = true) :
    encodeCheck s = s.complete .invalidBuffer 0 := by
  rw [encodeCheck, if_pos h]

theorem encodeCheck_of_tooLong {s : State} (hvalid : s.invalidBuffer = false) (hlen : s.cap < s.L) :
    encodeCheck s = s.complete .capacityExceeded 0 := by
  rw [encodeCheck, if_neg (by simp [hvalid]), if_pos hlen]

theorem encodeCheck_of_fits {s : State} (hvalid : s.invalidBuffer = false) (hlen : s.L ≤ s.cap) :
    encodeCheck s = s.startRun s.L := by
  rw [encodeCheck, if_neg (by simp [hvalid]), if_neg (Nat.not_lt.2 hlen)]

/-- Settles O24, by the order of CHECK's tests: the buffer, the length, then the range. -/
theorem encodeCheckStep : Obligations.EncodeCheckStep := by
  intro s hcheck hop
  rw [engineStep_of_encodeCheck hcheck hop]
  refine ⟨fun hbad => ?invalid, fun hW hH hC hlen => ?tooLong, fun hW hH hC hlen => ?fits⟩
  case invalid =>
    rw [encodeCheck_of_invalid (invalidBuffer_eq_true.2 hbad)]
    exact ⟨_, rfl, rfl, rfl, rfl, rfl, complete_sameSurroundings s _ _⟩
  case tooLong =>
    rw [encodeCheck_of_tooLong (invalidBuffer_eq_false.2 ⟨hW, hH, hC⟩) ((cap_lt_L_iff s).2 hlen)]
    exact ⟨_, rfl, rfl, rfl, rfl, rfl, complete_sameSurroundings s _ _⟩
  case fits =>
    have hfits : s.L ≤ s.cap := Nat.not_lt.1 fun h => Nat.not_lt.2 hlen ((cap_lt_L_iff s).1 h)
    rw [encodeCheck_of_fits (invalidBuffer_eq_false.2 ⟨hW, hH, hC⟩) hfits]
    refine ⟨fun hrange => ?_, fun hzero => ?_, fun hne hrange => ?_⟩
    · rw [startRun_of_outOfRange hrange]
      exact ⟨rfl, engineReady_raiseMemRange s⟩
    · rw [hzero, startRun_zero]
      exact ⟨_, rfl, rfl, rfl, rfl, rfl, complete_sameSurroundings (s.initCursor 0) _ _⟩
    · rw [startRun_of_inRange hrange hne, State.initCursor, State.L, BitVec.ofNat_toNat, BitVec.setWidth_eq]

end Sys2Proof.Machine
end

section
/-! ENCODE's RUN step: what it latches, the slot byte it writes, and what it leaves (42_encode.md R109 to R111, R114). -/

namespace Sys2Proof.Machine

/-- The payload byte whose bit a RUN step embeds: read at bit 0, latched before (R110). -/
theorem latched_pbyte (s : State) :
    (latched s).lat.pbyte = if s.lat.bit = 0 then s.readByte .pay (s.payAddr s.lat.k.toNat) else s.lat.pbyte := by
  unfold latched
  split <;> rfl

/-- The slot write formula of R110. -/
theorem embedBit_payloadBit (v p : Byte) (b : Nat) :
    embedBit v (payloadBit p b) = (v &&& 0xFE) ||| ((p >>> b) &&& 1) := by
  have hbit : (p >>> b) &&& 1 = BitVec.setWidth 8 (BitVec.ofBool (payloadBit p b)) := by
    have h := BitVec.and_one_eq_setWidth_ofBool_getLsbD (x := p >>> b)
    rwa [BitVec.getLsbD_ushiftRight] at h
  rw [hbit, embedBit]
  cases payloadBit p b <;> rfl

theorem embedBit_getLsbD_zero (v : Byte) (b : Bool) : (embedBit v b).getLsbD 0 = b := by
  cases b <;> simp [embedBit]

/-- The seven higher bits stay (R111). -/
theorem embedBit_getLsbD_higher (v : Byte) (b : Bool) {j : Nat} (h₁ : 1 ≤ j) (h₈ : j < 8) :
    (embedBit v b).getLsbD j = v.getLsbD j := by
  have hmask : (0xFE : Byte).getLsbD j = true := by interval_cases j <;> rfl
  have hbit : (if b then 1 else 0 : Byte).getLsbD j = false := by
    cases b <;> interval_cases j <;> rfl
  rw [embedBit, BitVec.getLsbD_or, BitVec.getLsbD_and, hmask, hbit, Bool.and_true, Bool.or_false]

/-- The slot byte after a RUN step. -/
theorem packed_readByte_slot (s : State) :
    (packed s).readByte .pix s.cursorAddr =
      embedBit (s.readByte .pix s.cursorAddr) (payloadBit (latched s).lat.pbyte s.lat.bit.toNat) := by
  rw [packed, readByte_writeByte_same]

theorem packed_readByte_pay (s : State) (a : Nat) : (packed s).readByte .pay a = s.readByte .pay a :=
  readByte_congr (s := packed s) (sp := .pay) (packed_pay s) a

/-- No RUN step touches what stands around the block. -/
theorem engineStep_run_sameSurroundings {s t : State} (hrun : s.phase = .run) (h : engineStep s = .next t) :
    s.SameSurroundings t := by
  cases hop : s.lat.op with
  | encode =>
    obtain ⟨-, -, rfl⟩ := encodeRun_eq_next ((engineStep_of_encodeRun hrun hop).symm.trans h)
    simp [State.SameSurroundings]
  | decode =>
    obtain ⟨-, -, rfl⟩ := decodeRun_eq_next ((engineStep_of_decodeRun hrun hop).symm.trans h)
    simp [State.SameSurroundings]

/-- The cursor moves the same way whatever was latched and written (41_sequencer.md R104). -/
theorem packed_advance_lat (s : State) :
    (packed s).advance.lat = { s.advance.lat with pbyte := (latched s).lat.pbyte } := by
  have hlat : (packed s).lat = { s.lat with pbyte := (latched s).lat.pbyte, acc := s.lat.acc } := by
    rw [packed, writeByte_lat, latched_eq]
  have hW : (packed s).W = s.W := congrArg (·.width.toNat) (packed_regs s)
  have hacc : s.lat.acc = s.advance.lat.acc := (advance_acc _ _).symm
  rw [advance_lat, hlat, hW, advance_data, hacc]
  rfl

/-- A RUN step that is not the command's last moves the cursor on. -/
theorem finishSlot_of_more {s : State} (h : s.advance.lat.k ≠ s.lat.n) : s.finishSlot = s.advance := by
  obtain ⟨hk, -⟩ | ⟨-, hst⟩ := finishSlot_cases s
  · exact absurd hk h
  · exact hst

/-- The last RUN step of a command ends it (41_sequencer.md R102). -/
theorem finishSlot_of_last {s : State} (h : s.advance.lat.k = s.lat.n) :
    s.finishSlot = s.advance.complete .none s.lat.n := by
  obtain ⟨-, hst⟩ | ⟨hk, -⟩ := finishSlot_cases s
  · exact hst
  · exact absurd h hk

/-- Settles O25: the step writes its slot and ends it; the cursor decides whether the command ends too. -/
theorem encodeRunStep : Obligations.EncodeRunStep := by
  intro s hrun hop hpix hpay
  have hk : (packed s).advance.lat.k = s.advance.lat.k := congrArg (·.k) (packed_advance_lat s)
  have hstep := (engineStep_of_encodeRun hrun hop).trans (encodeRun_inside hpix hpay)
  refine ⟨(packed s).finishSlot, hstep, ⟨(latched s).lat.pbyte, latched_pbyte s, ?slot, fun hmore => ?more⟩,
    fun a ha => ?others, fun a => ?payload, fun hlast => ?last, engineStep_run_sameSurroundings hrun hstep⟩
  case slot => rw [finishSlot_readByte, packed_readByte_slot, embedBit_payloadBit]
  case more =>
    rw [finishSlot_of_more (by rwa [hk, packed_n])]
    exact ⟨(packed_phase s).trans hrun, packed_advance_lat s, packed_regs s⟩
  case others => rw [finishSlot_readByte, packed_readByte_other ha]
  case payload => rw [finishSlot_readByte, packed_readByte_pay]
  case last =>
    rw [finishSlot_of_last (by rwa [hk, packed_n])]
    exact ⟨rfl, by rw [complete_regs, advance_regs, packed_regs, packed_n]; rfl⟩

/-- Settles O26, by the slot write formula. -/
theorem encodeKeepsHigherBits : Obligations.EncodeKeepsHigherBits := by
  intro s t hrun hop h
  obtain ⟨-, -, rfl⟩ := encodeRun_eq_next ((engineStep_of_encodeRun hrun hop).symm.trans h)
  rw [finishSlot_readByte, packed_readByte_slot, ← latched_pbyte]
  exact ⟨fun j => embedBit_getLsbD_higher _ _, embedBit_getLsbD_zero _ _⟩

/-- Settles O31: an engine step that changes a memory is a RUN step of the command that writes it. -/
theorem eachCommandLeavesTheOtherMemory : Obligations.EachCommandLeavesTheOtherMemory := by
  intro s t h
  refine ⟨fun hop => ?pix, fun hop => ?pay⟩
  case pix =>
    by_contra hne
    obtain ⟨-, hencode, -⟩ := engineStep_changes_pix h hne
    cases hop.symm.trans hencode
  case pay =>
    by_contra hne
    obtain ⟨-, hdecode, -, -⟩ := engineStep_changes_pay h hne
    cases hop.symm.trans hdecode

end Sys2Proof.Machine
end

section
/-! A command from its sent word on, while the host has nothing else to do: the acceptance, then the engine's steps
(40_host_interface.md R83, 70_reset_and_hazards.md R167). -/

namespace Sys2Proof.Machine

theorem hostReady_of_send {s : State} {bytes : List Byte} {rest : List HostOp} (hp : s.host.pending = .send bytes :: rest)
    (hm : s.mark.hostRace = false) : s.hostReady = true := by
  simp [State.hostReady, hp, hm]

/-- The step in which the host sends a command word (R83). -/
theorem State.AboutToSend.step_eq {s : State} {i : Instr} {op : Op} (h : s.AboutToSend i)
    (hi : (i, op) ∈ [(Instr.encode, Op.encode), (Instr.decode, Op.decode)]) :
    step s = .next ((taken s []).accept op) := by
  obtain ⟨hidle, hp, hm⟩ := h
  have hwf : i.wf = true := by
    obtain ⟨rfl, -⟩ | ⟨rfl, -⟩ : (i = .encode ∧ op = .encode) ∨ (i = .decode ∧ op = .decode) := by simpa using hi
    · rfl
    · rfl
  have he : s.engineReady = false := engineReady_of_idle hidle
  have hmover : s.mover = some .host := mover_of_host_only (hostReady_of_send hp (by rw [hm])) he
  rw [step_of_host_mover hmover hp, ← taken_spendChoice, spendChoice_of_engine_not_ready he,
    hostAct_send_of_ok _ (decode_encode hwf)]
  exact exec_command_of_idle hidle hi

/-- An engine whose host has nothing to do steps at every turn. -/
theorem step_of_empty_of_busy {s : State} (hp : s.host.pending = []) (hbusy : s.phase ≠ .idle)
    (hm : s.mark.memRange = false) : step s = engineStep s := by
  have hh : s.hostReady = false := hostReady_of_empty hp
  rw [step_of_mover (mover_of_engine_only hh (engineReady_eq_true.2 ⟨hbusy, hm⟩)), spendChoice_of_host_not_ready hh, turnOf]

/-- The first two steps of a command: its acceptance and CHECK. -/
theorem State.AboutToSend.run_eq {s u : State} {i : Instr} {op : Op} (h : s.AboutToSend i)
    (hi : (i, op) ∈ [(Instr.encode, Op.encode), (Instr.decode, Op.decode)])
    (hcheck : engineStep ((taken s []).accept op) = .next u) (k : Nat) :
    Host.Core.run core (2 + k) s = Host.Core.run core k u := by
  have ⟨_, _, hmark⟩ := h
  have hm : ((taken s []).accept op).mark.memRange = false := congrArg FaultMark.memRange hmark
  rw [Nat.add_comm, run_succ (h.step_eq hi), run_succ ((step_of_empty_of_busy rfl (by simp) hm).trans hcheck)]

/-- In RUN, up to the end of the command, the machine's steps are the engine's. -/
theorem State.AtSlot.run_eq_engineSteps {s : State} {n i j : Nat} (h : s.AtSlot n i) (hp : s.host.pending = [])
    (hm : s.mark.memRange = false) (hj : i + j ≤ 8 * n) : Host.Core.run core j s = engineSteps j s := by
  induction j generalizing s i with
  | zero => rfl
  | succ j ih =>
    obtain ⟨u, hstep, hu⟩ := h.engineStep_eq
    obtain ⟨hmark, -, hhost, -, -⟩ := engineStep_run_sameSurroundings h.running hstep
    have hbusy : s.phase ≠ .idle := by simp [h.running]
    rw [run_succ ((step_of_empty_of_busy hp hbusy hm).trans hstep), engineSteps, hstep, andThen_next]
    cases j with
    | zero => rfl
    | succ j => exact ih (hu.finishSlot (by omega)) (hhost ▸ hp) (hmark ▸ hm) (by omega)

end Sys2Proof.Machine
end

section
/-! An ENCODE that fails (42_encode.md R108). -/

namespace Sys2Proof.Machine

/-- Settles O27: the word is accepted, and CHECK completes with the first test that fails. -/
theorem encodeFailsFast : Obligations.EncodeFailsFast := by
  intro s h hfail
  have hcheck := engineStep_of_encodeCheck (s := (taken s []).accept .encode) rfl rfl
  refine ⟨_, h.run_eq (by simp) hcheck 0, ?_⟩
  cases hv : s.invalidBuffer with
  | true =>
    rw [encodeCheck_of_invalid (s := (taken s []).accept .encode) hv]
    exact ⟨rfl, sameMemory_of_eq rfl rfl, rfl⟩
  | false =>
    have hlen : s.cap < s.L := hfail.resolve_left (by simp [hv])
    rw [encodeCheck_of_tooLong (s := (taken s []).accept .encode) hv hlen]
    exact ⟨rfl, sameMemory_of_eq rfl rfl, rfl⟩

end Sys2Proof.Machine
end

section
/-! An ENCODE slot by slot: what the memories hold after each RUN step (42_encode.md R111 to R114). -/

namespace Sys2Proof.Machine

/-- The slots below `i` hold their payload bits, and no other byte of either memory differs from `s` (R112, R114). -/
structure State.PacksBelow (s t : State) (i : Nat) : Prop where
  slots   : ∀ j, j < i → t.readByte .pix (s.slotAddr j) =
    embedBit (s.readByte .pix (s.slotAddr j)) (payloadBit (s.readByte .pay (s.payAddr (j / 8))) (j % 8))
  others  : ∀ a, (∀ j, j < i → a ≠ s.slotAddr j) → t.readByte .pix a = s.readByte .pix a
  payload : ∀ a, t.readByte .pay a = s.readByte .pay a

theorem State.packsBelow_zero (s : State) : s.PacksBelow s 0 :=
  ⟨fun _ hj => absurd hj (Nat.not_lt_zero _), fun _ _ => rfl, fun _ => rfl⟩

theorem State.PacksBelow.of_sameMemory {s t u : State} {i : Nat} (h : s.PacksBelow t i) (hu : t.SameMemory u) :
    s.PacksBelow u i :=
  ⟨fun j hj => (hu _ _).trans (h.slots j hj), fun a ha => (hu _ _).trans (h.others a ha),
    fun a => (hu _ _).trans (h.payload a)⟩

/-- `t` is at slot `i` of an ENCODE of `n` bytes that `s` was about to start.
Past bit 0 the payload byte of the slot is latched. -/
structure State.EncodesTo (s t : State) (n i : Nat) : Prop where
  atSlot : t.AtSlot n i
  op     : t.lat.op = .encode
  regs   : t.regs = s.regs
  latch  : t.lat.bit ≠ 0 → t.lat.pbyte = s.readByte .pay (s.payAddr (i / 8))
  memory : s.PacksBelow t i

/-! The payload cursor is the byte and the bit of the slot's index (41_sequencer.md R100). -/

theorem State.AtSlot.k_eq {s : State} {n i : Nat} (h : s.AtSlot n i) : s.lat.k.toNat = i / 8 := by
  have hpayload := h.payload
  have hbit := s.lat.bit.isLt
  omega

theorem State.AtSlot.bit_eq {s : State} {n i : Nat} (h : s.AtSlot n i) : s.lat.bit.toNat = i % 8 := by
  have hpayload := h.payload
  have hbit := s.lat.bit.isLt
  omega

theorem State.AtSlot.cursorAddr_eq {s : State} {n i : Nat} (h : s.AtSlot n i) : s.cursorAddr = s.slotAddr i :=
  pixAddr_eq_slotAddr s h.chan_lt h.slot.symm

/-- Past the first bit of a byte the slot before it belongs to the same byte. -/
theorem State.AtSlot.div_eq_of_bit_ne {s : State} {n i : Nat} (h : s.AtSlot n (i + 1)) (hb : s.lat.bit ≠ 0) :
    (i + 1) / 8 = i / 8 := by
  have hne : s.lat.bit.toNat ≠ 0 := fun h0 => hb (BitVec.eq_of_toNat_eq h0)
  have hbit := h.bit_eq
  omega

/-! What a RUN step of the ENCODE reads and where it writes, in terms of the state `s` it began in. -/

theorem State.EncodesTo.cursorAddr_eq {s t : State} {n i : Nat} (h : s.EncodesTo t n i) :
    t.cursorAddr = s.slotAddr i := by
  rw [h.atSlot.cursorAddr_eq, State.slotAddr, State.pixBase, State.C, h.regs]
  rfl

theorem State.EncodesTo.latched_pbyte {s t : State} {n i : Nat} (h : s.EncodesTo t n i) :
    (latched t).lat.pbyte = s.readByte .pay (s.payAddr (i / 8)) := by
  have haddr : t.payAddr t.lat.k.toNat = s.payAddr (i / 8) := by
    rw [h.atSlot.k_eq, State.payAddr, State.payBase, h.regs]
    rfl
  rw [Machine.latched_pbyte]
  split
  · rw [haddr, h.memory.payload]
  · exact h.latch ‹_›

/-- The stride of an ENCODE's buffer is at least three bytes, so its slots are distinct bytes. -/
theorem State.EncodesTo.stride {s t : State} {n i : Nat} (h : s.EncodesTo t n i) : 3 ≤ s.C := by
  obtain ⟨hvalid, -, -⟩ := h.atSlot.acceptable
  obtain ⟨-, -, hC⟩ := invalidBuffer_eq_false.1 hvalid
  rwa [State.C, h.regs] at hC

/-- Slot `i` is not written before its own RUN step. -/
theorem State.EncodesTo.slot_unwritten {s t : State} {n i : Nat} (h : s.EncodesTo t n i) :
    t.readByte .pix (s.slotAddr i) = s.readByte .pix (s.slotAddr i) :=
  h.memory.others _ fun _ hj he => hj.ne (slotAddr_inj s h.stride he).symm

/-- Writing slot `i` adds it to the slots that hold their payload bits. -/
theorem State.EncodesTo.packed_memory {s t : State} {n i : Nat} (h : s.EncodesTo t n i) :
    s.PacksBelow (packed t) (i + 1) where
  slots j hj := by
    obtain hlt | rfl := Nat.lt_succ_iff_lt_or_eq.1 hj
    · have hne : s.slotAddr j ≠ t.cursorAddr := fun he => hlt.ne (slotAddr_inj s h.stride (he.trans h.cursorAddr_eq))
      rw [packed_readByte_other hne, h.memory.slots j hlt]
    · have hslot := packed_readByte_slot t
      rwa [h.cursorAddr_eq, h.slot_unwritten, h.latched_pbyte, h.atSlot.bit_eq] at hslot
  others a ha := by
    rw [packed_readByte_other (h.cursorAddr_eq ▸ ha i (Nat.lt_succ_self i))]
    exact h.memory.others a fun j hj => ha j (Nat.lt_succ_of_lt hj)
  payload a := (packed_readByte_pay t a).trans (h.memory.payload a)

theorem State.EncodesTo.engineStep_eq {s t : State} {n i : Nat} (h : s.EncodesTo t n i) :
    engineStep t = .next (packed t).finishSlot := by
  obtain ⟨hpix, hpay⟩ := h.atSlot.addresses
  rw [engineStep_of_encodeRun h.atSlot.running h.op, encodeRun_inside hpix fun _ => hpay]

/-- The slot after one that is not the last. -/
theorem State.EncodesTo.finishSlot {s t : State} {n i : Nat} (h : s.EncodesTo t n i) (hi : i + 1 < 8 * n) :
    s.EncodesTo (packed t).finishSlot n (i + 1) := by
  have hslot := h.atSlot.of_sameCommand (packed_sameCommand t)
  have hst : (packed t).finishSlot = (packed t).advance := finishSlot_of_more (mt hslot.last_iff.1 hi.ne)
  exact {
    atSlot := hslot.finishSlot hi
    op := by rw [hst, advance_lat, advance_op, packed_op, h.op]
    regs := by rw [hst, advance_regs, packed_regs, h.regs]
    latch := fun hb => by
      rw [(hslot.finishSlot hi).div_eq_of_bit_ne hb, hst, advance_lat, advance_pbyte, packed_pbyte, h.latched_pbyte]
    memory := h.packed_memory.of_sameMemory (finishSlot_readByte _) }

/-- The last slot completes the command and reports its byte count (R115, 41_sequencer.md R102). -/
theorem State.EncodesTo.finishSlot_last {s t : State} {n i : Nat} (h : s.EncodesTo t n i) (hi : i + 1 = 8 * n) :
    (packed t).finishSlot.phase = .idle ∧
      (packed t).finishSlot.regs = s.regs.completed .none (BitVec.ofNat 32 n) ∧
      s.PacksBelow (packed t).finishSlot (8 * n) := by
  have hslot := h.atSlot.of_sameCommand (packed_sameCommand t)
  have hcount : t.lat.n = BitVec.ofNat 32 n := by rw [← h.atSlot.count, BitVec.ofNat_toNat, BitVec.setWidth_eq]
  refine ⟨hslot.finishSlot_last hi, ?_, hi ▸ h.packed_memory.of_sameMemory (finishSlot_readByte _)⟩
  rw [finishSlot_of_last (hslot.last_iff.2 hi), complete_regs, advance_regs, packed_regs, packed_n, h.regs, hcount]

/-- As many RUN steps later the ENCODE is as many slots further. -/
theorem State.EncodesTo.after_engineSteps {s t : State} {n i j : Nat} (h : s.EncodesTo t n i) (hj : i + j < 8 * n) :
    ∃ u : State, engineSteps j t = .next u ∧ s.EncodesTo u n (i + j) := by
  induction j generalizing t i with
  | zero => exact ⟨t, rfl, h⟩
  | succ j ih =>
    obtain ⟨u, hsteps, hu⟩ := ih (h.finishSlot (by omega)) (by omega)
    refine ⟨u, ?_, by rwa [Nat.add_assoc, Nat.add_comm 1] at hu⟩
    rw [engineSteps, h.engineStep_eq, andThen_next, hsteps]

/-- From its first slot on an ENCODE of `n` bytes writes its 8n slots and completes. -/
theorem State.EncodesTo.completes {s t : State} {n : Nat} (h : s.EncodesTo t n 0) :
    ∃ u : State, engineSteps (8 * n) t = .next u ∧ u.phase = .idle ∧
      u.regs = s.regs.completed .none (BitVec.ofNat 32 n) ∧ s.PacksBelow u (8 * n) := by
  have hmore := h.atSlot.more
  obtain ⟨u, hsteps, hu⟩ := h.after_engineSteps (j := 8 * n - 1) (by omega)
  refine ⟨(packed u).finishSlot, ?_, hu.finishSlot_last (by omega)⟩
  rw [show 8 * n = 8 * n - 1 + 1 by omega, engineSteps_add, hsteps, andThen_next, engineSteps, hu.engineStep_eq]
  rfl

/-- CHECK of an acceptable ENCODE starts it at slot 0. -/
theorem startRun_encodesTo {s : State} {n : Nat} (h : s.Acceptable n) (hop : s.lat.op = .encode) (hn : n ≠ 0) :
    s.EncodesTo (s.startRun n) n 0 := by
  have hslot := startRun_atSlot h hn
  have ⟨_, _, hrange⟩ := h
  rw [startRun_of_inRange hrange hn] at hslot ⊢
  exact {
    atSlot := hslot
    op := hop
    regs := rfl
    latch := fun hb => absurd rfl hb
    memory := s.packsBelow_zero.of_sameMemory (sameMemory_of_eq rfl rfl) }

end Sys2Proof.Machine
end

section
/-! A successful ENCODE from the sent word to completion (42_encode.md R112 to R115). -/

namespace Sys2Proof.Machine

/-- The RUN phase of an acceptable ENCODE, none where it has no byte, with a host that has nothing to do. -/
theorem run_encode_of_startRun {s : State} {n : Nat} (h : s.Acceptable n) (hop : s.lat.op = .encode)
    (hp : s.host.pending = []) (hm : s.mark.memRange = false) :
    ∃ t : State, Host.Core.run core (8 * n) (s.startRun n) = .next t ∧ t.phase = .idle ∧
      t.regs = s.regs.completed .none (BitVec.ofNat 32 n) ∧ s.PacksBelow t (8 * n) := by
  by_cases hn : n = 0
  · subst hn
    exact ⟨_, rfl, rfl, rfl, s.packsBelow_zero.of_sameMemory (sameMemory_of_eq rfl rfl)⟩
  · have hstart := startRun_encodesTo h hop hn
    have ⟨_, _, hrange⟩ := h
    rw [startRun_of_inRange hrange hn] at hstart ⊢
    rw [hstart.atSlot.run_eq_engineSteps hp hm (Nat.zero_add _).le]
    exact hstart.completes

/-- STATUS after a command that ends with no error and nothing clamped or dropped reads DONE alone (10_state.md R24). -/
theorem readOffset_status_of_success {s : State} {r : Regs} {w : Word} (hidle : s.phase = .idle)
    (hregs : s.regs = r.cleared.completed .none w) : s.readOffset 0x04 = 0x02 := by
  change s.statusWord = 0x02
  simp [statusWord_eq, hregs, ErrCode.code, busy_eq_false.2 hidle]

/-- Settles O28: the accepted ENCODE passes CHECK, and its 8L RUN steps write one slot each. -/
theorem encodeWritesExactlyThePayloadBits : Obligations.EncodeWritesExactlyThePayloadBits := by
  intro s h hacc
  have ⟨hvalid, hlen, _⟩ := hacc
  have ⟨_, _, hmark⟩ := h
  have hcheck := engineStep_of_encodeCheck (s := (taken s []).accept .encode) rfl rfl
  rw [encodeCheck_of_fits (s := (taken s []).accept .encode) hvalid hlen] at hcheck
  obtain ⟨t, hrun, hidle, hregs, hslots, hothers, hpayload⟩ :=
    run_encode_of_startRun (s := (taken s []).accept .encode) (n := s.L) hacc rfl rfl
      (congrArg FaultMark.memRange hmark)
  refine ⟨t, (h.run_eq (by simp) hcheck _).trans hrun, hidle, fun i hi => ?slots, hothers, hpayload, ?regs, ?status⟩
  case slots => exact (hslots i hi).trans (embedBit_payloadBit _ _ _)
  case regs => rw [hregs, State.L, BitVec.ofNat_toNat, BitVec.setWidth_eq]; rfl
  case status => exact readOffset_status_of_success hidle hregs

end Sys2Proof.Machine
end

section
/-! DECODE's CHECK step (43_decode.md R120, R121). -/

namespace Sys2Proof.Machine

/-- The state with TRUNC set where the length exceeds the capacity (R121). -/
def State.clamped (s : State) : State :=
  { s with regs := { s.regs with trunc := s.regs.trunc || decide (s.cap < s.L) } }

theorem decodeCheck_of_invalid {s : State} (h : s.invalidBuffer = true) :
    decodeCheck s = s.complete .invalidBuffer 0 := by
  rw [decodeCheck, if_pos h]

/-- In a valid buffer a DECODE records the clamp, and the range test is of the clamped length. -/
theorem decodeCheck_of_valid {s : State} (h : s.invalidBuffer = false) :
    decodeCheck s = s.clamped.startRun (min s.L s.cap) := by
  have hclamp : (if s.cap < s.L then s.setTrunc else s) = s.clamped := by
    unfold State.clamped
    split <;> simp [State.setTrunc, *]
  rw [decodeCheck, if_neg (by simp [h]), hclamp]

/-- Settles O29, by the order of CHECK's tests: the buffer, then the range of the clamped length. -/
theorem decodeCheckStep : Obligations.DecodeCheckStep := by
  intro s hcheck hop
  rw [engineStep_of_decodeCheck hcheck hop]
  refine ⟨fun hbad => ?invalid, fun hW hH hC n r hn hr => ?valid⟩
  case invalid =>
    rw [decodeCheck_of_invalid (invalidBuffer_eq_true.2 hbad)]
    exact ⟨_, rfl, rfl, rfl, rfl, rfl, complete_sameSurroundings s _ _⟩
  case valid =>
    have hclamped : s.clamped = { s with regs := r } := by
      rw [hr, State.clamped, decide_eq_decide.2 (cap_lt_L_iff s)]
    have hn' : min s.L s.cap = n := hn.symm
    have hranged : State.inRange { s with regs := r } n = s.inRange n := by rw [hr]; rfl
    rw [decodeCheck_of_valid (invalidBuffer_eq_false.2 ⟨hW, hH, hC⟩), hclamped, hn']
    refine ⟨fun hrange => ?_, fun hzero => ?_, fun hne hrange => ?_⟩
    · rw [startRun_of_outOfRange (hranged.trans hrange)]
      exact ⟨rfl, engineReady_raiseMemRange _⟩
    · rw [hzero, startRun_zero]
      exact ⟨_, rfl, rfl, rfl, rfl, rfl, ⟨rfl, rfl, rfl, rfl, rfl⟩⟩
    · rw [startRun_of_inRange (hranged.trans hrange) hne, State.initCursor]

end Sys2Proof.Machine
end

section
/-! DECODE's RUN step: the bit it gathers, the output byte it writes, and what it leaves (43_decode.md R122). -/

namespace Sys2Proof.Machine

/-- At bit 7 the output byte is the gathered one. -/
theorem gathered_readByte_output {s : State} (h : s.lat.bit = 7) :
    (gathered s).readByte .pay (s.payAddr s.lat.k.toNat) = (gathered s).lat.acc := by
  unfold gathered
  dsimp only
  rw [if_pos h, readByte_writeByte_same, writeByte_lat]

/-- No byte of PAYMEM but the output byte at bit 7 changes. -/
theorem gathered_readByte_pay {s : State} {a : Nat} (h : s.lat.bit = 7 → a ≠ s.payAddr s.lat.k.toNat) :
    (gathered s).readByte .pay a = s.readByte .pay a := by
  by_cases hbit : s.lat.bit = 7
  · exact gathered_readByte_other (h hbit)
  · exact readByte_congr (s := gathered s) (sp := .pay) (gathered_pay_of_bit_ne hbit) a

theorem gathered_readByte_pix (s : State) (a : Nat) : (gathered s).readByte .pix a = s.readByte .pix a :=
  readByte_congr (s := gathered s) (sp := .pix) (gathered_pix s) a

/-- The cursor moves the same way whatever was gathered (41_sequencer.md R104). -/
theorem gathered_advance_lat (s : State) :
    (gathered s).advance.lat = { s.advance.lat with acc := (gathered s).lat.acc } := by
  have hW : (gathered s).W = s.W := congrArg (·.width.toNat) (gathered_regs s)
  have hpbyte : s.lat.pbyte = s.advance.lat.pbyte := (advance_pbyte _ _).symm
  have hdata := advance_data s.lat s.W s.lat.pbyte (gathered s).lat.acc
  rw [advance_lat, gathered_lat, hW, hdata, hpbyte]
  rfl

/-- Settles O30: the step gathers its slot and ends it; the cursor decides whether the command ends too. -/
theorem decodeRunStep : Obligations.DecodeRunStep := by
  intro s hrun hop hpix hpay
  have hk : (gathered s).advance.lat.k = s.advance.lat.k := congrArg (·.k) (gathered_advance_lat s)
  have hstep := (engineStep_of_decodeRun hrun hop).trans (decodeRun_inside hpix hpay)
  refine ⟨(gathered s).finishSlot, hstep, ⟨(gathered s).lat.acc, gathered_acc s, fun hbit => ?output, fun hmore => ?more⟩,
    fun a ha => ?others, fun a => ?pixels, fun hlast => ?last, engineStep_run_sameSurroundings hrun hstep⟩
  case output => rw [finishSlot_readByte, gathered_readByte_output hbit]
  case more =>
    rw [finishSlot_of_more (by rwa [hk, gathered_n])]
    exact ⟨(gathered_phase s).trans hrun, gathered_advance_lat s, gathered_regs s⟩
  case others => rw [finishSlot_readByte, gathered_readByte_pay ha]
  case pixels => rw [finishSlot_readByte, gathered_readByte_pix]
  case last =>
    rw [finishSlot_of_last (by rwa [hk, gathered_n])]
    exact ⟨rfl, by rw [complete_regs, advance_regs, gathered_regs, gathered_n]; rfl⟩

end Sys2Proof.Machine
end

section
/-! The output byte as a number (43_decode.md R123): OR-ing the LSBs of its slots into place is summing them. -/

namespace Sys2Proof.Machine

/-- Below the bits gathered so far nothing overlaps, so the next LSB is added at its place. -/
theorem gatherBit_toNat {acc v : Byte} {b : Nat} (hacc : acc.toNat < 2 ^ b) (hb : b < 8) :
    (gatherBit acc v b).toNat = acc.toNat + v.toNat % 2 * 2 ^ b := by
  have hbit : v.toNat % 2 * 2 ^ b < 2 ^ 8 :=
    calc v.toNat % 2 * 2 ^ b ≤ 1 * 2 ^ b := Nat.mul_le_mul_right _ (Nat.le_of_lt_succ (Nat.mod_lt _ (by decide)))
      _ = 2 ^ b := Nat.one_mul _
      _ < 2 ^ 8 := Nat.pow_lt_pow_right (by decide) hb
  have hlsb : (v &&& 1).toNat = v.toNat % 2 := Nat.and_one_is_mod _
  have hshift : ((v &&& 1) <<< b).toNat = (v.toNat % 2) <<< b := by
    rw [BitVec.toNat_shiftLeft, hlsb, Nat.shiftLeft_eq, Nat.mod_eq_of_lt hbit]
  rw [gatherBit, BitVec.toNat_or, hshift, Nat.or_comm, ← Nat.shiftLeft_add_eq_or_of_lt hacc, Nat.shiftLeft_eq,
    Nat.add_comm]

/-- Output byte `k` with the LSBs of its first `b` slots OR-ed in (R122). -/
def State.gatheredByte (s : State) (k : Nat) : Nat → Byte
  | 0 => 0
  | b + 1 => gatherBit (s.gatheredByte k b) (s.readByte .pix (s.slotAddr (8 * k + b))) b

theorem gatheredByte_lt_and_toNat (s : State) (k : Nat) {b : Nat} (hb : b ≤ 8) :
    (s.gatheredByte k b).toNat < 2 ^ b ∧ (s.gatheredByte k b).toNat =
      ∑ j ∈ Finset.range b, (s.readByte .pix (s.slotAddr (8 * k + j))).toNat % 2 * 2 ^ j := by
  induction b with
  | zero => simp [State.gatheredByte]
  | succ b ih =>
    obtain ⟨hlt, hsum⟩ := ih (by omega)
    have hlsb : (s.readByte .pix (s.slotAddr (8 * k + b))).toNat % 2 * 2 ^ b ≤ 1 * 2 ^ b :=
      Nat.mul_le_mul_right _ (by omega)
    rw [State.gatheredByte, gatherBit_toNat hlt (by omega), Finset.sum_range_succ, ← hsum, pow_succ]
    exact ⟨by omega, rfl⟩

/-- The output byte is the sum of the LSBs of its slots, each at its bit position (R123). -/
theorem gatheredByte_toNat (s : State) (k : Nat) : (s.gatheredByte k 8).toNat =
    ∑ b ∈ Finset.range 8, (s.readByte .pix (s.slotAddr (8 * k + b))).toNat % 2 * 2 ^ b := by
  obtain ⟨-, hsum⟩ := gatheredByte_lt_and_toNat s k (le_refl 8)
  exact hsum

end Sys2Proof.Machine
end

section
/-! A DECODE slot by slot: what PAYMEM and eng.acc hold after each RUN step (43_decode.md R122 to R125). -/

namespace Sys2Proof.Machine

/-- The output bytes whose eight slots are all below `i` are written, and no other byte of either memory differs from `s`
(R123 to R125). -/
structure State.GathersBelow (s t : State) (i : Nat) : Prop where
  bytes  : ∀ k, k < i / 8 → t.readByte .pay (s.payAddr k) = s.gatheredByte k 8
  others : ∀ a, (∀ k, k < i / 8 → a ≠ s.payAddr k) → t.readByte .pay a = s.readByte .pay a
  pixels : ∀ a, t.readByte .pix a = s.readByte .pix a

theorem State.gathersBelow_zero (s : State) : s.GathersBelow s 0 :=
  ⟨fun _ hk => absurd hk (Nat.not_lt_zero _), fun _ _ => rfl, fun _ => rfl⟩

theorem State.GathersBelow.of_sameMemory {s t u : State} {i : Nat} (h : s.GathersBelow t i) (hu : t.SameMemory u) :
    s.GathersBelow u i :=
  ⟨fun k hk => (hu _ _).trans (h.bytes k hk), fun a ha => (hu _ _).trans (h.others a ha),
    fun a => (hu _ _).trans (h.pixels a)⟩

/-- `t` is at slot `i` of a DECODE of `n` bytes that `s` was about to start.
Past bit 0 the LSBs of the byte's slots before this one are in eng.acc. -/
structure State.DecodesTo (s t : State) (n i : Nat) : Prop where
  atSlot : t.AtSlot n i
  op     : t.lat.op = .decode
  regs   : t.regs = s.regs
  acc    : (if t.lat.bit = 0 then 0 else t.lat.acc) = s.gatheredByte (i / 8) (i % 8)

/-! What a RUN step of the DECODE reads and where it writes, in terms of the state `s` it began in. -/

theorem State.DecodesTo.cursorAddr_eq {s t : State} {n i : Nat} (h : s.DecodesTo t n i) :
    t.cursorAddr = s.slotAddr i := by
  rw [h.atSlot.cursorAddr_eq, State.slotAddr, State.pixBase, State.C, h.regs]
  rfl

theorem State.DecodesTo.payAddr_eq {s t : State} {n i : Nat} (h : s.DecodesTo t n i) :
    t.payAddr t.lat.k.toNat = s.payAddr (i / 8) := by
  rw [h.atSlot.k_eq, State.payAddr, State.payBase, h.regs]
  rfl

theorem State.AtSlot.bit_eq_seven_iff {s : State} {n i : Nat} (h : s.AtSlot n i) : s.lat.bit = 7 ↔ i % 8 = 7 := by
  rw [← BitVec.toNat_inj, h.bit_eq]
  rfl

/-- The RUN step of slot `i` gathers its LSB. -/
theorem State.DecodesTo.gathered_acc {s t : State} {n i : Nat} (h : s.DecodesTo t n i) (hm : s.GathersBelow t i) :
    (gathered t).lat.acc = s.gatheredByte (i / 8) (i % 8 + 1) := by
  rw [Machine.gathered_acc, h.acc, h.cursorAddr_eq, hm.pixels, h.atSlot.bit_eq, State.gatheredByte, Nat.div_add_mod]

/-- The RUN step of slot `i` writes its byte where the slot is the byte's last, and nothing elsewhere. -/
theorem State.DecodesTo.gathered_memory {s t : State} {n i : Nat} (h : s.DecodesTo t n i) (hm : s.GathersBelow t i) :
    s.GathersBelow (gathered t) (i + 1) where
  bytes k hk := by
    by_cases hlt : k < i / 8
    · have hne : s.payAddr k ≠ t.payAddr t.lat.k.toNat := fun he =>
        hlt.ne (Nat.add_left_cancel (he.trans h.payAddr_eq))
      rw [gathered_readByte_other hne, hm.bytes k hlt]
    · obtain ⟨rfl, hlast⟩ : k = i / 8 ∧ i % 8 = 7 := by omega
      rw [← h.payAddr_eq, gathered_readByte_output (h.atSlot.bit_eq_seven_iff.2 hlast), h.gathered_acc hm, hlast]
  others a ha := by
    rw [gathered_readByte_pay fun hbit => ?_]
    · exact hm.others a fun k hk => ha k (by omega)
    · have hlast := h.atSlot.bit_eq_seven_iff.1 hbit
      exact h.payAddr_eq ▸ ha (i / 8) (by omega)
  pixels a := (gathered_readByte_pix t a).trans (hm.pixels a)

theorem State.DecodesTo.engineStep_eq {s t : State} {n i : Nat} (h : s.DecodesTo t n i) :
    engineStep t = .next (gathered t).finishSlot := by
  obtain ⟨hpix, hpay⟩ := h.atSlot.addresses
  rw [engineStep_of_decodeRun h.atSlot.running h.op, decodeRun_inside hpix fun _ => hpay]

/-- The slot after one that is not the last. -/
theorem State.DecodesTo.finishSlot {s t : State} {n i : Nat} (h : s.DecodesTo t n i) (hm : s.GathersBelow t i)
    (hi : i + 1 < 8 * n) : s.DecodesTo (gathered t).finishSlot n (i + 1) := by
  have hslot := h.atSlot.of_sameCommand (gathered_sameCommand t)
  have hst : (gathered t).finishSlot = (gathered t).advance := finishSlot_of_more (mt hslot.last_iff.1 hi.ne)
  have hnext := hslot.finishSlot hi
  refine {
    atSlot := hnext
    op := by rw [hst, advance_lat, advance_op, gathered_op, h.op]
    regs := by rw [hst, advance_regs, gathered_regs, h.regs]
    acc := ?acc }
  split
  case isTrue hzero =>
    have hfirst : (i + 1) % 8 = 0 := by rw [← hnext.bit_eq, hzero]; rfl
    rw [hfirst, State.gatheredByte]
  case isFalse hne =>
    have hdiv := hnext.div_eq_of_bit_ne hne
    have hmod : (i + 1) % 8 = i % 8 + 1 := by omega
    rw [hdiv, hmod, hst, advance_lat, advance_acc, h.gathered_acc hm]

/-- The last slot completes the command and reports its byte count (R128, 41_sequencer.md R102). -/
theorem State.DecodesTo.finishSlot_last {s t : State} {n i : Nat} (h : s.DecodesTo t n i) (hi : i + 1 = 8 * n) :
    (gathered t).finishSlot.phase = .idle ∧
      (gathered t).finishSlot.regs = s.regs.completed .none (BitVec.ofNat 32 n) := by
  have hslot := h.atSlot.of_sameCommand (gathered_sameCommand t)
  have hcount : t.lat.n = BitVec.ofNat 32 n := by rw [← h.atSlot.count, BitVec.ofNat_toNat, BitVec.setWidth_eq]
  refine ⟨hslot.finishSlot_last hi, ?_⟩
  rw [finishSlot_of_last (hslot.last_iff.2 hi), complete_regs, advance_regs, gathered_regs, gathered_n, h.regs, hcount]

/-- `t` is the state that `i` RUN steps of a DECODE of `n` bytes lead to, from the state `s` at its start. -/
structure State.DecodedUpTo (s : State) (n i : Nat) (t : State) : Prop where
  memory : s.GathersBelow t i
  more   : i < 8 * n → s.DecodesTo t n i
  done   : i = 8 * n → t.phase = .idle ∧ t.regs = s.regs.completed .none (BitVec.ofNat 32 n)

theorem State.DecodedUpTo.engineStep_next {s t : State} {n i : Nat} (h : s.DecodedUpTo n i t) (hi : i < 8 * n) :
    ∃ u, engineStep t = .next u ∧ s.DecodedUpTo n (i + 1) u := by
  have hat := h.more hi
  exact ⟨_, hat.engineStep_eq, (hat.gathered_memory h.memory).of_sameMemory (finishSlot_readByte _),
    hat.finishSlot h.memory, hat.finishSlot_last⟩

/-- What one engine step passes on, as many of them do. -/
theorem engineSteps_of_invariant {P : Nat → State → Prop} {m : Nat}
    (hstep : ∀ i s, i < m → P i s → ∃ t, engineStep s = .next t ∧ P (i + 1) t) {s : State} (h : P 0 s) {j : Nat}
    (hj : j ≤ m) : ∃ t, engineSteps j s = .next t ∧ P j t := by
  induction j with
  | zero => exact ⟨s, rfl, h⟩
  | succ j ih =>
    obtain ⟨t, hsteps, ht⟩ := ih (Nat.le_of_succ_le hj)
    obtain ⟨u, hlast, hu⟩ := hstep j t hj ht
    exact ⟨u, by rw [engineSteps_add, hsteps, andThen_next, engineSteps, hlast]; rfl, hu⟩

/-- CHECK of an acceptable DECODE starts it at slot 0, or ends it where it has no byte. -/
theorem startRun_decodedUpTo {s : State} {n : Nat} (h : s.Acceptable n) (hop : s.lat.op = .decode) :
    s.DecodedUpTo n 0 (s.startRun n) := by
  have ⟨_, _, hrange⟩ := h
  refine ⟨s.gathersBelow_zero.of_sameMemory (sameMemory_of_eq (startRun_bank s n .pix) (startRun_bank s n .pay)),
    fun hmore => ?more, fun hdone => ?done⟩
  case more =>
    have hn : n ≠ 0 := by omega
    have hslot := startRun_atSlot h hn
    rw [startRun_of_inRange hrange hn] at hslot ⊢
    exact ⟨hslot, hop, rfl, rfl⟩
  case done =>
    obtain rfl : n = 0 := by omega
    exact ⟨rfl, rfl⟩

end Sys2Proof.Machine
end

section
/-! A DECODE from the sent word to completion (43_decode.md R121 to R128). -/

namespace Sys2Proof.Machine

/-- After the CHECK of an acceptable command, up to its end, the machine's steps are the engine's. -/
theorem run_eq_engineSteps_of_startRun {s : State} {n : Nat} (h : s.Acceptable n) (hp : s.host.pending = [])
    (hm : s.mark.memRange = false) :
    Host.Core.run core (8 * n) (s.startRun n) = engineSteps (8 * n) (s.startRun n) := by
  by_cases hn : n = 0
  · subst hn
    rfl
  · have hslot := startRun_atSlot h hn
    have ⟨_, _, hrange⟩ := h
    rw [startRun_of_inRange hrange hn] at hslot ⊢
    exact hslot.run_eq_engineSteps hp hm (Nat.zero_add _).le

/-- STATUS after a DECODE that ends with no error and nothing dropped: TRUNC over DONE (R128, 10_state.md R24). -/
theorem readOffset_status_of_decoded {s : State} {r : Regs} {w : Word} (hidle : s.phase = .idle)
    (hign : r.ign = false) (hregs : s.regs = r.completed .none w) :
    s.readOffset 0x04 = if r.trunc then 0x06 else 0x02 := by
  change s.statusWord = _
  rw [statusWord_eq, hregs, busy_eq_false.2 hidle]
  cases htrunc : r.trunc <;> simp [hign, htrunc, ErrCode.code]

/-- Settles O32: the accepted DECODE passes CHECK with its length clamped, and every eighth of its RUN steps writes a byte. -/
theorem decodeRebuildsTheBytes : Obligations.DecodeRebuildsTheBytes := by
  intro s n h hn hacc
  have ⟨hvalid, _, _⟩ := hacc
  have ⟨_, _, hmark⟩ := h
  have hcheck := engineStep_of_decodeCheck (s := (taken s []).accept .decode) rfl rfl
  have hgoal : min ((taken s []).accept .decode).L ((taken s []).accept .decode).cap = n := hn.symm
  rw [decodeCheck_of_valid (s := (taken s []).accept .decode) hvalid, hgoal] at hcheck
  have hacc' : ((taken s []).accept .decode).clamped.Acceptable n := hacc
  obtain ⟨t, hsteps, hmemory, -, hdone⟩ :=
    engineSteps_of_invariant (fun _ _ hi ht => State.DecodedUpTo.engineStep_next ht hi) (startRun_decodedUpTo hacc' rfl) le_rfl
  obtain ⟨hidle, hregs⟩ := hdone rfl
  obtain ⟨hbytes, hothers, hpixels⟩ := hmemory
  rw [Nat.mul_div_cancel_left n (by decide)] at hbytes hothers
  refine ⟨t, (h.run_eq (by simp) hcheck _).trans
    ((run_eq_engineSteps_of_startRun hacc' rfl (congrArg FaultMark.memRange hmark)).trans hsteps),
    hidle, fun k hk => ?bytes, hothers, hpixels, hregs, ?status⟩
  case bytes => exact (congrArg BitVec.toNat (hbytes k hk)).trans (gatheredByte_toNat _ k)
  case status =>
    rw [readOffset_status_of_decoded hidle rfl hregs]
    simp only [State.clamped, accept_regs, cleared_trunc, Bool.false_or, decide_eq_true_eq]
    rfl

end Sys2Proof.Machine
end

section
/-! The round trip: a DECODE after an ENCODE (43_decode.md R127). -/

namespace Sys2Proof.Machine

/-- A number is, below 2 ^ m, the sum of its lowest m bits at their places. -/
theorem sum_bits_eq_mod (x m : Nat) : ∑ b ∈ Finset.range m, x / 2 ^ b % 2 * 2 ^ b = x % 2 ^ m := by
  induction m with
  | zero => simp [Nat.mod_one]
  | succ m ih => rw [Finset.sum_range_succ, ih, Nat.mod_pow_succ, Nat.mul_comm (2 ^ m)]

/-- The LSB of a slot that an ENCODE wrote is its payload bit, whatever the slot held (42_encode.md R111). -/
theorem encodedSlot_lsb (v p : Byte) (b : Nat) :
    ((v &&& 0xFE) ||| ((p >>> b) &&& 1)).toNat % 2 = p.toNat / 2 ^ b % 2 := by
  have hlsb : (embedBit v (payloadBit p b)).toNat.testBit 0 = p.toNat.testBit b := embedBit_getLsbD_zero v _
  rw [Nat.testBit_zero, Nat.testBit_eq_decide_div_mod_eq, decide_eq_decide] at hlsb
  rw [← embedBit_payloadBit]
  omega

/-- Settles O33: below the payload's length a slot's LSB is its payload bit, and from there on the ENCODE wrote no slot. -/
theorem decodeAfterEncodeGivesThePayload : Obligations.DecodeAfterEncodeGivesThePayload := by
  intro s t u n hs hsacc hrun hu _ hW hH hC hbase hpix hlen hn huacc
  obtain ⟨t', hrun', -, hslots, hothers, -⟩ := encodeWritesExactlyThePayloadBits s hs hsacc
  obtain rfl : t' = t := Host.Outcome.next.inj (hrun'.symm.trans hrun)
  obtain ⟨v, hv, -, hbytes, -⟩ := decodeRebuildsTheBytes u n hu hn huacc
  have haddr (i : Nat) : u.slotAddr i = s.slotAddr i := by rw [State.slotAddr, hbase, hC, State.slotAddr]
  have hread (a : Nat) : u.readByte .pix a = t'.readByte .pix a := readByte_congr (sp := .pix) hpix a
  simp only [haddr, hread] at hbytes
  obtain ⟨hvalid, hfits, -⟩ := hsacc
  obtain ⟨-, -, hstride⟩ := invalidBuffer_eq_false.1 hvalid
  have hcap : u.cap = s.cap := by rw [State.cap, hW, hH, State.cap]
  refine ⟨v, hv, fun k hk => ?encoded, fun k hk hkn => ?untouched⟩
  case encoded =>
    apply BitVec.eq_of_toNat_eq
    have hbit (b : Nat) (hb : b < 8) : (t'.readByte .pix (s.slotAddr (8 * k + b))).toNat % 2 =
        (s.readByte .pay (s.payAddr k)).toNat / 2 ^ b % 2 := by
      have hdiv : (8 * k + b) / 8 = k := by omega
      have hmod : (8 * k + b) % 8 = b := by omega
      rw [hslots _ (by omega), encodedSlot_lsb, hdiv, hmod]
    rw [hbytes k (by omega), Finset.sum_congr rfl fun b hb => by rw [hbit b (Finset.mem_range.1 hb)], sum_bits_eq_mod,
      Nat.mod_eq_of_lt (BitVec.isLt _)]
  case untouched =>
    rw [hbytes k hkn]
    refine Finset.sum_congr rfl fun b _ => ?_
    rw [hothers _ fun i hi he => ?_]
    have hi' := slotAddr_inj s hstride he
    omega

end Sys2Proof.Machine
end

section
/-! Capacity: its order, its exact test, and its register (44_capacity.md R132 to R135). -/

namespace Sys2Proof.Machine

/-- A byte takes eight slots, so the capacity is the whole eighths of the slot count (R95, R132). -/
theorem capacityBytes_eq_slotCount_div (w h : Nat) : capacityBytes w h = slotCount w h / 8 := rfl

theorem slotCount_mono {w₁ h₁ w₂ h₂ : Nat} (h : w₁ * h₁ ≤ w₂ * h₂) : slotCount w₁ h₁ ≤ slotCount w₂ h₂ :=
  Nat.mul_le_mul_right 3 h

/-- CAP has room for every capacity: as a number its word is the capacity (R133). -/
theorem readRegister_cap_toNat (s : State) : (s.readRegister .cap).toNat = s.cap := by
  have hfits : s.cap < 2 ^ 32 := (cap_bound s).trans_lt (by decide)
  rw [State.readRegister, BitVec.toNat_ofNat, Nat.mod_eq_of_lt hfits]

/-- Settles O21: the slot count is three times the product, and dividing it by eight keeps the order. -/
theorem capacityIsMonotonic : Obligations.CapacityIsMonotonic := by
  intro w₁ h₁ w₂ h₂ hprod
  rw [capacityBytes_eq_slotCount_div, capacityBytes_eq_slotCount_div]
  exact Nat.div_le_div_right (slotCount_mono hprod)

/-- Settles O22: rounding the slot count down to whole bytes loses no whole byte. -/
theorem capacityTestIsExact : Obligations.CapacityTestIsExact := by
  intro w h l
  rw [capacityBytes_eq_slotCount_div]
  exact (Nat.le_div_iff_mul_le (by decide)).symm

/-- Settles O8: the read answers CAP's word, and no capacity is too large for it. -/
theorem capRegisterReadsExactCapacity : Obligations.CapRegisterReadsExactCapacity := fun s =>
  ⟨s.readRegister .cap, regRd_returns_register s .cap, readRegister_cap_toNat s⟩

end Sys2Proof.Machine
end

section
/-! A faulted agent has no further step (60_exceptions.md R141): in one step, and over any number of steps. -/

namespace Sys2Proof.Machine

theorem mover_ne_engine_of_not_ready {s : State} (h : s.engineReady = false) : s.mover ≠ some .engine := by
  cases hh : s.hostReady <;> simp [State.mover, h, hh]

/-! An agent that raised its fault cannot move. -/

theorem hostReady_of_hostRace {s : State} (h : s.mark.hostRace = true) : s.hostReady = false := by
  unfold State.hostReady
  split <;> simp [h]

theorem engineReady_of_memRange {s : State} (h : s.mark.memRange = true) : s.engineReady = false := by
  simp [State.engineReady, h]

/-! Where no agent can move the machine stops with the recorded fault, MemRange before HostRace (log 10). -/

theorem stalled_of_memRange {s : State} (h : s.mark.memRange = true) : stalled s = .fault .memRange := by
  simp [stalled, h]

theorem stalled_of_hostRace {s : State} (hm : s.mark.memRange = false) (hr : s.mark.hostRace = true) :
    stalled s = .fault .hostRace := by
  simp [stalled, hm, hr]

/-- Settles O45: a faulted agent is not ready, and a step that no agent can make is `stalled`. -/
theorem faultedAgentHasNoFurtherStep : Obligations.FaultedAgentHasNoFurtherStep := by
  intro s
  refine ⟨fun hm => ?engine, fun hr => ?host, fun hnone hm => ?memRange, fun hnone hm hr => ?hostRace,
    fun hmark hnone => ?unmarked⟩
  case engine => exact mover_ne_engine_of_not_ready (engineReady_of_memRange hm)
  case host => exact mover_ne_host_of_not_ready (hostReady_of_hostRace hr)
  case memRange => rw [step_of_no_mover hnone, stalled_of_memRange hm]
  case hostRace => rw [step_of_no_mover hnone, stalled_of_hostRace hm hr]
  case unmarked => rw [step_of_no_mover hnone, stalled_of_unmarked hmark]

/-! The engine's steps leave the host's side. -/

theorem startRun_host (s : State) (n : Nat) : (s.startRun n).host = s.host := by
  obtain ⟨-, h⟩ | ⟨-, -, h⟩ | ⟨-, -, h⟩ := startRun_cases s n <;> simp [h]

theorem encodeCheck_host (s : State) : (encodeCheck s).host = s.host := by
  obtain ⟨-, h⟩ | ⟨-, -, h⟩ | ⟨-, -, h⟩ := encodeCheck_cases s <;> simp [h, startRun_host]

theorem decodeCheck_host (s : State) : (decodeCheck s).host = s.host := by
  obtain ⟨-, h⟩ | ⟨-, -, h⟩ | ⟨-, -, h⟩ := decodeCheck_cases s <;> simp [h, startRun_host]

theorem engineStep_host {s t : State} (h : engineStep s = .next t) : t.host = s.host := by
  obtain ⟨-, rfl⟩ | ⟨-, -, rfl⟩ | ⟨-, -, rfl⟩ | ⟨hrun, -, -⟩ | ⟨hrun, -, -⟩ := engineStep_cases h
  · rfl
  · exact encodeCheck_host s
  · exact decodeCheck_host s
  all_goals
    obtain ⟨-, -, hhost, -, -⟩ := engineStep_run_sameSurroundings hrun h
    exact hhost

/-! Along a run. -/

/-- A run of `k + 1` steps that answers a next state is a step and a run of `k` steps. -/
theorem run_succ_eq_next {k : Nat} {s t : State} (h : Host.Core.run core (k + 1) s = .next t) :
    ∃ u, step s = .next u ∧ Host.Core.run core k u = .next t := by
  cases hu : step s with
  | next u => exact ⟨u, rfl, run_succ hu ▸ h⟩
  | fault r => simp [Host.Core.run, core, hu] at h
  | refused r => simp [Host.Core.run, core, hu] at h

/-- What every step keeps, every run keeps. -/
theorem run_keeps {P : State → Prop} (hstep : ∀ {s t : State}, P s → step s = .next t → P t) {k : Nat} {s t : State}
    (hs : P s) (h : Host.Core.run core k s = .next t) : P t := by
  induction k generalizing s with
  | zero =>
    cases h
    exact hs
  | succ k ih =>
    obtain ⟨u, hu, hrest⟩ := run_succ_eq_next h
    exact ih (hstep hs hu) hrest

/-- The host has raced, and its pending operations and its replies are those of `side`. -/
def State.RacedWith (side : HostSide) (s : State) : Prop := s.mark.hostRace = true ∧ s.host = side

/-- A step of a machine whose host has raced is the engine's, or none. -/
theorem step_racedWith {side : HostSide} {s t : State} (hs : s.RacedWith side) (h : step s = .next t) :
    t.RacedWith side := by
  obtain ⟨hrace, hhost⟩ := hs
  obtain ⟨-, hmarkKept⟩ := faultMarkIsNeverCleared
  obtain ⟨-, hraceKept⟩ := hmarkKept s t h
  refine ⟨hraceKept hrace, ?_⟩
  obtain ⟨-, -, -, rfl⟩ | ⟨hready, -⟩ | ⟨-, heng⟩ := step_cases h
  · exact hhost
  · simp [hostReady_of_hostRace hrace] at hready
  · simpa [hhost] using engineStep_host heng

/-- Settles O57: every step keeps the recorded HostRace and the host's side, and with HostRace recorded the host cannot move. -/
theorem racedHostNeverMovesAgain : Obligations.RacedHostNeverMovesAgain := by
  intro k s t hrace hrun
  obtain ⟨hrace', hhost⟩ : t.RacedWith s.host := run_keeps step_racedWith ⟨hrace, rfl⟩ hrun
  exact ⟨hrace', mover_ne_host_of_not_ready (hostReady_of_hostRace hrace'), hhost⟩

end Sys2Proof.Machine
end

section
/-! RESET (70_reset_and_hazards.md R153, R154, R157): what every register reads after it, and what it leaves. -/

namespace Sys2Proof.Machine

@[simp] theorem readOffset_offset (s : State) (r : Register) : s.readOffset r.offset = s.readRegister r := by
  rw [State.readOffset, ofOffset_offset]

/-- An idle block with the reset registers reads its reset values: CHANNELS 3, every other register 0. -/
theorem readRegister_of_reset {s : State} (hregs : s.regs = Regs.reset) (hidle : s.phase = .idle) (r : Register) :
    s.readRegister r = if r = .channels then 3 else 0 := by
  cases r with
  | status => simp [State.readRegister, statusWord_eq, hregs, busy_eq_false.2 hidle, Regs.reset]
  | cap => simp [State.readRegister, State.cap, State.W, hregs, Regs.reset, capacityBytes]
  | _ => simp [State.readRegister, hregs, Regs.reset]

/-- Settles O1: at launch and after RESET the block is idle with the reset registers, and CAP follows from their buffer. -/
theorem resetSetsEveryRegister : Obligations.ResetSetsEveryRegister := by
  refine ⟨fun s => ⟨s.doReset, rfl⟩, fun t ht => ?_⟩
  have ⟨hregs, hidle⟩ : t.regs = Regs.reset ∧ t.phase = .idle := by
    obtain rfl | ⟨s, hs⟩ := ht
    · exact ⟨rfl, rfl⟩
    · cases hs
      exact ⟨rfl, rfl⟩
  have hread (r : Register) : t.readOffset r.offset = if r = .channels then 3 else 0 :=
    (readOffset_offset t r).trans (readRegister_of_reset hregs hidle r)
  exact ⟨hread .cmd, hread .status, hread .width, hread .height, hread .channels, hread .pixBase, hread .payBase,
    hread .length, hread .result, hread .cap, hidle⟩

/-- Settles O2: RESET writes neither memory nor the mark, and at launch no byte has been written. -/
theorem resetKeepsMemoriesAndFaultMark : Obligations.ResetKeepsMemoriesAndFaultMark := by
  refine ⟨fun s => ⟨s.doReset, rfl, sameMemory_of_eq rfl rfl, rfl⟩, fun sp a => ?_⟩
  cases sp with
  | pix => rfl
  | pay => rfl

end Sys2Proof.Machine
end

section
/-! Every command ends (70_reset_and_hazards.md R168): CHECK is one step, and each RUN step brings the last slot one nearer. -/

namespace Sys2Proof.Machine

/-- From slot `i` on a command of `n` bytes ends after the RUN steps of its remaining slots (R102). -/
theorem State.AtSlot.completes_remaining {s : State} {n i : Nat} (h : s.AtSlot n i) :
    ∃ t, engineSteps (8 * n - i) s = .next t ∧ t.phase = .idle := by
  have hmore := h.more
  obtain ⟨t, hsteps, ht⟩ := h.after_engineSteps (j := 8 * n - i - 1) (by omega)
  obtain ⟨u, hstep, hu⟩ := ht.engineStep_eq
  refine ⟨u.finishSlot, ?_, hu.finishSlot_last (by omega)⟩
  rw [show 8 * n - i = 8 * n - i - 1 + 1 by omega, engineSteps_add, hsteps, andThen_next, engineSteps, hstep]
  rfl

/-- A good RUN phase ends within the RUN steps of the largest command the buffer holds. -/
theorem State.Inv.run_completes {s : State} (h : s.Inv) (hrun : s.phase = .run) :
    ∃ j t, j ≤ 8 * s.cap ∧ engineSteps j s = .next t ∧ t.phase = .idle := by
  obtain ⟨t, hsteps, ht⟩ := ((h.run hrun).atSlot hrun).completes_remaining
  have hcap := (h.run hrun).n_cap
  exact ⟨_, t, by omega, hsteps, ht⟩

/-- The end of CHECK: MemRange, an end for want of bytes, or the RUN phase (42_encode.md R107, 43_decode.md R120). -/
theorem startRun_outcome (s : State) (n : Nat) :
    (s.startRun n).phase = .idle ∨ (s.startRun n).mark.memRange = true ∨ (s.startRun n).phase = .run := by
  obtain ⟨-, h⟩ | ⟨-, -, h⟩ | ⟨-, -, h⟩ := startRun_cases s n <;> simp [h]

/-- A CHECK step leaves CHECK, unless it records MemRange. -/
theorem engineStep_check_outcome {s t : State} (hcheck : s.phase = .check) (h : engineStep s = .next t) :
    t.phase = .idle ∨ t.mark.memRange = true ∨ t.phase = .run := by
  cases hop : s.lat.op with
  | encode =>
    cases (engineStep_of_encodeCheck hcheck hop).symm.trans h
    obtain ⟨-, hst⟩ | ⟨-, -, hst⟩ | ⟨-, -, hst⟩ := encodeCheck_cases s <;> rw [hst]
    · exact .inl rfl
    · exact .inl rfl
    · exact startRun_outcome _ _
  | decode =>
    cases (engineStep_of_decodeCheck hcheck hop).symm.trans h
    obtain ⟨-, hst⟩ | ⟨-, -, hst⟩ | ⟨-, -, hst⟩ := decodeCheck_cases s <;> rw [hst]
    · exact .inl rfl
    · exact startRun_outcome _ _
    · exact startRun_outcome _ _

/-- Settles O37: a RUN phase ends with its last slot, and a CHECK step ends the command, records MemRange or begins
such a RUN phase. -/
theorem everyCommandCompletes : Obligations.EveryCommandCompletes := by
  intro s h hbusy hm
  cases hph : s.phase with
  | idle => exact absurd hph hbusy
  | run =>
    obtain ⟨j, t, hj, hsteps, ht⟩ := h.run_completes hph
    exact ⟨j, t, by omega, hsteps, .inl ht⟩
  | check =>
    obtain ⟨t, hstep, hinv⟩ := engineNeverStops s h hm
    have hsteps (j : Nat) : engineSteps (j + 1) s = engineSteps j t := by rw [engineSteps, hstep, andThen_next]
    obtain hidle | hmark | hrun := engineStep_check_outcome hph hstep
    · exact ⟨1, t, by omega, hsteps 0, .inl hidle⟩
    · exact ⟨1, t, by omega, hsteps 0, .inr hmark⟩
    · obtain ⟨j, u, hj, hrest, hu⟩ := hinv.run_completes hrun
      obtain ⟨-, hconfig⟩ := configurationIsFixedWhileBusy
      obtain ⟨-, -, -, -, -, -, hcap, -⟩ := operands_congr (hconfig s t hstep)
      exact ⟨j + 1, u, by omega, (hsteps j).trans hrest, .inl hu⟩

end Sys2Proof.Machine
end

section
/-! A command and then a RESET, with the engine's turns between them fixed by `sched` (70_reset_and_hazards.md R155, R170). -/

namespace Sys2Proof.Machine

/-- The engine has the next `j` turns at which both agents can move, and then the host has the next. -/
def turnsThenHost (j : Nat) : List Agent := List.replicate j .engine ++ [.host]

theorem turnsThenHost_succ (j : Nat) : turnsThenHost (j + 1) = .engine :: turnsThenHost j := rfl

/-- The state with other turns to come. -/
def State.scheduled (s : State) (turns : List Agent) : State := { s with sched := turns }

/-- What the host still has to do is RESET, after `j` turns of the engine, and no model fault is recorded. -/
structure State.ResetDue (s : State) (j : Nat) : Prop where
  pending : s.host.pending = [.reset]
  mark    : s.mark = { memRange := false, hostRace := false }
  sched   : s.sched = turnsThenHost j

/-- What RESET makes of `s`: idle, STATUS 0, and the memories as they are (R153, R154). -/
structure State.ResetsTo (s t : State) : Prop where
  idle   : t.phase = .idle
  status : t.readOffset 0x04 = 0
  memory : s.SameMemory t

theorem State.ResetDue.hostReady {s : State} {j : Nat} (h : s.ResetDue j) : s.hostReady = true := by
  simp [State.hostReady, h.pending, h.mark]

theorem State.ResetDue.engineReady {s : State} {j : Nat} (h : s.ResetDue j) (hbusy : s.phase ≠ .idle) :
    s.engineReady = true :=
  engineReady_eq_true.2 ⟨hbusy, by rw [h.mark]⟩

/-- A turn of the engine before the RESET. -/
theorem State.ResetDue.step_engine {s : State} {j : Nat} (h : s.ResetDue (j + 1)) (hbusy : s.phase ≠ .idle) :
    step s = engineStep (s.scheduled (turnsThenHost j)) := by
  have hsched := h.sched.trans (turnsThenHost_succ j)
  rw [step_of_mover (mover_of_both_ready h.hostReady (h.engineReady hbusy) hsched),
    spendChoice_of_both_ready h.hostReady (h.engineReady hbusy) hsched]
  rfl

/-- The state in which that turn is taken. -/
theorem State.ResetDue.turn {s : State} {j : Nat} (h : s.ResetDue (j + 1)) :
    (s.scheduled (turnsThenHost j)).ResetDue j := ⟨h.pending, h.mark, rfl⟩

/-- The turn of the RESET. -/
theorem State.ResetDue.step_reset {s : State} (h : s.ResetDue 0) (hbusy : s.phase ≠ .idle) :
    ∃ t, step s = .next t ∧ s.ResetsTo t := by
  have hmover : s.mover = some .host := mover_of_both_ready h.hostReady (h.engineReady hbusy) h.sched
  rw [step_of_host_mover hmover h.pending]
  exact ⟨_, rfl, rfl, readRegister_of_reset rfl rfl .status, sameMemory_of_eq (by simp) (by simp)⟩

/-- A RUN step leaves the RESET due. -/
theorem State.ResetDue.of_run_step {s t : State} {j : Nat} (h : s.ResetDue j) (hrun : s.phase = .run)
    (hstep : engineStep s = .next t) : t.ResetDue j := by
  obtain ⟨hmark, -, hhost, hsched, -⟩ := engineStep_run_sameSurroundings hrun hstep
  exact ⟨hhost ▸ h.pending, hmark.trans h.mark, hsched.trans h.sched⟩

/-- An idle host that has a command to send and then RESET, with `j` turns of the engine between them. -/
structure State.SendsThenResets (s : State) (i : Instr) (j : Nat) : Prop where
  idle    : s.phase = .idle
  mark    : s.mark = { memRange := false, hostRace := false }
  pending : s.host.pending = [.send (encode i), .reset]
  sched   : s.sched = turnsThenHost j

theorem wf_of_command {i : Instr} {op : Op} (hi : (i, op) ∈ [(Instr.encode, Op.encode), (Instr.decode, Op.decode)]) :
    i.wf = true := by
  obtain ⟨rfl, -⟩ | ⟨rfl, -⟩ : (i = .encode ∧ op = .encode) ∨ (i = .decode ∧ op = .decode) := by simpa using hi
  · rfl
  · rfl

/-- The sent command is accepted, and uses up no turn: the engine is idle. -/
theorem State.SendsThenResets.step_eq {s : State} {i : Instr} {op : Op} {j : Nat} (h : s.SendsThenResets i j)
    (hi : (i, op) ∈ [(Instr.encode, Op.encode), (Instr.decode, Op.decode)]) :
    step s = .next ((taken s [.reset]).accept op) := by
  have he : s.engineReady = false := engineReady_of_idle h.idle
  have hmover : s.mover = some .host := mover_of_host_only (hostReady_of_send h.pending (by rw [h.mark])) he
  rw [step_of_host_mover hmover h.pending, ← taken_spendChoice, spendChoice_of_engine_not_ready he,
    hostAct_send_of_ok _ (decode_encode (wf_of_command hi))]
  exact exec_command_of_idle h.idle hi

theorem State.SendsThenResets.accept_resetDue {s : State} {i : Instr} {j : Nat} (h : s.SendsThenResets i j) (op : Op) :
    ((taken s [.reset]).accept op).ResetDue j := ⟨rfl, h.mark, h.sched⟩

/-- Settles O58: the accepted command is in CHECK, and the host's turn is next. -/
theorem resetBeforeCheckLeavesTheMemories : Obligations.ResetBeforeCheckLeavesTheMemories := by
  intro s i hi hidle hmark hp hs
  have h : s.SendsThenResets i 0 := ⟨hidle, hmark, hp, hs⟩
  obtain ⟨op, hop⟩ : ∃ op, (i, op) ∈ [(Instr.encode, Op.encode), (Instr.decode, Op.decode)] := by
    obtain rfl | rfl : i = .encode ∨ i = .decode := by simpa using hi
    · exact ⟨.encode, by simp⟩
    · exact ⟨.decode, by simp⟩
  obtain ⟨t, hstep, hreset⟩ := (h.accept_resetDue op).step_reset (by simp)
  exact ⟨t, (run_succ (h.step_eq hop)).trans (run_succ hstep), hreset.idle, hreset.status, hreset.memory⟩

end Sys2Proof.Machine
end

section
/-! A RESET in the RUN phase leaves what the RUN steps before it have done (70_reset_and_hazards.md R155). -/

namespace Sys2Proof.Machine

/-- `P i` holds at slot `i` of a command of `n` bytes, whatever turns are to come, and RUN steps pass it on. -/
structure SlotInvariant (n : Nat) (P : Nat → State → Prop) : Prop where
  atSlot    : ∀ {i t}, P i t → t.AtSlot n i
  scheduled : ∀ {i t} (turns : List Agent), P i t → P i (t.scheduled turns)
  next      : ∀ {i t}, P i t → i + 1 < 8 * n → ∃ u, engineStep t = .next u ∧ P (i + 1) u

theorem State.AtSlot.busy {s : State} {n i : Nat} (h : s.AtSlot n i) : s.phase ≠ .idle := by simp [h.running]

/-- From slot `i` the engine takes its `j` turns and the host then its RESET, which finds the state of slot `i + j`. -/
theorem SlotInvariant.run_to_reset {n : Nat} {P : Nat → State → Prop} (hP : SlotInvariant n P) {i j : Nat} {t : State}
    (h : t.ResetDue j) (ht : P i t) (hj : i + j < 8 * n) :
    ∃ u v, P (i + j) u ∧ Host.Core.run core (j + 1) t = .next v ∧ u.ResetsTo v := by
  induction j generalizing i t with
  | zero =>
    obtain ⟨v, hstep, hreset⟩ := h.step_reset (hP.atSlot ht).busy
    exact ⟨t, v, ht, run_succ hstep, hreset⟩
  | succ j ih =>
    obtain ⟨u, hstep, hu⟩ := hP.next (hP.scheduled (turnsThenHost j) ht) (by omega)
    have hslot := hP.atSlot ht
    obtain ⟨w, v, hw, hrest, hreset⟩ := ih (h.turn.of_run_step hslot.running hstep) hu (by omega)
    exact ⟨w, v, by rwa [Nat.add_assoc, Nat.add_comm 1] at hw,
      (run_succ ((h.step_engine hslot.busy).trans hstep)).trans hrest, hreset⟩

theorem State.AtSlot.scheduled {t : State} {n i : Nat} (h : t.AtSlot n i) (turns : List Agent) :
    (t.scheduled turns).AtSlot n i :=
  h.of_sameCommand (.of_eq rfl rfl rfl rfl rfl)

theorem scheduled_sameMemory (s : State) (turns : List Agent) : s.SameMemory (s.scheduled turns) := sameMemory_of_eq rfl rfl

theorem encodesTo_slotInvariant (s : State) (n : Nat) : SlotInvariant n fun i t => s.EncodesTo t n i where
  atSlot h := h.atSlot
  scheduled turns h :=
    ⟨h.atSlot.scheduled turns, h.op, h.regs, h.latch, h.memory.of_sameMemory (scheduled_sameMemory _ turns)⟩
  next h hi := ⟨_, h.engineStep_eq, h.finishSlot hi⟩

theorem decodesTo_slotInvariant (s : State) (n : Nat) :
    SlotInvariant n fun i t => s.DecodesTo t n i ∧ s.GathersBelow t i where
  atSlot := fun ⟨h, _⟩ => h.atSlot
  scheduled turns := fun ⟨h, hm⟩ =>
    ⟨⟨h.atSlot.scheduled turns, h.op, h.regs, h.acc⟩, hm.of_sameMemory (scheduled_sameMemory _ turns)⟩
  next := fun ⟨h, hm⟩ hi => ⟨_, h.engineStep_eq, h.finishSlot hm hi,
    (h.gathered_memory hm).of_sameMemory (finishSlot_readByte _)⟩

/-- The accepted command at the engine's first turn, with `r` turns left to it. -/
def State.atCheck (s : State) (op : Op) (r : Nat) : State :=
  ((taken s [.reset]).accept op).scheduled (turnsThenHost r)

/-- From the sent command to the RESET: where CHECK starts the RUN phase at a state that meets a slot invariant,
RESET finds the state of slot `r`. -/
theorem State.SendsThenResets.run_to_reset {s u : State} {i : Instr} {op : Op} {n r : Nat} {P : Nat → State → Prop}
    (h : s.SendsThenResets i (r + 1)) (hi : (i, op) ∈ [(Instr.encode, Op.encode), (Instr.decode, Op.decode)])
    (hcheck : engineStep (s.atCheck op r) = .next (u.startRun n)) (hu : u.ResetDue r) (hacc : u.Acceptable n)
    (hP : SlotInvariant n P) (hstart : P 0 (u.startRun n)) (hr : r < 8 * n) :
    ∃ v w, P r v ∧ Host.Core.run core (3 + r) s = .next w ∧ v.ResetsTo w := by
  have hdue := h.accept_resetDue op
  have ⟨_, _, hrange⟩ := hacc
  have hstartDue : (u.startRun n).ResetDue r := by
    rw [startRun_of_inRange hrange (by omega)]
    exact ⟨hu.pending, hu.mark, hu.sched⟩
  obtain ⟨v, w, hv, hrun, hreset⟩ := hP.run_to_reset hstartDue hstart (by omega)
  refine ⟨v, w, by rwa [Nat.zero_add] at hv, ?_, hreset⟩
  rw [show 3 + r = r + 1 + 1 + 1 by omega, run_succ (h.step_eq hi),
    run_succ ((hdue.step_engine (by simp)).trans hcheck), hrun]

/-- Settles O34: CHECK starts the ENCODE at slot 0, and the RESET finds the slots below `r` written. -/
theorem resetLeavesAPrefixOfEncode : Obligations.ResetLeavesAPrefixOfEncode := by
  intro s r hidle hmark hp hs hacc hr
  have h : s.SendsThenResets .encode (r + 1) := ⟨hidle, hmark, hp, by rw [hs, Nat.add_comm]; rfl⟩
  have ⟨hvalid, hlen, _⟩ := hacc
  have hcheck := engineStep_of_encodeCheck (s := s.atCheck .encode r) rfl rfl
  rw [encodeCheck_of_fits (s := s.atCheck .encode r) hvalid hlen] at hcheck
  obtain ⟨v, w, hv, hrun, hreset⟩ := h.run_to_reset (by simp) hcheck (h.accept_resetDue .encode).turn hacc
    (encodesTo_slotInvariant (s.atCheck .encode r) s.L) (startRun_encodesTo (n := s.L) hacc rfl (by omega)) hr
  obtain ⟨hslots, hothers, hpayload⟩ := hv.memory.of_sameMemory hreset.memory
  exact ⟨w, hrun, hreset.idle, hreset.status, fun i hi => (hslots i hi).trans (embedBit_payloadBit _ _ _), hothers, hpayload⟩

/-- Settles O35: CHECK starts the DECODE at slot 0, and the RESET finds the output bytes written whose slots are below `r`. -/
theorem resetLeavesAPrefixOfDecode : Obligations.ResetLeavesAPrefixOfDecode := by
  intro s r n hidle hmark hp hs hn hacc hr
  have h : s.SendsThenResets .decode (r + 1) := ⟨hidle, hmark, hp, by rw [hs, Nat.add_comm]; rfl⟩
  have ⟨hvalid, _, _⟩ := hacc
  have hcheck := engineStep_of_decodeCheck (s := s.atCheck .decode r) rfl rfl
  have hgoal : min (s.atCheck .decode r).L (s.atCheck .decode r).cap = n := hn.symm
  rw [decodeCheck_of_valid (s := s.atCheck .decode r) hvalid, hgoal] at hcheck
  have ⟨hpending, hmark', hsched⟩ := (h.accept_resetDue .decode).turn
  obtain ⟨hmemory, hmore, -⟩ := startRun_decodedUpTo (s := (s.atCheck .decode r).clamped) (n := n) hacc rfl
  obtain ⟨v, w, ⟨-, hv⟩, hrun, hreset⟩ := h.run_to_reset (by simp) hcheck ⟨hpending, hmark', hsched⟩ hacc
    (decodesTo_slotInvariant (s.atCheck .decode r).clamped n) ⟨hmore (by omega), hmemory⟩ hr
  obtain ⟨hbytes, hothers, hpixels⟩ := hv.of_sameMemory hreset.memory
  exact ⟨w, hrun, hreset.idle, hreset.status,
    fun k hk => (congrArg BitVec.toNat (hbytes k hk)).trans (gatheredByte_toNat _ k), hothers, hpixels⟩

end Sys2Proof.Machine
end
